-- ==== Sys2Proof/Word.lean ====
section
/-! DEFINITION. The word types of the block (R5, R6, R7): bytes, 16-bit registers and words, 32-bit addresses and offsets. -/

namespace Sys2Proof

/-- A byte: 8 bits everywhere (R5 "Byte size", R40). -/
abbrev Byte := BitVec 8

/-- A 16-bit word: a VDP control or data word, `status`, `address_reg`, `code_reg` (R5). -/
abbrev Half := BitVec 16

/-- A bus address or a device-relative offset: 32 bits, no masking to 24 bits (R5, R40, D27). -/
abbrev Addr := BitVec 32

end Sys2Proof
end

