-- ==== Sys2Proof/Config.lean ====
section
/-! DEFINITION. What is fixed when the System is built (R5, R11): the kinds of device, the mappings, the
parameters of the configuration record with their defaults, and the one free value. -/

namespace Sys2Proof

/-- The two kinds of stub peripheral (R139, D7). -/
inductive Stub where
  /-- "always-same-value": every byte read is `k`. -/
  | const (k : Byte)
  /-- "no-op": every byte read is 0x00. -/
  | noOp
  deriving DecidableEq, Repr

/-- The variant implementors of the Device contract (R120). A Mirror or a Tracer owns the one device it wraps, so
a device is a tree; `ram`, `rom` and `vdp` name the one RAM, ROM and VDP whose contents stand in the state (R10). -/
inductive Device where
  | ram
  | rom
  | vdp
  | stub (kind : Stub)
  /-- `period: u32` (R131). -/
  | mirror (period : Addr) (inner : Device)
  /-- `label`, whether a sink is configured for this Tracer (R11, R135; log entry 36), and the wrapped device. -/
  | tracer (label : String) (sink : Bool) (inner : Device)
  deriving DecidableEq, Repr

/-- One entry of the mapping table: an inclusive address range bound to one device (R100). -/
structure Mapping where
  first  : Addr
  last   : Addr
  device : Device
  deriving DecidableEq, Repr

/-- The parameters of R5, one field each (the rows R5 marks "fixed" are constants, below and in the rules that use
them). RAM_INIT and VRAM_INIT are functions from offset to byte on a buffer of fixed size: here the list of the
bytes from offset 0 up, 0x00 beyond its end. -/
structure Config where
  /-- RAM_SIZE; also the period of the RAM's Mirror (R232). -/
  ramSize   : Addr
  /-- RAM_WINDOW, first and last address. -/
  ramFirst  : Addr
  ramLast   : Addr
  /-- VDP_BASE. -/
  vdpBase   : Addr
  /-- VDP_WINDOW, in bytes: 9 to 16. -/
  vdpWindow : Nat
  /-- STUBS. -/
  stubs     : List Mapping
  /-- VDP_STATUS_RESET (OPEN, D18). -/
  statusReset : Half
  /-- RAM_INIT (OPEN, D19). -/
  ramInit   : List Byte
  /-- VRAM_INIT (OPEN, D19). -/
  vramInit  : List Byte
  /-- TRACE_SINK: whether the trace sink is present. It decides the lifecycle lines and the sink flag of the three Tracers below;
  a Tracer that stands in STUBS or in an operation goes by its own flag (DESIGN CHOICE, log entry 36). -/
  traceSink : Bool
  /-- The label of the Tracer a device of the System's map is wrapped in, if any (R231, last sentence). -/
  ramTracer : Option String
  vdpTracer : Option String
  romTracer : Option String
  deriving DecidableEq, Repr

/-- FREE VALUE (log entry 5): the byte the version register's stub returns in the default configuration. The spec gives the stub's
default address and no value (R139, N7, U12), so nothing here fixes one. -/
opaque Config.versionByte : Byte

/-- The default of every parameter (R5, R231, D18, D19, D23). Which kind each default stub is: log entry 5. DESIGN CHOICE (log entry 35):
R5 gives TRACE_SINK no default; here the sink is absent and no device is wrapped in a Tracer, so nothing is logged. -/
def Config.default : Config where
  ramSize := 0x10000#32
  ramFirst := 0xE00000#32
  ramLast := 0xFFFFFF#32
  vdpBase := 0xC00000#32
  vdpWindow := 16
  stubs := [⟨0xA10000#32, 0xA10001#32, .stub (.const Config.versionByte)⟩,
    ⟨0xA11100#32, 0xA11101#32, .stub .noOp⟩, ⟨0xA11200#32, 0xA11201#32, .stub .noOp⟩]
  statusReset := 0x0000#16
  ramInit := []
  vramInit := []
  traceSink := false
  ramTracer := none
  vdpTracer := none
  romTracer := none

/-- VRAM_SIZE (R5, R22). -/
def vramSize : Nat := 0x20000

/-- ROM_WINDOW (R5, R231): first and last address. -/
def romFirst : Addr := 0x000000#32
def romLast : Addr := 0x3FFFFF#32

end Sys2Proof
end

