-- ==== Sys2Proof/Request.lean ====
section
/-! DEFINITION. The raw forms in which an operation reaches the block (R70, R72, R75 to R78, R80, R85): what the
outside presents, before decoding. Each form is one value of the table's `pattern_over` (30_encoding.md section 10);
the bits the table writes out stand in it as bit vectors. -/

namespace Sys2Proof

/-- `dir` (R70). -/
inductive Dir where
  | read
  | write
  deriving DecidableEq, Repr

/-- The rows of the header field table (R211). -/
inductive HeaderField where
  | consoleName | copyright | domesticTitle | overseasTitle | productType | productCode | checksum
  | programStart | programEnd | ramStart | ramEnd | regions
  deriving DecidableEq, Repr

/-- One operation as it is presented, undecoded. -/
inductive Request where
  /-- Configuration call `Map(device, start, end)` (R102). -/
  | map (device : Device) (first last : Addr)
  /-- A bus transaction (R70): direction, absolute address, `n`, and the payload (writes only). -/
  | txn (dir : Dir) (addr : Addr) (n : Nat) (bytes : List Byte)
  /-- A device transaction (R72; `DEV.RD`, `DEV.WR` of R85): the same with a device and a device-relative offset. -/
  | dev (target : Device) (dir : Dir) (offset : Addr) (n : Nat) (bytes : List Byte)
  /-- A read at a VDP port (R152): the offset and the length. -/
  | portRead (offset : Addr) (n : Nat)
  /-- A 16-bit logical write at the VDP (R75, R156). -/
  | logical (offset : Addr) (w : Half)
  /-- A 16-bit logical write at the control port, its offset not yet checked (R170). -/
  | ctrlPort (offset : Addr) (w : Half)
  /-- A control word `W` (R76 to R78): which command it is depends on `write_pending`. -/
  | ctrlWord (w : Half)
  /-- A data word (R80). -/
  | dataWord (w : Half)
  /-- The VRAM primitive: address and word (R194). -/
  | vramWord (a : Half) (w : Half)
  /-- Host calls (R233, R236, R238). -/
  | construct (cfg : Config)
  | load (data : List Byte)
  | run
  /-- Calls of the ROM header software (R212, R213, R216, R219). -/
  | header (f : HeaderField)
  | spaceCollapse (b : List Byte)
  | regions
  | checksum
  deriving DecidableEq, Repr

end Sys2Proof
end

