-- ==== Sys2Proof/Syntax.lean ====
section
/-! DEFINITION. The operations that stand in for instructions (00_scope.md section 6): one constructor per row of
spec/opcode_table.json (CTRL.ADDR1 has three rows, one for each value of its code field, and three constructors). -/

namespace Sys2Proof

/-- The operations of the block. Payloads are lists of bytes; the first goes to the lowest address (R70). -/
inductive Instr where
  -- bus operations (40_bus_mapper.md)
  | map (device : Device) (first last : Addr)
  | busRd (addr : Addr) (n : Nat)
  | busWr (addr : Addr) (bytes : List Byte)
  -- storage devices (41_storage_devices.md)
  | ramRd (offset : Addr) (n : Nat)
  | ramWr (offset : Addr) (bytes : List Byte)
  | romRd (offset : Addr) (n : Nat)
  | romWr (offset : Addr) (bytes : List Byte)
  | mirRd (period : Addr) (inner : Device) (offset : Addr) (n : Nat)
  | mirWr (period : Addr) (inner : Device) (offset : Addr) (bytes : List Byte)
  | trcRd (label : String) (sink : Bool) (inner : Device) (offset : Addr) (n : Nat)
  | trcWr (label : String) (sink : Bool) (inner : Device) (offset : Addr) (bytes : List Byte)
  | stubRd (kind : Stub) (offset : Addr) (n : Nat)
  | stubWr (kind : Stub) (offset : Addr) (bytes : List Byte)
  -- VDP ports (42_vdp_ports.md)
  | vdpRd (offset : Addr) (n : Nat)
  /-- `p` is offset bit 1, ignored: 0x04 and 0x06 are the same port. -/
  | vdpStatus (p : BitVec 1)
  | vdpWr (offset : Addr) (bytes : List Byte)
  | vdpWr16 (offset : Addr) (b0 b1 : Byte)
  -- control port (43_vdp_control.md)
  | ctrlWr (p : BitVec 1) (b0 b1 : Byte)
  | ctrlRegset (index : BitVec 6) (value : Byte)
  /-- CTRL.ADDR1 with `W[15:14] = 00`. -/
  | ctrlAddr1Cd00 (addrLo : BitVec 14)
  /-- CTRL.ADDR1 with `W[15:14] = 01`. -/
  | ctrlAddr1Cd01 (addrLo : BitVec 14)
  /-- CTRL.ADDR1 with `W[15:14] = 11`. -/
  | ctrlAddr1Cd11 (addrLo : BitVec 14)
  /-- `ignoredHi` is `b0`, `ignoredLo` is `b1[3:2]` (R78, D15). -/
  | ctrlAddr2 (ignoredHi : Byte) (cdHi : BitVec 4) (ignoredLo : BitVec 2) (addrHi : BitVec 2)
  -- data port (44_vdp_data_vram.md)
  | dataWr (b0 b1 : Byte)
  | vramWr16 (a : Half) (b0 b1 : Byte)
  -- host operations (46_system.md)
  | sysConstruct (cfg : Config)
  | sysLoad (data : List Byte)
  | sysRun
  -- ROM header software (45_rom_header_software.md)
  | hdrConsoleName
  | hdrCopyright
  | hdrDomesticTitle
  | hdrOverseasTitle
  | hdrProductType
  | hdrProductCode
  | hdrChecksum
  | hdrProgramStart
  | hdrProgramEnd
  | hdrRamStart
  | hdrRamEnd
  | hdrRegions
  | spaceCollapse (b : List Byte)
  | regions
  | checksum
  deriving DecidableEq, Repr

end Sys2Proof
end

