-- ==== Sys2Proof/WellFormed.lean ====
section
/-! DEFINITION. Which operations and configurations are admitted: zero-length transactions, reversed ranges, a zero
period and configurations that break R232 are not (R50, R59, R101, R102, R131, R232; D2, D3). -/

namespace Sys2Proof

/-- The reasons an operation is not admitted. -/
inductive IllFormed where
  /-- A transaction of no bytes (R50, D2). -/
  | zeroLength
  /-- A range with `start > end` (R101 (a), R102, D3). -/
  | reversedRange
  /-- A Mirror with `period = 0` somewhere in the device (R59, R131, D3). -/
  | zeroPeriod
  /-- RAM_SIZE = 0: the RAM's Mirror would have period 0 (R59, R232). -/
  | ramSizeZero
  /-- VDP_WINDOW outside 9..16 (R232). -/
  | vdpWindowSize
  /-- `VDP_BASE + VDP_WINDOW - 1` is not a 32-bit address (R5, R231). -/
  | vdpWindowEnd
  /-- An entry of STUBS that is no stub device (R231). -/
  | notAStub
  /-- A range of the configuration meets ROM_WINDOW, which is the cartridge's (R231, R232; log entry 14). -/
  | romWindow
  deriving DecidableEq, Repr

/-- Every Mirror of the device has `period >= 1` (R131). -/
def Device.wf : Device → Bool
  | .ram | .rom | .vdp | .stub _ => true
  | .mirror period inner => period != 0#32 && inner.wf
  | .tracer _ _ inner => inner.wf

/-- A stub, possibly wrapped in Tracers (R231: any device may be). -/
def Device.isStub : Device → Bool
  | .ram | .rom | .vdp | .mirror _ _ => false
  | .stub _ => true
  | .tracer _ _ inner => inner.isStub

/-- R101 (a) and (c) for one mapping. -/
def Mapping.wf (m : Mapping) : Bool := m.first ≤ m.last && m.device.wf

/-- The inclusive ranges of two mappings intersect (R101 (b), R102). -/
def Mapping.overlaps (m k : Mapping) : Bool := m.first ≤ k.last && k.first ≤ m.last

/-- The range meets ROM_WINDOW, which begins at address 0 (R231). -/
def Mapping.meetsRomWindow (m : Mapping) : Bool := m.first ≤ romLast

/-- The first check of R232 that the configuration fails. The window of the ROM, which SYS.LOAD maps later, must be free; that
the configuration's own ranges are disjoint is not checked here: such an overlap is MAP's RangeOverlap (R233). -/
def Config.check (c : Config) : Option IllFormed :=
  if c.ramSize = 0#32 then some .ramSizeZero
  else if c.vdpWindow < 9 ∨ 16 < c.vdpWindow then some .vdpWindowSize
  else if 2 ^ 32 < c.vdpBase.toNat + c.vdpWindow then some .vdpWindowEnd
  else if c.ramLast < c.ramFirst ∨ c.stubs.any (fun m => m.last < m.first) then some .reversedRange
  else if c.stubs.any (fun m => !m.device.isStub) then some .notAStub
  else if c.ramFirst ≤ romLast ∨ c.vdpBase ≤ romLast ∨ c.stubs.any Mapping.meetsRomWindow then some .romWindow
  else none

def Config.wf (c : Config) : Bool := c.check == none

/-- R50: a read or a write moves at least one byte. -/
def checkLength (n : Nat) : Option IllFormed := if n = 0 then some .zeroLength else none

def checkDevice (d : Device) : Option IllFormed := if d.wf then none else some .zeroPeriod

/-- The reason an operation is not admitted, if there is one. -/
def Instr.check : Instr → Option IllFormed
  | .map device first last => if last < first then some .reversedRange else checkDevice device
  | .busRd _ n | .ramRd _ n | .romRd _ n | .stubRd _ _ n | .vdpRd _ n => checkLength n
  | .busWr _ bytes | .ramWr _ bytes | .romWr _ bytes | .stubWr _ _ bytes | .vdpWr _ bytes =>
    checkLength bytes.length
  | .mirRd period inner _ n => if n = 0 then some .zeroLength else checkDevice (.mirror period inner)
  | .mirWr period inner _ bytes => if bytes.length = 0 then some .zeroLength else checkDevice (.mirror period inner)
  | .trcRd _ _ inner _ n => if n = 0 then some .zeroLength else checkDevice inner
  | .trcWr _ _ inner _ bytes => if bytes.length = 0 then some .zeroLength else checkDevice inner
  | .sysConstruct cfg => cfg.check
  | .vdpStatus _ | .vdpWr16 _ _ _ | .ctrlWr _ _ _ | .ctrlRegset _ _ | .ctrlAddr1Cd00 _ | .ctrlAddr1Cd01 _
  | .ctrlAddr1Cd11 _ | .ctrlAddr2 _ _ _ _ | .dataWr _ _ | .vramWr16 _ _ _ | .sysLoad _ | .sysRun
  | .hdrConsoleName | .hdrCopyright | .hdrDomesticTitle | .hdrOverseasTitle | .hdrProductType | .hdrProductCode
  | .hdrChecksum | .hdrProgramStart | .hdrProgramEnd | .hdrRamStart | .hdrRamEnd | .hdrRegions
  | .spaceCollapse _ | .regions | .checksum => none

/-- The operation is admitted. -/
def Instr.wf (i : Instr) : Bool := i.check == none

end Sys2Proof
end

