-- ==== Sys2Proof/Decode.lean ====
section
/-! DEFINITION. Decoding of the raw forms into operations and the encoder (30_encoding.md). The control words are the
only words whose meaning depends on a state element: `write_pending` is an argument of the decoder (R170). -/

namespace Sys2Proof

/-- Why a raw form is no operation. -/
inductive DecodeError where
  /-- `n` is not `len(bytes)` of a write, or a read carries a payload (R70). -/
  | lengthMismatch
  /-- The operation is not admitted. -/
  | illFormed (why : IllFormed)
  deriving DecidableEq, Repr

/-! ## Words -/

/-- `b0` of a word `W = b0 ++ b1`: `W[15:8]`. -/
def wordHi (w : Half) : Byte := w.extractLsb' 8 8

/-- `b1` of a word: `W[7:0]`. -/
def wordLo (w : Half) : Byte := w.extractLsb' 0 8

/-- `b0 ++ b1` (R7). -/
def wordOf (b0 b1 : Byte) : Half := b0 ++ b1

/-- The offset matches the control-port row of R74: value 0x00000004 under the mask 0xFFFFFFFD (bit 1 ignored). -/
def isControlOffset (offset : Addr) : Bool := offset &&& 0xFFFFFFFD#32 == 0x00000004#32

/-- Offset bit 1, the don't-care bit `p` of the port patterns (R74). -/
def portBit (offset : Addr) : BitVec 1 := offset.extractLsb' 1 1

/-- The control-port offset with don't-care bit `p`: `0...01p0`. -/
def controlOffset (p : BitVec 1) : Addr := (1#30 ++ p ++ 0#1 : BitVec 32)

/-- A control word (R76, R77, R78): in pending every word is phase 2, in idle `W[15:14]` selects the command. -/
def decodeCtrlWord (pending : Bool) (w : Half) : Instr :=
  if pending then
    .ctrlAddr2 (w.extractLsb' 8 8) (w.extractLsb' 4 4) (w.extractLsb' 2 2) (w.extractLsb' 0 2)
  else if w.extractLsb' 14 2 = 0b10#2 then .ctrlRegset (w.extractLsb' 8 6) (w.extractLsb' 0 8)
  else if w.extractLsb' 14 2 = 0b00#2 then .ctrlAddr1Cd00 (w.extractLsb' 0 14)
  else if w.extractLsb' 14 2 = 0b01#2 then .ctrlAddr1Cd01 (w.extractLsb' 0 14)
  else .ctrlAddr1Cd11 (w.extractLsb' 0 14)

/-! ## Transactions -/

/-- A read carries no payload; a write carries exactly `n` bytes (R70). -/
def checkPayload (dir : Dir) (n : Nat) (bytes : List Byte) : Bool :=
  match dir with
  | .read => bytes.isEmpty
  | .write => n == bytes.length

/-- The operation of a device transaction: the device's kind and the direction select it (R72, R120). -/
def devInstr (target : Device) (dir : Dir) (offset : Addr) (n : Nat) (bytes : List Byte) : Instr :=
  match target, dir with
  | .ram, .read => .ramRd offset n
  | .ram, .write => .ramWr offset bytes
  | .rom, .read => .romRd offset n
  | .rom, .write => .romWr offset bytes
  | .vdp, .read => .vdpRd offset n
  | .vdp, .write => .vdpWr offset bytes
  | .stub kind, .read => .stubRd kind offset n
  | .stub kind, .write => .stubWr kind offset bytes
  | .mirror period inner, .read => .mirRd period inner offset n
  | .mirror period inner, .write => .mirWr period inner offset bytes
  | .tracer label sink inner, .read => .trcRd label sink inner offset n
  | .tracer label sink inner, .write => .trcWr label sink inner offset bytes

def headerInstr : HeaderField → Instr
  | .consoleName => .hdrConsoleName
  | .copyright => .hdrCopyright
  | .domesticTitle => .hdrDomesticTitle
  | .overseasTitle => .hdrOverseasTitle
  | .productType => .hdrProductType
  | .productCode => .hdrProductCode
  | .checksum => .hdrChecksum
  | .programStart => .hdrProgramStart
  | .programEnd => .hdrProgramEnd
  | .ramStart => .hdrRamStart
  | .ramEnd => .hdrRamEnd
  | .regions => .hdrRegions

/-- The operation a raw form stands for, admitted or not. A port read that is not the 2-byte read at the control
port is an ordinary VDP read (R151), and a word at an offset that is not the control port an ordinary logical write
(R156): the more specific row of the table is tried first. -/
def rawInstr (pending : Bool) : Request → Except DecodeError Instr
  | .map device first last => .ok (.map device first last)
  | .txn dir addr n bytes =>
    if checkPayload dir n bytes then
      match dir with
      | .read => .ok (.busRd addr n)
      | .write => .ok (.busWr addr bytes)
    else .error .lengthMismatch
  | .dev target dir offset n bytes =>
    if checkPayload dir n bytes then .ok (devInstr target dir offset n bytes) else .error .lengthMismatch
  | .portRead offset n =>
    if isControlOffset offset && n == 2 then .ok (.vdpStatus (portBit offset)) else .ok (.vdpRd offset n)
  | .logical offset w => .ok (.vdpWr16 offset (wordHi w) (wordLo w))
  | .ctrlPort offset w =>
    if isControlOffset offset then .ok (.ctrlWr (portBit offset) (wordHi w) (wordLo w))
    else .ok (.vdpWr16 offset (wordHi w) (wordLo w))
  | .ctrlWord w => .ok (decodeCtrlWord pending w)
  | .dataWord w => .ok (.dataWr (wordHi w) (wordLo w))
  | .vramWord a w => .ok (.vramWr16 a (wordHi w) (wordLo w))
  | .construct cfg => .ok (.sysConstruct cfg)
  | .load data => .ok (.sysLoad data)
  | .run => .ok .sysRun
  | .header f => .ok (headerInstr f)
  | .spaceCollapse b => .ok (.spaceCollapse b)
  | .regions => .ok .regions
  | .checksum => .ok .checksum

/-- The decoder: total, and every rejection has a name. -/
def decode (pending : Bool) (r : Request) : Except DecodeError Instr :=
  match rawInstr pending r with
  | .error e => .error e
  | .ok i =>
    match i.check with
    | some why => .error (.illFormed why)
    | none => .ok i

/-! ## The encoder -/

/-- The raw form of an operation, from the same formats (R70, R72, R75 to R78, R80). -/
def encode : Instr → Request
  | .map device first last => .map device first last
  | .busRd addr n => .txn .read addr n []
  | .busWr addr bytes => .txn .write addr bytes.length bytes
  | .ramRd offset n => .dev .ram .read offset n []
  | .ramWr offset bytes => .dev .ram .write offset bytes.length bytes
  | .romRd offset n => .dev .rom .read offset n []
  | .romWr offset bytes => .dev .rom .write offset bytes.length bytes
  | .mirRd period inner offset n => .dev (.mirror period inner) .read offset n []
  | .mirWr period inner offset bytes => .dev (.mirror period inner) .write offset bytes.length bytes
  | .trcRd label sink inner offset n => .dev (.tracer label sink inner) .read offset n []
  | .trcWr label sink inner offset bytes => .dev (.tracer label sink inner) .write offset bytes.length bytes
  | .stubRd kind offset n => .dev (.stub kind) .read offset n []
  | .stubWr kind offset bytes => .dev (.stub kind) .write offset bytes.length bytes
  | .vdpRd offset n => .dev .vdp .read offset n []
  | .vdpStatus p => .portRead (controlOffset p) 2
  | .vdpWr offset bytes => .dev .vdp .write offset bytes.length bytes
  | .vdpWr16 offset b0 b1 => .logical offset (wordOf b0 b1)
  | .ctrlWr p b0 b1 => .ctrlPort (controlOffset p) (wordOf b0 b1)
  | .ctrlRegset index value => .ctrlWord (0b10#2 ++ index ++ value : BitVec 16)
  | .ctrlAddr1Cd00 addrLo => .ctrlWord (0b00#2 ++ addrLo : BitVec 16)
  | .ctrlAddr1Cd01 addrLo => .ctrlWord (0b01#2 ++ addrLo : BitVec 16)
  | .ctrlAddr1Cd11 addrLo => .ctrlWord (0b11#2 ++ addrLo : BitVec 16)
  | .ctrlAddr2 ignoredHi cdHi ignoredLo addrHi => .ctrlWord (ignoredHi ++ cdHi ++ ignoredLo ++ addrHi : BitVec 16)
  | .dataWr b0 b1 => .dataWord (wordOf b0 b1)
  | .vramWr16 a b0 b1 => .vramWord a (wordOf b0 b1)
  | .sysConstruct cfg => .construct cfg
  | .sysLoad data => .load data
  | .sysRun => .run
  | .hdrConsoleName => .header .consoleName
  | .hdrCopyright => .header .copyright
  | .hdrDomesticTitle => .header .domesticTitle
  | .hdrOverseasTitle => .header .overseasTitle
  | .hdrProductType => .header .productType
  | .hdrProductCode => .header .productCode
  | .hdrChecksum => .header .checksum
  | .hdrProgramStart => .header .programStart
  | .hdrProgramEnd => .header .programEnd
  | .hdrRamStart => .header .ramStart
  | .hdrRamEnd => .header .ramEnd
  | .hdrRegions => .header .regions
  | .spaceCollapse b => .spaceCollapse b
  | .regions => .regions
  | .checksum => .checksum

/-- The value of `write_pending` in which the encoded form is this operation (`state_condition` of the table): the
phase-2 command needs pending, every other control word idle, and no other form looks at it. -/
def phaseOf : Instr → Bool
  | .ctrlAddr2 _ _ _ _ => true
  | _ => false

/-! ## The opcode table's own words -/

/-- The big-endian bytes of the low `8 * k` bits of `w`, most significant first. -/
def bigEndianBytes : Nat → Nat → List Byte
  | 0, _ => []
  | k + 1, w => BitVec.ofNat 8 (w / 2 ^ (8 * k)) :: bigEndianBytes k w

/-- The raw form whose table bits are `w` (log entry 4). Rows of the table are patterns over different objects, so a
width and a word alone do not name one row: the row with fixed bits is taken first, then the first row of that width.
Operands to which the table gives no bits take the least admitted value (one byte to a bus read). -/
def tableRequest (nbits w : Nat) : Option Request :=
  if nbits = 0 then some (.construct Config.default)
  else if nbits = 16 then some (.ctrlWord (BitVec.ofNat 16 w))
  else if nbits = 24 then some .regions
  else if nbits = 32 then
    if isControlOffset (BitVec.ofNat 32 w) then some (.portRead (BitVec.ofNat 32 w) 2)
    else some (.txn .read (BitVec.ofNat 32 w) 1 [])
  else if nbits = 64 then some (.load (bigEndianBytes 8 w))
  else none

/-- What the decoder reads from a word of the opcode table, in the idle state (the state after reset). -/
def decodeTableWord (nbits w : Nat) : Option Instr :=
  match tableRequest nbits w with
  | none => none
  | some r =>
    match decode false r with
    | .ok i => some i
    | .error _ => none

end Sys2Proof
end

