-- ==== Sys2Proof/Machine/State.lean ====
section
/-! DEFINITION. The state tuple of R10, its configuration (R11), what the model adds to be run from outside (the
presented requests, the executor's moves, the answer of the last operation), and the state after reset (R25). -/

namespace Sys2Proof.Machine

/-- The content of a byte buffer: (offset, byte) pairs, offsets strictly rising, no byte equal to what an unlisted
offset reads as. -/
abbrev Memory := List Host.Cell

/-- A "fixed-size byte array, bounds-checked" (R22, R23, R124): its length and its content. -/
structure Buffer where
  size  : Nat
  cells : Memory
  deriving DecidableEq, Repr

/-- The VDP's six state elements (R150). -/
structure Vdp where
  registers    : Vector Byte 24
  status       : Half
  addressReg   : Half
  codeReg      : Half
  writePending : Bool
  vram         : Buffer
  deriving DecidableEq, Repr

/-- `cause` of UnsupportedOperation (R250, R253). -/
inductive Cause where
  | operationMismatch
  | unsupportedTarget
  | readNotSpecified
  deriving DecidableEq, Repr

/-- The error kinds (R250). An error is a result, not a stop: the operation ends in a next state that carries it. -/
inductive Err where
  | accessViolation (a : Addr)
  | shortWrite
  | endOfData
  | unsupportedOperation (cause : Cause)
  | rangeOverlap
  | invalidChecksum
  deriving DecidableEq, Repr

/-- The result of a read or a write (R71): the count, the bytes read (none of a write), and the error if any. -/
structure Xfer where
  count : Nat
  bytes : List Byte
  err   : Option Err
  deriving DecidableEq, Repr

/-- The country names of the region decode (R216). -/
inductive Region where
  | europe | japan | asia | brazil | france | hongKong
  deriving DecidableEq, Repr

/-- What the last operation returned to its caller. -/
inductive Response where
  /-- No operation has returned yet. -/
  | silent
  /-- `(count, bytes, err)` of a transaction (R71). -/
  | transfer (x : Xfer)
  /-- `Ok` of an operation that returns no count. -/
  | ok
  /-- An error of an operation that returns no count. -/
  | error (e : Err)
  /-- SYS.LOAD read fewer than 4 bytes of a reset vector word, without an error (R237, D22). -/
  | shortVector (count : Nat)
  /-- SYS.RUN returned the executor's own error (R238). -/
  | executorError
  /-- Values of the header software (R212, R213, R216). -/
  | text (b : List Byte)
  | word16 (v : Half)
  | word32 (v : BitVec 32)
  | regions (names : List Region)
  deriving DecidableEq, Repr

/-- One record of the trace log (R135, R136, D8). -/
inductive TraceRecord where
  | read (label : String) (offset : Addr) (n : Nat)
  | write (label : String) (offset : Addr) (bytes : List Byte)
  /-- The lifecycle lines (R136, R236). -/
  | reset
  | load
  | entry
  deriving DecidableEq, Repr

/-- How far the System has come: construction, the first Load, and what follows (R102, R233, R236, R237, R239). -/
inductive Boot where
  /-- Under construction: the constructor maps ranges one by one, and only now may it (R239; log entry 33). -/
  | building
  /-- Built, no ROM loaded yet. -/
  | constructed
  /-- A range overlapped another: "fatal at startup" (R102, R233, R255, R285). -/
  | fatal
  /-- The reset vector of the last SYS.LOAD could not be read: not runnable (R237, D22). -/
  | failed
  /-- Loaded: the stack pointer and program counter handed to the executor (R237). -/
  | loaded (sp pc : BitVec 32)
  deriving DecidableEq, Repr

/-- A move of the opaque CPU executor inside SYS.RUN (R238, R239). -/
inductive ExecutorMove where
  | read (addr : Addr) (n : Nat)
  | write (addr : Addr) (bytes : List Byte)
  /-- The executor signals termination. -/
  | terminate
  /-- The executor ends with an error of its own. -/
  | fail
  deriving DecidableEq, Repr

/-- "Configuration, not state" (R11): what the step relation has as its parameter. A construction and SYS.LOAD make the parameters anew;
between two of them they are constant. -/
structure Parameters where
  /-- The configuration the System was built with (R5, R11). -/
  cfg      : Config
  /-- The mapping table `T` (R100). -/
  table    : List Mapping
  deriving DecidableEq, Repr

/-- What a step changes: the state tuple of R10, how far the System has come, and the model's own last four fields. The comment
of each field names the rule that gives it. -/
structure Block where
  /-- `ram` (R23). -/
  ram      : Buffer
  /-- `rom.data` (R23, R124). -/
  rom      : Buffer
  /-- The VDP (R150). -/
  vdp      : Vdp
  /-- `trace_log` (R10, R136), oldest record first. -/
  traceLog : List TraceRecord
  /-- `halted` (R10, R262). -/
  halted   : Bool
  /-- The outputs of SYS.LOAD, or how far the System has come (R25, R233, R237, D22). -/
  boot     : Boot
  /-- SYS.RUN has started and not yet returned (R238). -/
  running  : Bool
  /-- What the last operation returned (R71). -/
  response : Response
  /-- Operations presented by the host and not yet served, oldest first. -/
  inbox    : List Request
  /-- The moves the executor will make, the next one first. -/
  executor : List ExecutorMove
  deriving DecidableEq, Repr

/-- The machine: the block under the parameters of its last construction or Load (R11; log entry 17). -/
structure State extends Parameters, Block
  deriving DecidableEq, Repr

/-- Why the machine stops. -/
inductive Fault where
  /-- Raised by every transaction and by SYS.RUN when `halted` is set (R263): "no transaction is accepted after the
  halt until SYS.LOAD". Safe: the machine stops. -/
  | halted
  /-- Raised by SYS.RUN when the last SYS.LOAD failed, "the System is not runnable" (D22), and while the System is still
  under construction (R285). Safe. -/
  | notRunnable
  /-- Raised after a RangeOverlap by everything but SYS.CONSTRUCT, which builds a System afresh, and the header software:
  "fatal at startup" (R233, R255, R285). Safe. -/
  | startupFailed
  deriving DecidableEq, Repr

/-- Why an operation has no meaning. -/
inductive Refusal where
  /-- Raised by an arm of exec whose operation has no meaning yet. Safe. -/
  | notModelled (mnemonic : String)
  /-- Raised by step when the raw form is no operation (R50, R70). Safe. -/
  | undecodable (why : DecodeError)
  /-- Raised by the meaning of an operation that is not admitted, by a read or write of no bytes (R50, D2), a MAP
  with a reversed range or a zero period (D3), a configuration that fails its check (R232). Safe. -/
  | illFormed (why : IllFormed)
  /-- Raised by MAP once the System is constructed: "remap after construction (other than Load's ROM mapping)" is no move of
  the host (R11, R236, R239). Safe. -/
  | remap
  /-- Raised by a header accessor, REGIONS or CHECKSUM on a ROM too short for the field (D25). Safe. -/
  | romTooShort
  deriving DecidableEq, Repr

/-- The outcome of one operation or step. -/
abbrev Result := Host.Outcome State Fault Refusal

/-- The VDP after reset (R25, D18, D19): `status` and VRAM at the parameters' values, the rest zero and idle. -/
def Vdp.reset (status : Half) (vram : Memory) : Vdp where
  registers := Vector.replicate 24 0x00#8
  status := status
  addressReg := 0x0000#16
  codeReg := 0x0000#16
  writePending := false
  vram := { size := vramSize, cells := vram }

/-- The machine right after reset: what SYS.CONSTRUCT with the default configuration leaves (R233, R25, R281); no ROM is
mapped, RAM and VRAM list nothing, nothing is presented and nothing has been returned. The trace sink is absent (log entry 35). -/
def State.reset : State where
  cfg := Config.default
  table := [⟨0xE00000#32, 0xFFFFFF#32, .mirror 0x10000#32 .ram⟩, ⟨0xC00000#32, 0xC0000F#32, .vdp⟩,
    ⟨0xA10000#32, 0xA10001#32, .stub (.const Config.versionByte)⟩,
    ⟨0xA11100#32, 0xA11101#32, .stub .noOp⟩, ⟨0xA11200#32, 0xA11201#32, .stub .noOp⟩]
  ram := { size := 0x10000, cells := [] }
  rom := { size := 0, cells := [] }
  vdp := Vdp.reset 0x0000#16 []
  traceLog := []
  halted := false
  boot := .constructed
  running := false
  response := .silent
  inbox := []
  executor := []

end Sys2Proof.Machine
end

