-- ==== Sys2Proof/Machine/Ops.lean ====
section
/-! DEFINITION. The shared operations: bytes of memory, bounds-checked buffers, the named updates of the state, raising
an error and the halt, and how a presented operation is fetched and retired. -/

namespace Sys2Proof.Machine

/-! ## Memory -/

/-- What an offset that a memory does not list reads as: the default 0x00 of RAM_INIT and VRAM_INIT (D19; log entry 6). -/
def Memory.unlisted (_a : Nat) : Byte := 0x00#8

/-- The canonical form: offsets strictly rising, no entry equal to what an unlisted offset reads as. -/
abbrev Memory.wf (m : Memory) : Prop :=
  m.Pairwise (fun c d => c.1 < d.1) ∧ ∀ c ∈ m, c.2 ≠ Memory.unlisted c.1

/-- The byte at an offset. -/
def Memory.byte : Memory → Nat → Byte
  | [], a => Memory.unlisted a
  | (k, v) :: m, a => if a = k then v else Memory.byte m a

/-- Store one byte; storing what an unlisted offset reads as removes the entry. -/
def Memory.put : Memory → Nat → Byte → Memory
  | [], a, v => if v = Memory.unlisted a then [] else [(a, v)]
  | (k, w) :: m, a, v =>
    if a < k then (if v = Memory.unlisted a then (k, w) :: m else (a, v) :: (k, w) :: m)
    else if a = k then (if v = Memory.unlisted a then m else (a, v) :: m)
    else (k, w) :: Memory.put m a v

/-- The `n` bytes from offset `a` up, lowest first (R44). -/
def Memory.slice (m : Memory) : Nat → Nat → List Byte
  | _, 0 => []
  | a, n + 1 => Memory.byte m a :: Memory.slice m (a + 1) n

/-- Store bytes from offset `a` up, the first at the lowest offset (R44). -/
def Memory.putAll : Memory → Nat → List Byte → Memory
  | m, _, [] => m
  | m, a, v :: vs => Memory.putAll (Memory.put m a v) (a + 1) vs

/-- The memory that holds the given bytes from offset `a` up and lists nothing else. -/
def Memory.fromBytes : Nat → List Byte → Memory
  | _, [] => []
  | a, v :: vs => if v = Memory.unlisted a then Memory.fromBytes (a + 1) vs else (a, v) :: Memory.fromBytes (a + 1) vs

/-! ## Buffers -/

/-- The buffer's content is canonical and lies inside it. -/
abbrev Buffer.wf (b : Buffer) : Prop := Memory.wf b.cells ∧ ∀ c ∈ b.cells, c.1 < b.size

/-- The byte at an offset of the buffer. -/
def Buffer.byte (b : Buffer) (a : Nat) : Byte := Memory.byte b.cells a

/-- The initial content of a buffer of `size` bytes from a parameter that lists its bytes (RAM_INIT, VRAM_INIT). -/
def initialCells (size : Nat) (init : List Byte) : Memory := Memory.fromBytes 0 (init.take size)

/-- The buffer whose bytes are exactly the given ones: a ROM's `data` (R124). -/
def Buffer.ofBytes (data : List Byte) : Buffer where
  size := data.length
  cells := Memory.fromBytes 0 data

/-! ## Errors: taking one, and the halt

An error is what this block has for an exception (R250, R258): `raise` ends the operation with the error and the count,
the changes made before it stay (R259), the pair goes unchanged to the caller, nothing is saved and no handler runs.
Under SYS.RUN the error also sets `halted` (R262). There is no return from an error: SYS.LOAD is the only recovery
(R263). -/

/-- `raise e with count c` (R8). -/
def Xfer.raise (e : Err) (count : Nat) : Xfer where
  count := count
  bytes := []
  err := some e

/-- `return Ok(c)` of a write (R8). -/
def Xfer.done (count : Nat) : Xfer where
  count := count
  bytes := []
  err := none

/-- `return Ok(c, bytes)` of a read (R8). -/
def Xfer.got (bytes : List Byte) : Xfer where
  count := bytes.length
  bytes := bytes
  err := none

/-- A bounds-checked read of `n` bytes at `off`: the error `outside` with count 0 when it starts outside, otherwise as
many bytes as there are up to the end, which is no error (R60, R121, R125). -/
def Buffer.load (b : Buffer) (outside : Err) (off n : Nat) : Xfer :=
  if b.size ≤ off then Xfer.raise outside 0
  else Xfer.got (Memory.slice b.cells off (min n (b.size - off)))

/-- A bounds-checked write at `off`: AccessViolation(off) with count 0 when it starts outside, otherwise the bytes that
fit are stored, and ShortWrite with their count when not all did (R60, R122, R126, R195; D6). -/
def Buffer.store (b : Buffer) (off : Nat) (v : List Byte) : Buffer × Xfer :=
  if b.size ≤ off then (b, Xfer.raise (.accessViolation (BitVec.ofNat 32 off)) 0)
  else
    let fits := min v.length (b.size - off)
    ({ b with cells := Memory.putAll b.cells off (v.take fits) },
      if fits < v.length then Xfer.raise .shortWrite fits else Xfer.done fits)

/-! ## Named updates of the state -/

/-- The same block under other parameters: only MAP on a System under construction, SYS.CONSTRUCT and SYS.LOAD do this (R11, R236). -/
def State.under (s : State) (p : Parameters) : State := { s with toParameters := p }

def State.withRam (s : State) (b : Buffer) : State := { s with ram := b }
def State.withRom (s : State) (b : Buffer) : State := { s with rom := b }
def State.withVdp (s : State) (v : Vdp) : State := { s with vdp := v }
def State.withBoot (s : State) (b : Boot) : State := { s with boot := b }

/-- Append records to the trace log, which only ever grows (R10, R136). -/
def State.trace (s : State) (rs : List TraceRecord) : State := { s with traceLog := s.traceLog ++ rs }

/-- Set what the operation returns to its caller. -/
def State.respond (s : State) (r : Response) : State := { s with response := r }

def State.withHalted (s : State) (h : Bool) : State := { s with halted := h }
def State.withRunning (s : State) (r : Bool) : State := { s with running := r }
def State.withExecutor (s : State) (e : List ExecutorMove) : State := { s with executor := e }
def State.withInbox (s : State) (q : List Request) : State := { s with inbox := q }

/-! ## Returning from an operation -/

/-- Return `(count, bytes, err)` to the caller (R71, R258). -/
def deliver (r : State × Xfer) : State := r.1.respond (.transfer r.2)

/-- Return `Ok`, or the error, of an operation that has no count. -/
def Response.ofErr : Option Err → Response
  | none => .ok
  | some e => .error e

/-- What transactions, port commands and SYS.RUN share: nothing is accepted after the halt (R263) nor after a range overlap, which
is fatal at startup (R233, R255, R285). DESIGN CHOICE (log entry 33): the spec calls a System whose SYS.LOAD failed "not runnable"
(D22) and says nothing of accesses from outside SYS.RUN; the model serves them, and likewise on a System still under construction. -/
def accepted (s : State) (r : Result) : Result :=
  if s.halted then .fault .halted
  else if s.boot = .fatal then .fault .startupFailed
  else r

/-- A transaction of `n` bytes: refused when it moves no bytes (R50, D2). Where it is accepted, and what is the model's choice in that: `accepted`. -/
def transaction (s : State) (n : Nat) (r : State × Xfer) : Result :=
  accepted s (if n = 0 then .refused (.illFormed .zeroLength) else .next (deliver r))

/-- A command at a VDP port, given the VDP it leaves and its error if any, under the same gate. -/
def command (s : State) (r : Vdp × Option Err) : Result :=
  accepted s (.next ((s.withVdp r.1).respond (Response.ofErr r.2)))

/-! ## Fetching and retiring a presented operation -/

/-- The oldest operation presented and not yet served. -/
def State.fetch (s : State) : Option Request := s.inbox.head?

/-- SYS.RUN stays in progress until the executor terminates or an error ends it (R238). -/
def instrInProgress (i : Instr) (s : State) : Bool :=
  match i with
  | .sysRun => s.running
  | _ => false

/-- After an operation: it leaves the queue, unless it is still in progress. -/
def State.retire (i : Instr) (s : State) : State :=
  if instrInProgress i s then s else s.withInbox s.inbox.tail

end Sys2Proof.Machine
end

