-- ==== Sys2Proof/Machine/Operands.lean ====
section
/-! DEFINITION. Operand forms and field positions: big-endian words, the port of an offset, range lookup, the Mirror's
fold, and the field writes of the control words. -/

namespace Sys2Proof.Machine

/-- `BE16(b0, b1)` (R7). -/
def be16 (b0 b1 : Byte) : Half := b0 ++ b1

/-- `BE32(b0, b1, b2, b3)` (R7). -/
def be32 (b0 b1 b2 b3 : Byte) : BitVec 32 := (b0 ++ b1) ++ (b2 ++ b3)

/-- The two bytes of a 16-bit value, most significant first (R7, R45). -/
def bytes16 (w : Half) : List Byte := [w.extractLsb' 8 8, w.extractLsb' 0 8]

/-- The two ports of the VDP (R150). -/
inductive Port where
  | data
  | control
  deriving DecidableEq, Repr

/-- `Port(off)` over the offset as a mathematical integer (R61, R74, R150). -/
def portOf (off : Nat) : Option Port :=
  if off = 0x00 ∨ off = 0x02 then some .data
  else if off = 0x04 ∨ off = 0x06 then some .control
  else none

/-- The mapping's range contains the address (R73, R103). -/
def mappingContains (m : Mapping) (addr : Addr) : Bool := m.first ≤ addr && addr ≤ m.last

/-- `Lookup(addr)` (R103). -/
def lookup (table : List Mapping) (addr : Addr) : Option Mapping := table.find? (fun m => mappingContains m addr)

/-- `offset = addr - range.start` (R58). -/
def offsetIn (m : Mapping) (addr : Addr) : Addr := addr - m.first

/-- `offset mod period`, the unsigned remainder (R59, R132). -/
def foldOffset (offset period : Addr) : Addr := offset % period

/-- `code_reg[1:0] <- cd` (R77, R172; D14). -/
def codePhase1 (code : Half) (cd : BitVec 2) : Half := (code.extractLsb' 2 14 ++ cd : BitVec 16)

/-- `address_reg[13:0] <- addr_lo` (R77, R172; D14). -/
def addressPhase1 (address : Half) (addrLo : BitVec 14) : Half := (address.extractLsb' 14 2 ++ addrLo : BitVec 16)

/-- `code_reg[5:2] <- cd_hi` (R78, R173; D15). -/
def codePhase2 (code : Half) (cdHi : BitVec 4) : Half :=
  (code.extractLsb' 6 10 ++ cdHi ++ code.extractLsb' 0 2 : BitVec 16)

/-- `address_reg[15:14] <- addr_hi` (R78, R173; D15). -/
def addressPhase2 (address : Half) (addrHi : BitVec 2) : Half := (addrHi ++ address.extractLsb' 0 14 : BitVec 16)

/-- The big-endian word of four bytes; nothing when there are not exactly four. -/
def be32Of : List Byte → Option (BitVec 32)
  | [b0, b1, b2, b3] => some (be32 b0 b1 b2 b3)
  | _ => none

/-- The big-endian word of two bytes; nothing when there are not exactly two. -/
def be16Of : List Byte → Option Half
  | [b0, b1] => some (be16 b0 b1)
  | _ => none

end Sys2Proof.Machine
end

