-- ==== Sys2Proof/Machine/Flags.lean ====
section
/-! DEFINITION. The tests on the state that select what a port write does: the register-select pattern, the write-operation
select and the target select (R81, R170, R191). -/

namespace Sys2Proof.Machine

/-- `b0[7:6] = 0b10`, the register-select pattern (R76, R170). -/
def isRegisterSelect (b0 : Byte) : Bool := b0.extractLsb' 6 2 == 0b10#2

/-- `code_reg[0] = 1`, a write operation is selected (R81, R191). -/
def writeSelected (code : Half) : Bool := code.extractLsb' 0 1 == 1#1

/-- `(code_reg AND 0x000E) = 0`, the target is VRAM (R81, R191). -/
def vramSelected (code : Half) : Bool := code &&& 0x000E#16 == 0x0000#16

end Sys2Proof.Machine
end

