-- ==== Sys2Proof/Machine/Storage.lean ====
section
/-! DEFINITION. The storage devices and the stubs as primitives (41_storage_devices.md), and the meanings of the RAM, ROM
and stub operations. The Mirror and the Tracer wrap another device: Machine/Bus.lean. -/

namespace Sys2Proof.Machine

/-! ## Primitives -/

/-- RAM.RD (R121). -/
def ramRead (offset : Addr) (n : Nat) (s : State) : State × Xfer :=
  (s, s.ram.load (.accessViolation offset) offset.toNat n)

/-- RAM.WR (R122). -/
def ramWrite (offset : Addr) (v : List Byte) (s : State) : State × Xfer :=
  (s.withRam (s.ram.store offset.toNat v).1, (s.ram.store offset.toNat v).2)

/-- ROM.RD (R125): outside the data a read is EndOfData. -/
def romRead (offset : Addr) (n : Nat) (s : State) : State × Xfer :=
  (s, s.rom.load .endOfData offset.toNat n)

/-- ROM.WR (R126): outside the data a write is AccessViolation(offset). -/
def romWrite (offset : Addr) (v : List Byte) (s : State) : State × Xfer :=
  (s.withRom (s.rom.store offset.toNat v).1, (s.rom.store offset.toNat v).2)

/-- STUB.RD (R139): `n` copies of the stub's byte. -/
def stubRead (kind : Stub) (n : Nat) : Xfer :=
  match kind with
  | .const k => Xfer.got (List.replicate n k)
  | .noOp => Xfer.got (List.replicate n 0x00#8)

/-- STUB.WR (R139): the payload is discarded. -/
def stubWrite (v : List Byte) : Xfer := Xfer.done v.length

/-! ## Meanings -/

def execRamRd (offset : Addr) (n : Nat) (s : State) : Result := transaction s n (ramRead offset n s)

def execRamWr (offset : Addr) (bytes : List Byte) (s : State) : Result :=
  transaction s bytes.length (ramWrite offset bytes s)

def execRomRd (offset : Addr) (n : Nat) (s : State) : Result := transaction s n (romRead offset n s)

def execRomWr (offset : Addr) (bytes : List Byte) (s : State) : Result :=
  transaction s bytes.length (romWrite offset bytes s)

/-- A stub accepts every offset (R139). -/
def execStubRd (kind : Stub) (_offset : Addr) (n : Nat) (s : State) : Result := transaction s n (s, stubRead kind n)

def execStubWr (_kind : Stub) (_offset : Addr) (bytes : List Byte) (s : State) : Result :=
  transaction s bytes.length (s, stubWrite bytes)

end Sys2Proof.Machine
end

