-- ==== Sys2Proof/Machine/Vdp.lean ====
section
/-! DEFINITION. The VDP: the control-port state machine (43_vdp_control.md), the data port and the VRAM multiplexer
(44_vdp_data_vram.md), the ports and the write-length normalisation (42_vdp_ports.md), and the meanings of those
operations. The primitives act on the VDP alone: nothing else of the machine is in their reach (R150). -/

namespace Sys2Proof.Machine

/-! ## The control port -/

/-- CTRL.REGSET (R171): `x[index] <- value` when the register exists, otherwise nothing (D12). -/
def Vdp.regset (index : BitVec 6) (value : Byte) (v : Vdp) : Vdp :=
  if h : index.toNat < 24 then { v with registers := v.registers.set index.toNat value h } else v

/-- CTRL.ADDR1 (R172). -/
def Vdp.addr1 (cd : BitVec 2) (addrLo : BitVec 14) (v : Vdp) : Vdp :=
  { v with
    codeReg := codePhase1 v.codeReg cd
    addressReg := addressPhase1 v.addressReg addrLo
    writePending := true }

/-- CTRL.ADDR2 (R173). -/
def Vdp.addr2 (cdHi : BitVec 4) (addrHi : BitVec 2) (v : Vdp) : Vdp :=
  { v with
    codeReg := codePhase2 v.codeReg cdHi
    addressReg := addressPhase2 v.addressReg addrHi
    writePending := false }

/-- CTRL.WR (R170): in idle the register-select pattern is tested, in pending it is not. It never fails. -/
def Vdp.ctrlWrite (b0 b1 : Byte) (v : Vdp) : Vdp :=
  if v.writePending then v.addr2 (b1.extractLsb' 4 4) (b1.extractLsb' 0 2)
  else if isRegisterSelect b0 then v.regset (b0.extractLsb' 0 6) b1
  else v.addr1 (b0.extractLsb' 6 2) (b0.extractLsb' 0 6 ++ b1)

/-! ## The data port -/

/-- VRAM.WR16 (R194): `b0` at `a`, `b1` at `a + 1`, no wrap; the bounds rule is the buffer's (R195). -/
def Vdp.vramWrite16 (a : Half) (b0 b1 : Byte) (v : Vdp) : Vdp × Option Err :=
  ({ v with vram := (v.vram.store a.toNat [b0, b1]).1 }, (v.vram.store a.toNat [b0, b1]).2.err)

/-- DATA.WR (R191): mode test, clear `write_pending`, target test, store (D16). -/
def Vdp.dataWrite (b0 b1 : Byte) (v : Vdp) : Vdp × Option Err :=
  if writeSelected v.codeReg then
    let idle := { v with writePending := false }
    if vramSelected v.codeReg then idle.vramWrite16 v.addressReg b0 b1
    else (idle, some (.unsupportedOperation .unsupportedTarget))
  else (v, some (.unsupportedOperation .operationMismatch))

/-! ## Ports -/

/-- VDP.STATUS (R152). -/
def Vdp.statusRead (v : Vdp) : Vdp × Xfer := ({ v with writePending := false }, Xfer.got (bytes16 v.status))

/-- VDP.RD (R151, R153): the offset test, then the port and length test. -/
def Vdp.read (offset : Addr) (n : Nat) (v : Vdp) : Vdp × Xfer :=
  match portOf offset.toNat with
  | none => (v, Xfer.raise (.accessViolation offset) 0)
  | some .control =>
    if n = 2 then v.statusRead else (v, Xfer.raise (.unsupportedOperation .readNotSpecified) 0)
  | some .data => (v, Xfer.raise (.unsupportedOperation .readNotSpecified) 0)

/-- VDP.WR16 (R156, R157): one logical write at the offset `off`, a mathematical integer (R61). -/
def Vdp.write16 (off : Nat) (b0 b1 : Byte) (v : Vdp) : Vdp × Option Err :=
  match portOf off with
  | some .data => v.dataWrite b0 b1
  | some .control => (v.ctrlWrite b0 b1, none)
  | none => (v, some (.accessViolation (BitVec.ofNat 32 off)))

/-- VDP.WR (R154, R155) from the byte count `consumed` on: pairs of bytes are logical writes, a last byte alone is
duplicated, and the first error ends the transaction with the bytes consumed by the completed ones. -/
def Vdp.writeFrom (offset : Nat) : Nat → List Byte → Vdp → Vdp × Xfer
  | consumed, [], v => (v, Xfer.done consumed)
  | consumed, [b], v =>
    match v.write16 (offset + consumed) b b with
    | (v', some e) => (v', Xfer.raise e consumed)
    | (v', none) => (v', Xfer.done (consumed + 1))
  | consumed, b0 :: b1 :: rest, v =>
    match v.write16 (offset + consumed) b0 b1 with
    | (v', some e) => (v', Xfer.raise e consumed)
    | (v', none) => Vdp.writeFrom offset (consumed + 2) rest v'

/-- VDP.WR (R154). -/
def Vdp.write (offset : Addr) (bytes : List Byte) (v : Vdp) : Vdp × Xfer := Vdp.writeFrom offset.toNat 0 bytes v

/-- A read at the VDP as a device of the System. -/
def vdpRead (offset : Addr) (n : Nat) (s : State) : State × Xfer :=
  (s.withVdp (s.vdp.read offset n).1, (s.vdp.read offset n).2)

/-- A write at the VDP as a device of the System. -/
def vdpWrite (offset : Addr) (bytes : List Byte) (s : State) : State × Xfer :=
  (s.withVdp (s.vdp.write offset bytes).1, (s.vdp.write offset bytes).2)

/-! ## Meanings -/

def execVdpRd (offset : Addr) (n : Nat) (s : State) : Result := transaction s n (vdpRead offset n s)

/-- The don't-care offset bit has no effect: 0x04 and 0x06 are the same port (R74). -/
def execVdpStatus (_p : BitVec 1) (s : State) : Result :=
  transaction s 2 (s.withVdp s.vdp.statusRead.1, s.vdp.statusRead.2)

def execVdpWr (offset : Addr) (bytes : List Byte) (s : State) : Result :=
  transaction s bytes.length (vdpWrite offset bytes s)

def execVdpWr16 (offset : Addr) (b0 b1 : Byte) (s : State) : Result := command s (s.vdp.write16 offset.toNat b0 b1)

def execCtrlWr (_p : BitVec 1) (b0 b1 : Byte) (s : State) : Result := command s (s.vdp.ctrlWrite b0 b1, none)

def execCtrlRegset (index : BitVec 6) (value : Byte) (s : State) : Result := command s (s.vdp.regset index value, none)

def execCtrlAddr1Cd00 (addrLo : BitVec 14) (s : State) : Result := command s (s.vdp.addr1 0b00#2 addrLo, none)

def execCtrlAddr1Cd01 (addrLo : BitVec 14) (s : State) : Result := command s (s.vdp.addr1 0b01#2 addrLo, none)

def execCtrlAddr1Cd11 (addrLo : BitVec 14) (s : State) : Result := command s (s.vdp.addr1 0b11#2 addrLo, none)

/-- `b0` and `b1[3:2]` are ignored (R173, D15). -/
def execCtrlAddr2 (_ignoredHi : Byte) (cdHi : BitVec 4) (_ignoredLo : BitVec 2) (addrHi : BitVec 2) (s : State) :
    Result :=
  command s (s.vdp.addr2 cdHi addrHi, none)

def execDataWr (b0 b1 : Byte) (s : State) : Result := command s (s.vdp.dataWrite b0 b1)

def execVramWr16 (a : Half) (b0 b1 : Byte) (s : State) : Result := command s (s.vdp.vramWrite16 a b0 b1)

end Sys2Proof.Machine
end

