-- ==== Sys2Proof/Machine/Bus.lean ====
section
/-! DEFINITION. The Device contract over every kind of device, with the Mirror and the Tracer (R120, R132, R135), and the
address bus: MAP, the lookup, BUS.RD and BUS.WR (40_bus_mapper.md). -/

namespace Sys2Proof.Machine

/-! ## The Device contract -/

/-- The record goes to `trace_log` (R10), when the Tracer has a sink (R135). DESIGN CHOICE (log entry 36): `sink` is the Tracer's OWN flag (R11) alone;
TRACE_SINK (R5), which the spec does not relate to it, is not consulted. -/
def traceIf (sink : Bool) (r : TraceRecord) (s : State) : State := if sink then s.trace [r] else s

/-- `DevRead(d, off, n)` (R8, R120): dispatch on the kind of the device. -/
def devRead : Device → Addr → Nat → State → State × Xfer
  | .ram, offset, n, s => ramRead offset n s
  | .rom, offset, n, s => romRead offset n s
  | .vdp, offset, n, s => vdpRead offset n s
  | .stub kind, _, n, s => (s, stubRead kind n)
  | .mirror period inner, offset, n, s => devRead inner (foldOffset offset period) n s
  | .tracer label sink inner, offset, n, s => devRead inner offset n (traceIf sink (.read label offset n) s)

/-- `DevWrite(d, off, v)` (R8, R120). -/
def devWrite : Device → Addr → List Byte → State → State × Xfer
  | .ram, offset, v, s => ramWrite offset v s
  | .rom, offset, v, s => romWrite offset v s
  | .vdp, offset, v, s => vdpWrite offset v s
  | .stub _, _, v, s => (s, stubWrite v)
  | .mirror period inner, offset, v, s => devWrite inner (foldOffset offset period) v s
  | .tracer label sink inner, offset, v, s => devWrite inner offset v (traceIf sink (.write label offset v) s)

/-! ## The bus -/

/-- MAP's table step (R102): nothing when the new range intersects an existing one. -/
def mapRange (table : List Mapping) (m : Mapping) : Option (List Mapping) :=
  if table.any (fun k => m.overlaps k) then none else some (table ++ [m])

/-- `MemRead(addr, n)` (R104): the whole access goes to the device that owns its first byte. -/
def busRead (addr : Addr) (n : Nat) (s : State) : State × Xfer :=
  match lookup s.table addr with
  | none => (s, Xfer.raise (.accessViolation addr) 0)
  | some m => devRead m.device (offsetIn m addr) n s

/-- `MemWrite(addr, n, v)` (R105). -/
def busWrite (addr : Addr) (v : List Byte) (s : State) : State × Xfer :=
  match lookup s.table addr with
  | none => (s, Xfer.raise (.accessViolation addr) 0)
  | some m => devWrite m.device (offsetIn m addr) v s

/-! ## Meanings -/

/-- MAP's effect on a System under construction (R102): a RangeOverlap leaves the table as it was and is fatal. -/
def mapInto (device : Device) (first last : Addr) (s : State) : Result :=
  if last < first then .refused (.illFormed .reversedRange)
  else if device.wf then
    match mapRange s.table ⟨first, last, device⟩ with
    | none => .next ((s.withBoot .fatal).respond (.error .rangeOverlap))
    | some table => .next ((s.under ⟨s.cfg, table⟩).respond .ok)
  else .refused (.illFormed .zeroPeriod)

/-- MAP (R102): "a construction-time operation of the host, not reachable from the bus". Once the System is constructed the host does
not remap (R11, R236, R239). -/
def execMap (device : Device) (first last : Addr) (s : State) : Result :=
  if s.boot = .building then mapInto device first last s
  else if s.boot = .fatal then .fault .startupFailed
  else .refused .remap

def execBusRd (addr : Addr) (n : Nat) (s : State) : Result := transaction s n (busRead addr n s)

def execBusWr (addr : Addr) (bytes : List Byte) (s : State) : Result :=
  transaction s bytes.length (busWrite addr bytes s)

/-- An operation on a device tree that has a Mirror of period 0 is not admitted (D3); a transaction that is not accepted for
another reason stops for that one. -/
def onDevice (device : Device) (o : Result) : Result :=
  match o with
  | .next t => if device.wf then .next t else .refused (.illFormed .zeroPeriod)
  | .fault f => .fault f
  | .refused why => .refused why

def execMirRd (period : Addr) (inner : Device) (offset : Addr) (n : Nat) (s : State) : Result :=
  onDevice (.mirror period inner) (transaction s n (devRead (.mirror period inner) offset n s))

def execMirWr (period : Addr) (inner : Device) (offset : Addr) (bytes : List Byte) (s : State) : Result :=
  onDevice (.mirror period inner) (transaction s bytes.length (devWrite (.mirror period inner) offset bytes s))

def execTrcRd (label : String) (sink : Bool) (inner : Device) (offset : Addr) (n : Nat) (s : State) : Result :=
  onDevice inner (transaction s n (devRead (.tracer label sink inner) offset n s))

def execTrcWr (label : String) (sink : Bool) (inner : Device) (offset : Addr) (bytes : List Byte) (s : State) :
    Result :=
  onDevice inner (transaction s bytes.length (devWrite (.tracer label sink inner) offset bytes s))

end Sys2Proof.Machine
end

