-- ==== Sys2Proof/Machine/System.lean ====
section
/-! DEFINITION. The System: its map, SYS.CONSTRUCT, SYS.LOAD with the reset vector, and SYS.RUN (46_system.md). -/

namespace Sys2Proof.Machine

/-! ## Composition -/

/-- A device of the map, wrapped in a Tracer when the configuration gives it a label (R231);
that its sink flag is then TRACE_SINK is the model's choice (log entry 36). -/
def tracedDevice (label : Option String) (sink : Bool) (d : Device) : Device :=
  match label with
  | none => d
  | some l => .tracer l sink d

/-- The mappings SYS.CONSTRUCT registers, in its order (R231, R233). -/
def systemMap (c : Config) : List Mapping :=
  ⟨c.ramFirst, c.ramLast, tracedDevice c.ramTracer c.traceSink (.mirror c.ramSize .ram)⟩
    :: ⟨c.vdpBase, c.vdpBase + BitVec.ofNat 32 (c.vdpWindow - 1), tracedDevice c.vdpTracer c.traceSink .vdp⟩
    :: c.stubs

/-- The cartridge mapping SYS.LOAD installs (R231, R236). -/
def romMapping (c : Config) : Mapping := ⟨romFirst, romLast, tracedDevice c.romTracer c.traceSink .rom⟩

/-- MAP of each mapping in turn; `false` with the table so far when one collides. -/
def mapAll : List Mapping → List Mapping → List Mapping × Bool
  | table, [] => (table, true)
  | table, m :: ms =>
    match mapRange table m with
    | none => (table, false)
    | some table' => mapAll table' ms

/-- "All device state <- reset values" (R25, D18, D19, D20): the VDP's six elements and RAM. -/
def resetDevices (c : Config) (s : State) : State :=
  (s.withVdp (Vdp.reset c.statusReset (initialCells vramSize c.vramInit))).withRam
    { size := c.ramSize.toNat, cells := initialCells c.ramSize.toNat c.ramInit }

/-! ## SYS.CONSTRUCT -/

/-- The state SYS.CONSTRUCT leaves when no range collides (R233, R281): no ROM is mapped and none is held. -/
def constructed (c : Config) (table : List Mapping) (s : State) : State :=
  ((((((resetDevices c s).under ⟨c, table⟩).withRom (Buffer.ofBytes [])).withBoot .constructed).withHalted
    false).withRunning false).respond .ok

/-- SYS.CONSTRUCT (R233), which builds the System anew whatever stood before. A collision is RangeOverlap, "fatal at startup".
DESIGN CHOICE (log entry 15): the spec does not say what a failed construction holds; the model holds the NEW configuration with
its RAM and its other devices fresh, and the mappings made before the collision. Nothing but the header software, which finds an
empty ROM, is accepted on it. -/
def execSysConstruct (c : Config) (s : State) : Result :=
  match c.check with
  | some why => .refused (.illFormed why)
  | none =>
    match mapAll [] (systemMap c) with
    | (table, true) => .next (constructed c table s)
    | (table, false) => .next (((constructed c table s).withBoot .fatal).respond (.error .rangeOverlap))

/-! ## SYS.LOAD -/

/-- One word of the reset vector: an error, fewer than 4 bytes (D22), or the word (R237). -/
def vectorWord (x : Xfer) : Except Response (BitVec 32) :=
  match x.err with
  | some e => .error (.error e)
  | none =>
    match be32Of x.bytes with
    | some w => .ok w
    | none => .error (.shortVector x.count)

/-- `ResetVector()` (R237): two bus reads, the stack pointer from 0 and the program counter from 4 (D21). -/
def resetVector (s : State) : State × Except Response (BitVec 32 × BitVec 32) :=
  let r0 := busRead 0x000000#32 4 s
  match vectorWord r0.2 with
  | .error e => (r0.1, .error e)
  | .ok sp =>
    let r1 := busRead 0x000004#32 4 r0.1
    match vectorWord r1.2 with
    | .error e => (r1.1, .error e)
    | .ok pc => (r1.1, .ok (sp, pc))

/-- The mapping stands at ROM_WINDOW (R236, D20). -/
def atRomWindow (m : Mapping) : Bool := m.first == romFirst && m.last == romLast

/-- The lifecycle lines SYS.LOAD appends when the trace sink is present (R236). -/
def lifecycleLines (c : Config) : List TraceRecord := if c.traceSink then [.reset, .load, .entry] else []

/-- SYS.LOAD up to the MAP of the new ROM: device state reset, the old cartridge mapping removed (R236). -/
def loadPrepared (data : List Byte) (s : State) : State :=
  (((resetDevices s.cfg s).withRom (Buffer.ofBytes data)).under ⟨s.cfg, s.table.filter (fun m => !atRomWindow m)⟩).withRunning
    false

/-- SYS.LOAD's effect (R236, R237). A range that meets ROM_WINDOW, which SYS.CONSTRUCT never maps (R232), is a construction error and
fatal; a reset vector that cannot be read leaves a System that is not runnable (D22). Either leaves what was done before it (R8; log
entry 34). -/
def loadRom (data : List Byte) (s : State) : State :=
  let s1 := loadPrepared data s
  match mapRange s1.table (romMapping s.cfg) with
  | none => (s1.withBoot .fatal).respond (.error .rangeOverlap)
  | some table =>
    match resetVector ((s1.under ⟨s.cfg, table⟩).withHalted false) with
    | (s2, .error e) => (s2.withBoot .failed).respond e
    | (s2, .ok (sp, pc)) => ((s2.withBoot (.loaded sp pc)).trace (lifecycleLines s.cfg)).respond .ok

/-- SYS.LOAD (R236): it ends the halt (R263) but does not mend a failed construction, which is fatal (R233, R285). -/
def execSysLoad (data : List Byte) (s : State) : Result :=
  if s.boot = .fatal then .fault .startupFailed else .next (loadRom data s)

/-! ## SYS.RUN -/

/-- After one transaction of the executor: an error halts the System and ends Run with that error, otherwise Run goes
on (R238, R262). -/
def runAccess (r : State × Xfer) : State :=
  ((deliver r).withHalted r.2.err.isSome).withRunning r.2.err.isNone

/-- One turn of SYS.RUN's loop on the executor's next move (R238). With no move left the executor makes a step that issues
no access, and Run goes on. -/
def runTurn (s : State) : Result :=
  match s.executor with
  | [] => .next (s.withRunning true)
  | .terminate :: rest => .next (((s.withExecutor rest).withRunning false).respond .ok)
  | .fail :: rest => .next ((((s.withExecutor rest).withHalted true).withRunning false).respond .executorError)
  | .read addr n :: rest =>
    if n = 0 then .refused (.illFormed .zeroLength) else .next (runAccess (busRead addr n (s.withExecutor rest)))
  | .write addr v :: rest =>
    if v.length = 0 then .refused (.illFormed .zeroLength)
    else .next (runAccess (busWrite addr v (s.withExecutor rest)))

/-- SYS.RUN can drive the executor on a System that was constructed or loaded (R285, D22; log entry 16). -/
def runnable : Boot → Bool
  | .constructed | .loaded _ _ => true
  | .building | .fatal | .failed => false

/-- SYS.RUN (R238): not accepted when halted (R263), nor when the System is not runnable (D22). -/
def execSysRun (s : State) : Result :=
  accepted s (if runnable s.boot then runTurn s else .fault .notRunnable)

end Sys2Proof.Machine
end

