-- ==== Sys2Proof/Machine/Header.lean ====
section
/-! DEFINITION. The ROM header software (45_rom_header_software.md): the accessors, space collapse, region decode and
checksum. They read `rom.data` as it is at the call (R210), write no state, and are calls of the host. -/

namespace Sys2Proof.Machine

/-! ## Reading the ROM -/

/-- `width` bytes of `rom.data` from `first` up; nothing when the ROM does not hold them all (D25). -/
def headerBytes (first width : Nat) (s : State) : Option (List Byte) :=
  if first + width ≤ s.rom.size then some (Memory.slice s.rom.cells first width) else none

/-- Answer with a value of the software, or refuse on a ROM too short for the field (D25). -/
def answer (s : State) (v : Option Response) : Result :=
  match v with
  | none => .refused .romTooShort
  | some r => .next (s.respond r)

/-! ## The functions -/

/-- SPACECOLLAPSE (R213): a space followed by a space is dropped. -/
def collapse : List Byte → List Byte
  | [] => []
  | b :: rest => if b = 0x20#8 ∧ rest.head? = some 0x20#8 then collapse rest else b :: collapse rest

/-- The region-code table (R216); a byte without an entry is skipped. -/
def regionOf (c : Byte) : Option Region :=
  if c = 0x45#8 then some .europe
  else if c = 0x4A#8 then some .japan
  else if c = 0x41#8 then some .asia
  else if c = 0x42#8 ∨ c = 0x04#8 then some .brazil
  else if c = 0x46#8 then some .france
  else if c = 0x08#8 then some .hongKong
  else none

/-- REGIONS (R216): in byte order, duplicates and all. -/
def regionNames (b : List Byte) : List Region := b.filterMap regionOf

/-- The sum of the big-endian 16-bit words of a byte string, modulo 0x10000; an odd last byte is in no word (R62, R219,
D26). -/
def wordSum : List Byte → Half
  | b0 :: b1 :: rest => be16 b0 b1 + wordSum rest
  | _ => 0

/-- The bytes CHECKSUM sums: from 0x200 to the end (R219). -/
def summedBytes (rom : Buffer) : List Byte := Memory.slice rom.cells 0x200 (rom.size - 0x200)

/-- CHECKSUM (R219): `Ok`, or InvalidChecksum. -/
def checksumResponse (stored : Half) (rom : Buffer) : Response :=
  if wordSum (summedBytes rom) = stored then .ok else .error .invalidChecksum

/-! ## The three decodes of the field table (R211) -/

def collapsedField (first width : Nat) (s : State) : Option Response :=
  (headerBytes first width s).map (fun b => .text (collapse b))

def plainField (first width : Nat) (s : State) : Option Response := (headerBytes first width s).map .text

def word32Field (first : Nat) (s : State) : Option Response :=
  ((headerBytes first 4 s).bind be32Of).map .word32

/-- The checksum field, `BE16(data[0x18E], data[0x18F])`. -/
def storedChecksum (s : State) : Option Half := (headerBytes 0x18E 2 s).bind be16Of

def regionField (s : State) : Option Response := (headerBytes 0x1F0 3 s).map (fun b => .regions (regionNames b))

/-! ## Meanings -/

def execHdrConsoleName (s : State) : Result := answer s (collapsedField 0x100 16 s)
def execHdrCopyright (s : State) : Result := answer s (collapsedField 0x110 16 s)
def execHdrDomesticTitle (s : State) : Result := answer s (collapsedField 0x120 48 s)
def execHdrOverseasTitle (s : State) : Result := answer s (collapsedField 0x150 48 s)
def execHdrProductType (s : State) : Result := answer s (plainField 0x180 2 s)
def execHdrProductCode (s : State) : Result := answer s (plainField 0x182 12 s)
def execHdrChecksum (s : State) : Result := answer s ((storedChecksum s).map .word16)
def execHdrProgramStart (s : State) : Result := answer s (word32Field 0x1A0 s)
def execHdrProgramEnd (s : State) : Result := answer s (word32Field 0x1A4 s)
def execHdrRamStart (s : State) : Result := answer s (word32Field 0x1A8 s)
def execHdrRamEnd (s : State) : Result := answer s (word32Field 0x1AC s)
def execHdrRegions (s : State) : Result := answer s (regionField s)
def execSpaceCollapse (b : List Byte) (s : State) : Result := answer s (some (.text (collapse b)))
def execRegions (s : State) : Result := answer s (regionField s)
def execChecksum (s : State) : Result := answer s ((storedChecksum s).map (fun c => checksumResponse c s.rom))

/-! ## The ROM bytes of a table word -/

/-- The ROM with the 24 bits of the REGIONS row of the opcode table at 0x1F0 to 0x1F2 (its pattern is over those bytes),
lengthened to hold them when it is shorter. -/
def romWithRegionBytes (w : Nat) (rom : Buffer) : Buffer where
  size := max rom.size 0x1F3
  cells := Memory.putAll rom.cells 0x1F0 (bigEndianBytes 3 w)

/-- Present the operation of a table word (log entry 4): it stands first in the queue; the REGIONS row's bits are ROM
bytes, so that row's word is placed in the ROM too. -/
def presentTableWord (s : State) (nbits w : Nat) : State :=
  match tableRequest nbits w with
  | none => s
  | some r =>
    let s1 := if nbits = 24 then s.withRom (romWithRegionBytes w s.rom) else s
    s1.withInbox (r :: s1.inbox)

end Sys2Proof.Machine
end

