-- ==== Sys2Proof/Machine/Dispatch.lean ====
section
/-! DEFINITION. One arm per operation. -/

namespace Sys2Proof.Machine

def exec (i : Instr) (s : State) : Host.Outcome State Fault Refusal :=
  match i with
  -- bus
  | .map device first last => Sys2Proof.Machine.execMap device first last s
  | .busRd addr n => Sys2Proof.Machine.execBusRd addr n s
  | .busWr addr bytes => Sys2Proof.Machine.execBusWr addr bytes s
  -- storage devices
  | .ramRd offset n => Sys2Proof.Machine.execRamRd offset n s
  | .ramWr offset bytes => Sys2Proof.Machine.execRamWr offset bytes s
  | .romRd offset n => Sys2Proof.Machine.execRomRd offset n s
  | .romWr offset bytes => Sys2Proof.Machine.execRomWr offset bytes s
  | .mirRd period inner offset n => Sys2Proof.Machine.execMirRd period inner offset n s
  | .mirWr period inner offset bytes => Sys2Proof.Machine.execMirWr period inner offset bytes s
  | .trcRd label sink inner offset n => Sys2Proof.Machine.execTrcRd label sink inner offset n s
  | .trcWr label sink inner offset bytes => Sys2Proof.Machine.execTrcWr label sink inner offset bytes s
  | .stubRd kind offset n => Sys2Proof.Machine.execStubRd kind offset n s
  | .stubWr kind offset bytes => Sys2Proof.Machine.execStubWr kind offset bytes s
  -- VDP ports
  | .vdpRd offset n => Sys2Proof.Machine.execVdpRd offset n s
  | .vdpStatus p => Sys2Proof.Machine.execVdpStatus p s
  | .vdpWr offset bytes => Sys2Proof.Machine.execVdpWr offset bytes s
  | .vdpWr16 offset b0 b1 => Sys2Proof.Machine.execVdpWr16 offset b0 b1 s
  -- control port
  | .ctrlWr p b0 b1 => Sys2Proof.Machine.execCtrlWr p b0 b1 s
  | .ctrlRegset index value => Sys2Proof.Machine.execCtrlRegset index value s
  | .ctrlAddr1Cd00 addrLo => Sys2Proof.Machine.execCtrlAddr1Cd00 addrLo s
  | .ctrlAddr1Cd01 addrLo => Sys2Proof.Machine.execCtrlAddr1Cd01 addrLo s
  | .ctrlAddr1Cd11 addrLo => Sys2Proof.Machine.execCtrlAddr1Cd11 addrLo s
  | .ctrlAddr2 ignoredHi cdHi ignoredLo addrHi => Sys2Proof.Machine.execCtrlAddr2 ignoredHi cdHi ignoredLo addrHi s
  -- data port
  | .dataWr b0 b1 => Sys2Proof.Machine.execDataWr b0 b1 s
  | .vramWr16 a b0 b1 => Sys2Proof.Machine.execVramWr16 a b0 b1 s
  -- host operations
  | .sysConstruct cfg => Sys2Proof.Machine.execSysConstruct cfg s
  | .sysLoad data => Sys2Proof.Machine.execSysLoad data s
  | .sysRun => Sys2Proof.Machine.execSysRun s
  -- ROM header software
  | .hdrConsoleName => Sys2Proof.Machine.execHdrConsoleName s
  | .hdrCopyright => Sys2Proof.Machine.execHdrCopyright s
  | .hdrDomesticTitle => Sys2Proof.Machine.execHdrDomesticTitle s
  | .hdrOverseasTitle => Sys2Proof.Machine.execHdrOverseasTitle s
  | .hdrProductType => Sys2Proof.Machine.execHdrProductType s
  | .hdrProductCode => Sys2Proof.Machine.execHdrProductCode s
  | .hdrChecksum => Sys2Proof.Machine.execHdrChecksum s
  | .hdrProgramStart => Sys2Proof.Machine.execHdrProgramStart s
  | .hdrProgramEnd => Sys2Proof.Machine.execHdrProgramEnd s
  | .hdrRamStart => Sys2Proof.Machine.execHdrRamStart s
  | .hdrRamEnd => Sys2Proof.Machine.execHdrRamEnd s
  | .hdrRegions => Sys2Proof.Machine.execHdrRegions s
  | .spaceCollapse b => Sys2Proof.Machine.execSpaceCollapse b s
  | .regions => Sys2Proof.Machine.execRegions s
  | .checksum => Sys2Proof.Machine.execChecksum s

end Sys2Proof.Machine
end

