-- ==== Sys2Proof/Machine/Step.lean ====
section
/-! DEFINITION. One step: the oldest presented operation is decoded in the current phase of the control port, executed
whole (R9, R55), and retired. -/

namespace Sys2Proof.Machine

/-- The step of the block `b`, with the mapping table and the configuration as its PARAMETER `p` (R11). With nothing presented nothing
happens: the block has no clock and starts nothing itself (R55, R175). The result stands under `p` again, unless the operation
was MAP under construction, SYS.CONSTRUCT or SYS.LOAD, which give the steps after them their parameter. -/
def stepUnder (p : Parameters) (b : Block) : Host.Outcome State Fault Refusal :=
  match State.fetch ⟨p, b⟩ with
  | none => .next ⟨p, b⟩
  | some r =>
    match decode b.vdp.writePending r with
    | .error why => .refused (.undecodable why)
    | .ok i =>
      match exec i ⟨p, b⟩ with
      | .next t => .next (State.retire i t)
      | .fault f => .fault f
      | .refused why => .refused why

/-- One step of the machine: its block steps under its parameters. -/
def step (s : State) : Host.Outcome State Fault Refusal := stepUnder s.toParameters s.toBlock

/-- The state with a word of the opcode table as the next operation. -/
def State.withFetchWord (s : State) (nbits w : Nat) : State := presentTableWord s nbits w

end Sys2Proof.Machine
end

