-- ==== Sys2Proof/Safety.lean ====
section
/-! DEFINITION. What claims are stated in: the invariant of the machine, safe steps, and the groups of operations that
whole-machine rules speak of. -/

namespace Sys2Proof.Machine

/-- A well-formed mapping table (R101): every range ordered, every device well-formed, no two ranges intersecting. -/
abbrev TableOk (table : List Mapping) : Prop :=
  table.Pairwise (fun m k => m.overlaps k = false) ∧ ∀ m ∈ table, m.wf = true

/-- Every range of the table is ROM_WINDOW itself or lies above it, so that SYS.LOAD finds the window free (R231, R232). -/
abbrev RomWindowFree (table : List Mapping) : Prop :=
  ∀ m ∈ table, (m.first = romFirst ∧ m.last = romLast) ∨ romLast < m.first

/-- Transactions and port commands are accepted: neither the halt (R263) nor a fatal range overlap (R233, R255) has stopped the System. -/
abbrev State.accepts (s : State) : Prop := s.halted = false ∧ s.boot ≠ .fatal

/-- The System before its construction, on which the constructor maps ranges (R102, R239; log entry 33): no mapping yet. -/
def State.unbuilt : State := { State.reset with table := [], boot := .building }

/-- The invariant that every step keeps. -/
structure State.Inv (s : State) : Prop where
  /-- The three buffers are canonical and inside their bounds (R22, R23). -/
  ramWf  : s.ram.wf
  romWf  : s.rom.wf
  vramWf : s.vdp.vram.wf
  /-- VRAM has 0x20000 bytes (R22). -/
  vramSize : s.vdp.vram.size = Sys2Proof.vramSize
  /-- From offset 0x10001 up, VRAM keeps its reset content (R22). -/
  vramUpper : ∀ a, 0x10000 < a → s.vdp.vram.byte a = Memory.byte (initialCells Sys2Proof.vramSize s.cfg.vramInit) a
  /-- RAM has RAM_SIZE bytes (R23). -/
  ramSize : s.ram.size = s.cfg.ramSize.toNat
  /-- `status` is VDP_STATUS_RESET for ever (R18). -/
  statusFixed : s.vdp.status = s.cfg.statusReset
  /-- `code_reg[15:6]` stays 0 (R21). -/
  codeTop : s.vdp.codeReg.extractLsb' 6 10 = 0#10
  /-- `code_reg[1:0] = 0b10` cannot be produced (R83). -/
  codeLow : s.vdp.codeReg.extractLsb' 0 2 ≠ 0b10#2
  /-- The mapping table is well-formed (R101). -/
  tableOk : TableOk s.table
  /-- Once a System is constructed ROM_WINDOW is free for SYS.LOAD: RangeOverlap "never occurs at runtime" (R232, R255). -/
  romWindowFree : s.boot ≠ .building → s.boot ≠ .fatal → RomWindowFree s.table
  /-- MODEL'S OWN (log entries 2 and 11): while SYS.RUN is in progress it stands at the head of the queue, and the System is not
  halted. -/
  runAtHead : s.running = true → s.inbox.head? = some .run ∧ s.halted = false

/-- The step goes on. -/
def SafeStep (s : State) : Prop := ∃ t, step s = .next t

/-- The reads: of the bus, of every device, and the status read. -/
def isRead : Instr → Bool
  | .busRd _ _ | .ramRd _ _ | .romRd _ _ | .mirRd _ _ _ _ | .trcRd _ _ _ _ _ | .stubRd _ _ _ | .vdpRd _ _
  | .vdpStatus _ => true
  | _ => false

/-- The calls of the ROM header software (R4, R210). -/
def isSoftware : Instr → Bool
  | .hdrConsoleName | .hdrCopyright | .hdrDomesticTitle | .hdrOverseasTitle | .hdrProductType | .hdrProductCode
  | .hdrChecksum | .hdrProgramStart | .hdrProgramEnd | .hdrRamStart | .hdrRamEnd | .hdrRegions
  | .spaceCollapse _ | .regions | .checksum => true
  | _ => false

/-- The host calls that build or reset the System (R280) and MAP: the writers of the mapping table (R102, R233, R236). -/
def isSetup : Instr → Bool
  | .map _ _ _ | .sysConstruct _ | .sysLoad _ => true
  | _ => false

/-- An access to the device can reach the VDP: the VDP itself, or a Mirror or Tracer around one (R120). -/
def reachesVdp : Device → Bool
  | .vdp => true
  | .ram | .rom | .stub _ => false
  | .mirror _ inner => reachesVdp inner
  | .tracer _ _ inner => reachesVdp inner

/-- A device with every Tracer taken off (R136). -/
def withoutTracers : Device → Device
  | .ram => .ram
  | .rom => .rom
  | .vdp => .vdp
  | .stub kind => .stub kind
  | .mirror period inner => .mirror period (withoutTracers inner)
  | .tracer _ _ inner => withoutTracers inner

/-- The System with every Tracer of its table taken off, and another trace log (R136). -/
def State.untraced (s : State) (log : List TraceRecord) : State :=
  { s with
    table := s.table.map (fun m => { m with device := withoutTracers m.device })
    traceLog := log }

/-- The pseudo-operations of R86, each as its expansion; `base` is VDP_BASE. -/
def pseudoSetReg (base : Addr) (i : BitVec 6) (v : Byte) : Instr := .busWr (base + 4#32) [(0b10#2 ++ i : BitVec 8), v]

/-- `VDP.SETADDR C, A`, in its one-transaction form. -/
def pseudoSetAddr (base : Addr) (c : BitVec 6) (a : Half) : Instr :=
  .busWr (base + 4#32)
    [(c.extractLsb' 0 2 ++ a.extractLsb' 8 6 : BitVec 8), a.extractLsb' 0 8, 0x00#8,
      (c.extractLsb' 2 4 ++ 0b00#2 ++ a.extractLsb' 14 2 : BitVec 8)]

/-- `VDP.VRAMWRITE A`. -/
def pseudoVramWrite (base : Addr) (a : Half) : Instr := pseudoSetAddr base 0x01#6 a

/-- `VDP.PUT w`. -/
def pseudoPut (base : Addr) (w : Half) : Instr := .busWr base (bytes16 w)

/-- `VDP.ABORT`. -/
def pseudoAbort (base : Addr) : Instr := .busRd (base + 4#32) 2

end Sys2Proof.Machine
end

