-- ==== Sys2Proof/Certificates/Slice0/Obligations.lean ====
section
/-! DEFINITION. The statements for the provers. `{ s with … }` in a conclusion says the frame at once: every part of the state
it does not name is as before. -/

set_option autoImplicit false

open Sys2Proof Sys2Proof.Machine

/-! ## Encoding and the step -/

/-- Words of the encodings in 30_encoding.md, written out, and the operations they stand for. -/
def Obligations.SampleWordsDecode : Prop :=
  decode false (.ctrlWord 0b1000000010101011#16) = .ok (.ctrlRegset 0#6 0xAB#8) ∧
  decode false (.ctrlWord 0b1001011111111111#16) = .ok (.ctrlRegset 23#6 0xFF#8) ∧
  decode false (.ctrlWord 0b0001001000110100#16) = .ok (.ctrlAddr1Cd00 0x1234#14) ∧
  decode false (.ctrlWord 0b0111111111111111#16) = .ok (.ctrlAddr1Cd01 0x3FFF#14) ∧
  decode false (.ctrlWord 0b1100000000000000#16) = .ok (.ctrlAddr1Cd11 0#14) ∧
  decode true (.ctrlWord 0b1000000010101011#16) = .ok (.ctrlAddr2 0x80#8 0b1010#4 0b10#2 0b11#2) ∧
  decode false (.portRead 0x00000006#32 2) = .ok (.vdpStatus 1#1) ∧
  decode false (.ctrlPort 0x00000004#32 0x4000#16) = .ok (.ctrlWr 0#1 0x40#8 0x00#8) ∧
  decode false (.txn .write 0x00C00004#32 2 [0x80#8, 0xAB#8]) = .ok (.busWr 0xC00004#32 [0x80#8, 0xAB#8])

/-- Decoding the encoding of an admitted operation gives it back, every operand at every value (R70 to R80). -/
def Obligations.DecodeOfEncode : Prop :=
  ∀ i : Instr, i.wf = true → decode (phaseOf i) (encode i) = .ok i

/-- Control words lose no bit in decoding: encoding what a word decodes to gives the word back, ignored bits included (R76 to
R78). -/
def Obligations.EncodeOfDecodedControlWord : Prop :=
  ∀ (pending : Bool) (w : Half) (i : Instr), decode pending (.ctrlWord w) = .ok i →
    encode i = .ctrlWord w ∧ phaseOf i = pending

/-- The idle formats CW-REG and CW-A1 (R76, R77): which one a word has, where its fields lie, and for CW-A1 the register bits
they go to. -/
def Obligations.IdleControlWordFormats : Prop :=
  ∀ (w : Half) (s : State), s.accepts → s.vdp.writePending = false →
    (w.extractLsb' 14 2 = 0b10#2 →
      ∃ index value, decode s.vdp.writePending (.ctrlWord w) = .ok (.ctrlRegset index value) ∧
        index.toNat = w.toNat / 2 ^ 8 % 2 ^ 6 ∧ value.toNat = w.toNat % 2 ^ 8) ∧
    (w.extractLsb' 14 2 ≠ 0b10#2 →
      ∃ i t, decode s.vdp.writePending (.ctrlWord w) = .ok i ∧ exec i s = .next t ∧
        t.vdp.codeReg.toNat % 2 ^ 2 = w.toNat / 2 ^ 14 ∧ t.vdp.addressReg.toNat % 2 ^ 14 = w.toNat % 2 ^ 14)

/-- Accesses of no bytes are refused (R50; decision D2): the decoder refuses them in the bus form, in the device form on every device, and as a port
read; every meaning that is asked for one refuses it where transactions are accepted; and so does SYS.RUN when the executor asks for one (that
the executor's moves are a list is the model's choice, log entry 11). -/
def Obligations.EmptyTransactionRefused : Prop :=
  (∀ (p : Bool) (dir : Dir) (addr : Addr) (d : Device),
    decode p (.txn dir addr 0 []) = .error (.illFormed .zeroLength) ∧
    decode p (.dev d dir addr 0 []) = .error (.illFormed .zeroLength) ∧
    decode p (.portRead addr 0) = .error (.illFormed .zeroLength)) ∧
  (∀ (i : Instr) (s : State), s.accepts → i.check = some .zeroLength →
    exec i s = .refused (.illFormed .zeroLength)) ∧
  (∀ (s : State) (addr : Addr) (rest : List ExecutorMove), s.halted = false → runnable s.boot = true →
    s.executor = .read addr 0 :: rest ∨ s.executor = .write addr [] :: rest →
    exec .sysRun s = .refused (.illFormed .zeroLength))

/-- A step decodes the oldest presented operation in the current phase and is exec of it, whatever exec answers; one that does not decode is refused
by the decoder's own reason. The queue of presented operations is the MODEL'S CHOICE (log entries 2 and 11; what one step is: entry 1): the rules
speak of no queue. So are the clauses that an empty queue changes nothing, that an operation which went on leaves the queue, and that a SYS.RUN still
in progress stays at its head. -/
def Obligations.StepRunsDecodedOperation : Prop :=
  (∀ s : State, s.inbox = [] → step s = .next s) ∧
  (∀ (s : State) (r : Request) (rest : List Request) (i : Instr), s.inbox = r :: rest →
    decode s.vdp.writePending r = .ok i →
    (∀ t, exec i s = .next t →
      step s = .next (if i = .sysRun ∧ t.running = true then t else { t with inbox := t.inbox.tail })) ∧
    (∀ f, exec i s = .fault f → step s = .fault f) ∧
    (∀ why, exec i s = .refused why → step s = .refused why)) ∧
  (∀ (s : State) (r : Request) (rest : List Request) (why : DecodeError), s.inbox = r :: rest →
    decode s.vdp.writePending r = .error why → step s = .refused (.undecodable why))

/-- About the MODEL'S OWN fields `inbox` and `executor`, of which the rules do not speak (log entries 2 and 11): no operation touches the queue of
presented operations, and none but SYS.RUN the executor's moves. What the rules say is that nothing inside the block starts an access (R107). -/
def Obligations.ExecLeavesInputs : Prop :=
  ∀ (i : Instr) (s t : State), exec i s = .next t →
    t.inbox = s.inbox ∧ (i ≠ .sysRun → t.executor = s.executor)

/-! ## Reset and the invariant -/

/-- SYS.CONSTRUCT with the default configuration leaves the reset state, from any state: only the trace log, which is never
reset, and the outside's inputs stay (R25, R233, R281, R283; the values are decisions D18, D19, log entries 6 to 9). The MODEL'S CHOICE is that the
own fields `inbox` and `executor` stay (entries 2 and 11), that SYS.CONSTRUCT appends no lifecycle line to the trace log (entry 19), and the values of
the defaults that R5 leaves open, the absent trace sink among them (entries 5, 29 and 35). -/
def Obligations.ConstructReachesReset : Prop :=
  ∀ s : State, exec (.sysConstruct Config.default) s = .next
    { State.reset with traceLog := s.traceLog, response := .ok, inbox := s.inbox, executor := s.executor }

/-- The invariant holds at State.reset, whose values the spec decides or leaves open: zero buffers, registers and status are the MODEL'S CHOICE (log
entries 6, 7, 8), so are which state reset is (entry 9) and its absent trace sink (entry 35), and the last conjunct is about the model's own fields (entries 2 and 11). -/
def Obligations.ResetMeetsInvariant : Prop := State.reset.Inv

/-- Every step keeps the invariant: canonical buffers (R22, R23), VRAM's size and untouched upper part (R22), the constant status
(R18), `code_reg[15:6] = 0` (R21), `code_reg[1:0] ≠ 0b10` (R83), a table without overlaps (R101), and once the System is constructed a ROM window that
no other range meets (R231, R232; that the configuration check refuses such a range is log entry 14). The last conjunct, SYS.RUN at the head of the
queue while it runs, is the MODEL'S OWN (log entries 2 and 11): the rules know no queue. -/
def Obligations.StepKeepsInvariant : Prop :=
  ∀ s t : State, s.Inv → step s = .next t → t.Inv

/-! ## The bus -/

/-- The lookup finds the one mapping that contains the address; with none, a read and a write fail with that exact address, count
0, and no state changes (R103). -/
def Obligations.LookupDecidesAccess : Prop :=
  ∀ (s : State) (addr : Addr), s.accepts → TableOk s.table →
    (∀ m ∈ s.table, m.first ≤ addr → addr ≤ m.last → lookup s.table addr = some m) ∧
    ((∀ m ∈ s.table, ¬(m.first ≤ addr ∧ addr ≤ m.last)) →
      lookup s.table addr = none ∧
      (∀ n, n ≠ 0 → exec (.busRd addr n) s
        = .next { s with response := .transfer ⟨0, [], some (.accessViolation addr)⟩ }) ∧
      (∀ bytes, bytes ≠ [] → exec (.busWr addr bytes) s
        = .next { s with response := .transfer ⟨0, [], some (.accessViolation addr)⟩ }))

/-- A mapped access is the device's own access at `addr - start`, with the whole length, and its count, bytes and error are
returned unchanged (R104, R105; the error's payload is decision D4): as the two functions devRead and devWrite, and in every state as the
operation of the device's own kind. -/
def Obligations.MappedAccessIsDeviceAccess : Prop :=
  ∀ (s : State) (m : Mapping) (addr offset : Addr), TableOk s.table → m ∈ s.table →
    m.first ≤ addr → addr ≤ m.last → m.first.toNat + offset.toNat = addr.toNat →
    (s.accepts → ∀ n, n ≠ 0 → exec (.busRd addr n) s = .next
      { (devRead m.device offset n s).1 with response := .transfer (devRead m.device offset n s).2 }) ∧
    (s.accepts → ∀ bytes, bytes ≠ [] → exec (.busWr addr bytes) s = .next
      { (devWrite m.device offset bytes s).1 with response := .transfer (devWrite m.device offset bytes s).2 }) ∧
    (∀ n,
      (m.device = .ram → exec (.busRd addr n) s = exec (.ramRd offset n) s) ∧
      (m.device = .rom → exec (.busRd addr n) s = exec (.romRd offset n) s) ∧
      (m.device = .vdp → exec (.busRd addr n) s = exec (.vdpRd offset n) s) ∧
      (∀ k, m.device = .stub k → exec (.busRd addr n) s = exec (.stubRd k offset n) s) ∧
      (∀ p d, m.device = .mirror p d → exec (.busRd addr n) s = exec (.mirRd p d offset n) s) ∧
      (∀ l k d, m.device = .tracer l k d → exec (.busRd addr n) s = exec (.trcRd l k d offset n) s)) ∧
    (∀ v,
      (m.device = .ram → exec (.busWr addr v) s = exec (.ramWr offset v) s) ∧
      (m.device = .rom → exec (.busWr addr v) s = exec (.romWr offset v) s) ∧
      (m.device = .vdp → exec (.busWr addr v) s = exec (.vdpWr offset v) s) ∧
      (∀ k, m.device = .stub k → exec (.busWr addr v) s = exec (.stubWr k offset v) s) ∧
      (∀ p d, m.device = .mirror p d → exec (.busWr addr v) s = exec (.mirWr p d offset v) s) ∧
      (∀ l k d, m.device = .tracer l k d → exec (.busWr addr v) s = exec (.trcWr l k d offset v) s))

/-- On a System under construction MAP appends a range that meets no other, and fails with RangeOverlap, which leaves the table as it was and is
fatal, when it meets one; ranges that share one address meet (R102). A reversed range and a zero period are refused (decision D3). After construction
MAP is no move of the host (R239) and is refused (that the phase stands in State is log entry 33). -/
def Obligations.MapRegistersDisjointRange : Prop :=
  ∀ (d : Device) (first last : Addr) (s : State),
    (s.boot = .building →
      (last < first → exec (.map d first last) s = .refused (.illFormed .reversedRange)) ∧
      (first ≤ last → d.wf = false → exec (.map d first last) s = .refused (.illFormed .zeroPeriod)) ∧
      (first ≤ last → d.wf = true →
        ((∃ m ∈ s.table, ∃ a : Addr, first ≤ a ∧ a ≤ last ∧ m.first ≤ a ∧ a ≤ m.last) →
          exec (.map d first last) s = .next { s with boot := .fatal, response := .error .rangeOverlap }) ∧
        ((∀ m ∈ s.table, m.last < first ∨ last < m.first) →
          exec (.map d first last) s
            = .next { s with table := s.table ++ [⟨first, last, d⟩], response := .ok }))) ∧
    (s.boot ≠ .building → s.boot ≠ .fatal → exec (.map d first last) s = .refused .remap)

/-- Only MAP, SYS.CONSTRUCT and SYS.LOAD change the mapping table or the configuration (R106). Once the System is constructed it is not under
construction again, and unless it is constructed anew only SYS.LOAD changes the table (R11, R236, R239), which keeps the configuration and every
mapping but the one at ROM_WINDOW (R283). The step takes the table and the configuration as its parameter, and every step of a block whose next
operation is none of the three leaves the block under the same parameter (R11; that State carries the parameter from one step to the next is log
entry 17). -/
def Obligations.OnlySetupChangesTable : Prop :=
  (∀ s : State, step s = stepUnder s.toParameters s.toBlock) ∧
  (∀ (p : Parameters) (b : Block) (t : State),
    (∀ r ∈ b.inbox.head?, ∀ i, decode b.vdp.writePending r = .ok i → isSetup i = false) →
      stepUnder p b = .next t → t.toParameters = p) ∧
  ∀ (i : Instr) (s t : State), exec i s = .next t →
    (isSetup i = false → t.table = s.table ∧ t.cfg = s.cfg) ∧
    (s.boot ≠ .building → t.boot ≠ .building ∧
      ((∀ c, i ≠ .sysConstruct c) → t.cfg = s.cfg ∧ (t.table = s.table ∨ ∃ data, i = .sysLoad data))) ∧
    (∀ data, i = .sysLoad data → t.cfg = s.cfg ∧
      ∀ m : Mapping, ¬(m.first = romFirst ∧ m.last = romLast) → (m ∈ t.table ↔ m ∈ s.table))

/-! ## Storage devices -/

/-- RAM.RD (R121; the short read without an error is decision D5): bytes up to the end of the buffer, or AccessViolation(offset).
Nothing but the answer changes. -/
def Obligations.RamReadReturnsBytes : Prop :=
  ∀ (offset : Addr) (n : Nat) (s : State), s.accepts → n ≠ 0 →
    (offset.toNat < s.ram.size → ∃ bytes : List Byte,
      exec (.ramRd offset n) s = .next { s with response := .transfer ⟨bytes.length, bytes, none⟩ } ∧
      bytes.length = min n (s.ram.size - offset.toNat) ∧
      ∀ i, i < bytes.length → bytes[i]? = some (s.ram.byte (offset.toNat + i))) ∧
    (s.ram.size ≤ offset.toNat →
      exec (.ramRd offset n) s = .next { s with response := .transfer ⟨0, [], some (.accessViolation offset)⟩ })

/-- RAM.WR (R122; that the bytes of a ShortWrite stay is decision D6): the bytes that fit are stored from `offset` up and every other
byte of RAM is as before; nothing else changes but the answer. -/
def Obligations.RamWriteStoresBytes : Prop :=
  ∀ (offset : Addr) (v : List Byte) (s : State), s.accepts → v ≠ [] → s.ram.wf →
    (offset.toNat < s.ram.size → ∃ ram : Buffer,
      exec (.ramWr offset v) s = .next { s with
        ram := ram
        response := .transfer ⟨min v.length (s.ram.size - offset.toNat), [],
          if s.ram.size - offset.toNat < v.length then some .shortWrite else none⟩ } ∧
      ram.size = s.ram.size ∧
      (∀ i, i < v.length → offset.toNat + i < s.ram.size → v[i]? = some (ram.byte (offset.toNat + i))) ∧
      (∀ a, a < offset.toNat ∨ offset.toNat + v.length ≤ a ∨ s.ram.size ≤ a → ram.byte a = s.ram.byte a)) ∧
    (s.ram.size ≤ offset.toNat →
      exec (.ramWr offset v) s = .next { s with response := .transfer ⟨0, [], some (.accessViolation offset)⟩ })

/-- ROM.RD (R125): bytes up to the end of the data, which may be fewer than asked for without an error, and EndOfData from there
on. Nothing but the answer changes. -/
def Obligations.RomReadReturnsBytes : Prop :=
  ∀ (offset : Addr) (n : Nat) (s : State), s.accepts → n ≠ 0 →
    (offset.toNat < s.rom.size → ∃ bytes : List Byte,
      exec (.romRd offset n) s = .next { s with response := .transfer ⟨bytes.length, bytes, none⟩ } ∧
      bytes.length = min n (s.rom.size - offset.toNat) ∧
      ∀ i, i < bytes.length → bytes[i]? = some (s.rom.byte (offset.toNat + i))) ∧
    (s.rom.size ≤ offset.toNat →
      exec (.romRd offset n) s = .next { s with response := .transfer ⟨0, [], some .endOfData⟩ })

/-- ROM.WR (R126; the partial bytes are decision D6): a patch stores the bytes that fit, never grows the data, and fails with
AccessViolation(offset), not EndOfData, outside it. -/
def Obligations.RomWritePatchesBytes : Prop :=
  ∀ (offset : Addr) (v : List Byte) (s : State), s.accepts → v ≠ [] → s.rom.wf →
    (offset.toNat < s.rom.size → ∃ rom : Buffer,
      exec (.romWr offset v) s = .next { s with
        rom := rom
        response := .transfer ⟨min v.length (s.rom.size - offset.toNat), [],
          if s.rom.size - offset.toNat < v.length then some .shortWrite else none⟩ } ∧
      rom.size = s.rom.size ∧
      (∀ i, i < v.length → offset.toNat + i < s.rom.size → v[i]? = some (rom.byte (offset.toNat + i))) ∧
      (∀ a, a < offset.toNat ∨ offset.toNat + v.length ≤ a ∨ s.rom.size ≤ a → rom.byte a = s.rom.byte a)) ∧
    (s.rom.size ≤ offset.toNat →
      exec (.romWr offset v) s = .next { s with response := .transfer ⟨0, [], some (.accessViolation offset)⟩ })

/-- What was written is read back, byte by byte in buffer order: each byte of a RAM write that fits is what a one-byte read at its
own offset returns afterwards (R44, R46, R55). -/
def Obligations.RamReadAfterWrite : Prop :=
  ∀ (offset : Addr) (v : List Byte) (s t : State) (i : Nat) (b : Byte), s.ram.wf →
    exec (.ramWr offset v) s = .next t → offset.toNat + i < s.ram.size → offset.toNat + i < 2 ^ 32 → v[i]? = some b →
    exec (.ramRd (offset + BitVec.ofNat 32 i) 1) t = .next { t with response := .transfer ⟨1, [b], none⟩ }

/-- The stubs (R139; decision D7): `n` copies of the constant or of 0x00, writes accepted and discarded, at every offset and
length. -/
def Obligations.StubsAnswerEverything : Prop :=
  ∀ (k : Byte) (offset : Addr) (s : State), s.accepts →
    (∀ n, n ≠ 0 →
      exec (.stubRd (.const k) offset n) s
        = .next { s with response := .transfer ⟨n, List.replicate n k, none⟩ } ∧
      exec (.stubRd .noOp offset n) s
        = .next { s with response := .transfer ⟨n, List.replicate n 0x00#8, none⟩ }) ∧
    (∀ (kind : Stub) (v : List Byte), v ≠ [] →
      exec (.stubWr kind offset v) s = .next { s with response := .transfer ⟨v.length, [], none⟩ })

/-- A Mirror forwards the access whole at `offset mod period` and returns what the inner device returns (R132): only the starting
offset is reduced. -/
def Obligations.MirrorFoldsOffset : Prop :=
  ∀ (period offset folded : Addr) (inner : Device) (s : State), s.accepts → period ≠ 0#32 →
    inner.wf = true → folded.toNat = offset.toNat % period.toNat →
    (∀ n, n ≠ 0 → exec (.mirRd period inner offset n) s = .next
      { (devRead inner folded n s).1 with response := .transfer (devRead inner folded n s).2 }) ∧
    (∀ v, v ≠ [] → exec (.mirWr period inner offset v) s = .next
      { (devWrite inner folded v s).1 with response := .transfer (devWrite inner folded v s).2 })

/-- The Mirror property (R133): with a Mirror of period 0x10000 over a RAM of 64 KiB at 0xE00000..0xFFFFFF, four bytes written at a
4-byte-aligned address of the window are read back at every image of it, at 0xFF0000 + (addr - 0xE00000) mod 0x10000 among
them; and nothing but RAM and the answer changed. -/
def Obligations.MirrorImagesAreOneRam : Prop :=
  ∀ (s : State) (addr image : Addr) (b0 b1 b2 b3 : Byte), s.accepts → TableOk s.table → s.ram.wf →
    s.ram.size = 0x10000 → (⟨0xE00000#32, 0xFFFFFF#32, .mirror 0x10000#32 .ram⟩ : Mapping) ∈ s.table →
    0xE00000 ≤ addr.toNat → addr.toNat ≤ 0xFFFFFF → addr.toNat % 4 = 0 →
    0xE00000 ≤ image.toNat → image.toNat ≤ 0xFFFFFF → image.toNat % 0x10000 = addr.toNat % 0x10000 →
    ∃ t, exec (.busWr addr [b0, b1, b2, b3]) s = .next t ∧
      t = { s with ram := t.ram, response := .transfer ⟨4, [], none⟩ } ∧
      exec (.busRd image 4) t = .next { t with response := .transfer ⟨4, [b0, b1, b2, b3], none⟩ } ∧
      exec (.busRd (BitVec.ofNat 32 (0xFF0000 + (addr.toNat - 0xE00000) % 0x10000)) 4) t
        = .next { t with response := .transfer ⟨4, [b0, b1, b2, b3], none⟩ }

/-- A Tracer appends one record with its label, the offset and the length or payload before the access, and forwards the access
unchanged; without a sink it only forwards (R135; the record's content is decision D8). That the Tracer's own flag alone decides, whatever TRACE_SINK
is, is the MODEL'S CHOICE (log entry 36). -/
def Obligations.TracerLogsThenForwards : Prop :=
  ∀ (label : String) (inner : Device) (offset : Addr) (s : State), s.accepts → inner.wf = true →
    (∀ n, n ≠ 0 →
      (let s' : State := { s with traceLog := s.traceLog ++ [.read label offset n] }
       exec (.trcRd label true inner offset n) s = .next
        { (devRead inner offset n s').1 with response := .transfer (devRead inner offset n s').2 }) ∧
      exec (.trcRd label false inner offset n) s = .next
        { (devRead inner offset n s).1 with response := .transfer (devRead inner offset n s).2 }) ∧
    (∀ v, v ≠ [] →
      (let s' : State := { s with traceLog := s.traceLog ++ [.write label offset v] }
       exec (.trcWr label true inner offset v) s = .next
        { (devWrite inner offset v s').1 with response := .transfer (devWrite inner offset v s').2 }) ∧
      exec (.trcWr label false inner offset v) s = .next
        { (devWrite inner offset v s).1 with response := .transfer (devWrite inner offset v s).2 })

/-- Tracers are passive monitors (R136): taking every Tracer off a device and off the System's table, and starting from states that agree
outside the trace log, every read and write of the device and of the bus gives the same result and states that agree outside the trace log. -/
def Obligations.TracersAreInvisible : Prop :=
  ∀ (s : State) (log : List TraceRecord),
    (∀ (d : Device) (offset : Addr),
      (∀ n, (devRead d offset n s).2 = (devRead (withoutTracers d) offset n (s.untraced log)).2 ∧
        (devRead d offset n s).1.untraced log = (devRead (withoutTracers d) offset n (s.untraced log)).1) ∧
      (∀ v, (devWrite d offset v s).2 = (devWrite (withoutTracers d) offset v (s.untraced log)).2 ∧
        (devWrite d offset v s).1.untraced log = (devWrite (withoutTracers d) offset v (s.untraced log)).1)) ∧
    (∀ (addr : Addr),
      (∀ n, (busRead addr n s).2 = (busRead addr n (s.untraced log)).2 ∧
        (busRead addr n s).1.untraced log = (busRead addr n (s.untraced log)).1) ∧
      (∀ v, (busWrite addr v s).2 = (busWrite addr v (s.untraced log)).2 ∧
        (busWrite addr v s).1.untraced log = (busWrite addr v (s.untraced log)).1))

/-! ## The VDP's ports -/

/-- The status read (R152), in its own form and as a 2-byte read at offset 0x04 or 0x06: the status register big-endian, and the
phase flag cleared, nothing else. -/
def Obligations.StatusReadClearsPhase : Prop :=
  ∀ s : State, s.accepts →
    let t : State := { s with
      vdp := { s.vdp with writePending := false }
      response := .transfer ⟨2, [BitVec.ofNat 8 (s.vdp.status.toNat / 2 ^ 8), BitVec.ofNat 8 s.vdp.status.toNat], none⟩ }
    (∀ p, exec (.vdpStatus p) s = .next t) ∧
    exec (.vdpRd 0x04#32 2) s = .next t ∧ exec (.vdpRd 0x06#32 2) s = .next t

/-- Every other read at the VDP fails and changes nothing: AccessViolation(offset) at an offset that is no port, tested first, and
ReadNotSpecified at the data port or with another length (R151, R153; decision D11). -/
def Obligations.OtherVdpReadsFail : Prop :=
  ∀ (offset : Addr) (n : Nat) (s : State), s.accepts → n ≠ 0 →
    (offset ∉ [0x00#32, 0x02#32, 0x04#32, 0x06#32] →
      exec (.vdpRd offset n) s = .next { s with response := .transfer ⟨0, [], some (.accessViolation offset)⟩ }) ∧
    (offset ∈ [0x00#32, 0x02#32] ∨ (offset ∈ [0x04#32, 0x06#32] ∧ n ≠ 2) →
      exec (.vdpRd offset n) s
        = .next { s with response := .transfer ⟨0, [], some (.unsupportedOperation .readNotSpecified)⟩ })

/-- A write of more than 2 bytes is its parts one after the other (R155 (b), (c); R158 for even lengths): when the first, even part is written
without an error the rest is written as a transaction of its own at the offset it has reached, and the counts add up; when it fails, the
whole write is the failed first part. The rest may be a single byte, which is then written duplicated: that is decision D10, and the counts are
decision D9 (log entry 24). Only for offsets whose sum with the first part's length is a 32-bit number: beyond, the rest has no offset of its own. -/
def Obligations.VdpWriteIsItsParts : Prop :=
  ∀ (offset rest : Addr) (xs ys : List Byte) (s t : State) (x : Xfer), s.accepts → xs ≠ [] → ys ≠ [] →
    xs.length % 2 = 0 → offset.toNat + xs.length = rest.toNat →
    exec (.vdpWr offset xs) s = .next t → t.response = .transfer x →
    (x.err = none → ∃ u y, exec (.vdpWr rest ys) t = .next u ∧ u.response = .transfer y ∧
      exec (.vdpWr offset (xs ++ ys)) s
        = .next { u with response := .transfer ⟨xs.length + y.count, y.bytes, y.err⟩ }) ∧
    (x.err ≠ none → exec (.vdpWr offset (xs ++ ys)) s = .next t)

/-- A VDP write always completes (R154): it changes at most the VDP, its count is the length when there is no error, and with one an even
number short of the length (R155 (e); decision D9). -/
def Obligations.VdpWriteCompletes : Prop :=
  ∀ (offset : Addr) (v : List Byte) (s : State), s.accepts → v ≠ [] →
    ∃ vdp x, exec (.vdpWr offset v) s = .next { s with vdp := vdp, response := .transfer x } ∧
      x.bytes = [] ∧ (x.err = none → x.count = v.length) ∧
      (x.err ≠ none → x.count % 2 = 0 ∧ x.count < v.length)

/-- A single-byte write acts as the two-byte write of that byte twice (R159): the same effect on the state at every offset, the counts 1 and
2 when it succeeds; at an idle control port `[0x80]` stores 0x80 into register 0. -/
def Obligations.ByteWriteIsDuplicated : Prop :=
  ∀ (offset : Addr) (b : Byte) (s : State), s.accepts →
    (∃ vdp e, exec (.vdpWr offset [b]) s
        = .next { s with vdp := vdp, response := .transfer ⟨if e = none then 1 else 0, [], e⟩ } ∧
      exec (.vdpWr offset [b, b]) s
        = .next { s with vdp := vdp, response := .transfer ⟨if e = none then 2 else 0, [], e⟩ }) ∧
    (offset ∈ [0x04#32, 0x06#32] → s.vdp.writePending = false →
      exec (.vdpWr offset [0x80#8]) s = .next { s with
        vdp := { s.vdp with registers := s.vdp.registers.set 0 0x80#8 }
        response := .transfer ⟨1, [], none⟩ })

/-- A two-byte VDP write is one logical write (R154, R156): the same effect on the state, the same error if any, the count 2 without one and 0
with one. -/
def Obligations.TwoByteWriteIsLogicalWrite : Prop :=
  ∀ (offset : Addr) (b0 b1 : Byte) (s : State), s.accepts →
    ∃ vdp e,
      exec (.vdpWr16 offset b0 b1) s = .next { s with
        vdp := vdp
        response := match e with
          | none => .ok
          | some why => .error why } ∧
      exec (.vdpWr offset [b0, b1]) s
        = .next { s with vdp := vdp, response := .transfer ⟨if e = none then 2 else 0, [], e⟩ }

/-- One logical write goes to the data port at 0x00 and 0x02, to the control port at 0x04 and 0x06, where it never fails, and anywhere
else fails with AccessViolation(off) and changes nothing (R156, R157). -/
def Obligations.LogicalWriteSelectsPort : Prop :=
  ∀ (offset : Addr) (b0 b1 : Byte) (s : State), s.accepts →
    (offset ∈ [0x00#32, 0x02#32] → exec (.vdpWr16 offset b0 b1) s = exec (.dataWr b0 b1) s) ∧
    (offset ∈ [0x04#32, 0x06#32] → ∀ p, exec (.vdpWr16 offset b0 b1) s = exec (.ctrlWr p b0 b1) s ∧
      ∃ vdp, exec (.vdpWr16 offset b0 b1) s = .next { s with vdp := vdp, response := .ok }) ∧
    (offset ∉ [0x00#32, 0x02#32, 0x04#32, 0x06#32] →
      exec (.vdpWr16 offset b0 b1) s = .next { s with response := .error (.accessViolation offset) })

/-! ## The control port -/

/-- The control port selects its command from the phase and, in idle only, from `b0[7:6]`, runs it, and never fails (R170). -/
def Obligations.ControlPortSelectsCommand : Prop :=
  ∀ (p : BitVec 1) (b0 b1 : Byte) (s : State), s.accepts →
    (∃ vdp, exec (.ctrlWr p b0 b1) s = .next { s with vdp := vdp, response := .ok }) ∧
    (∃ i, decode s.vdp.writePending (.ctrlWord (wordOf b0 b1)) = .ok i ∧ exec (.ctrlWr p b0 b1) s = exec i s ∧
      (s.vdp.writePending = true → ∃ a c d e, i = .ctrlAddr2 a c d e) ∧
      (s.vdp.writePending = false → b0.toNat / 2 ^ 6 = 2 → ∃ index, i = .ctrlRegset index b1) ∧
      (s.vdp.writePending = false → b0.toNat / 2 ^ 6 ≠ 2 →
        ∃ lo, i = .ctrlAddr1Cd00 lo ∨ i = .ctrlAddr1Cd01 lo ∨ i = .ctrlAddr1Cd11 lo))

/-- CTRL.REGSET (R171; out of range nothing is stored, decision D12, and no address or code bit changes, decision D13): the named
register takes the value, every other register and everything else is as before. -/
def Obligations.RegisterSetStoresOneRegister : Prop :=
  ∀ (index : BitVec 6) (value : Byte) (s : State), s.accepts →
    ∃ registers : Vector Byte 24,
      exec (.ctrlRegset index value) s
        = .next { s with vdp := { s.vdp with registers := registers }, response := .ok } ∧
      ∀ (j : Nat) (h : j < 24), registers[j] = if j = index.toNat then value else s.vdp.registers[j]

/-- CTRL.ADDR1 (R172; field writes are decision D14): the code's low 2 bits and the address's low 14 bits are written, the bits above
kept, the phase becomes pending; nothing else changes. -/
def Obligations.PhaseOneWritesLowFields : Prop :=
  ∀ (lo : BitVec 14) (s : State), s.accepts →
    let after (cd : BitVec 2) (r : Result) : Prop := ∃ code address : Half,
      r = .next { s with
        vdp := { s.vdp with codeReg := code, addressReg := address, writePending := true }
        response := .ok } ∧
      code.toNat % 2 ^ 2 = cd.toNat ∧ code.toNat / 2 ^ 2 = s.vdp.codeReg.toNat / 2 ^ 2 ∧
      address.toNat % 2 ^ 14 = lo.toNat ∧ address.toNat / 2 ^ 14 = s.vdp.addressReg.toNat / 2 ^ 14
    after 0b00#2 (exec (.ctrlAddr1Cd00 lo) s) ∧ after 0b01#2 (exec (.ctrlAddr1Cd01 lo) s) ∧
      after 0b11#2 (exec (.ctrlAddr1Cd11 lo) s)

/-- CTRL.ADDR2 (R173; decision D15): code bits 5:2 and address bits 15:14 are written, every other bit kept, the ignored fields have
no effect, the phase becomes idle; nothing else changes. -/
def Obligations.PhaseTwoWritesHighFields : Prop :=
  ∀ (x : Byte) (cdHi : BitVec 4) (y addrHi : BitVec 2) (s : State), s.accepts →
    ∃ code address : Half,
      exec (.ctrlAddr2 x cdHi y addrHi) s = .next { s with
        vdp := { s.vdp with codeReg := code, addressReg := address, writePending := false }
        response := .ok } ∧
      code.toNat % 2 ^ 2 = s.vdp.codeReg.toNat % 2 ^ 2 ∧ code.toNat / 2 ^ 2 % 2 ^ 4 = cdHi.toNat ∧
      code.toNat / 2 ^ 6 = s.vdp.codeReg.toNat / 2 ^ 6 ∧
      address.toNat % 2 ^ 14 = s.vdp.addressReg.toNat % 2 ^ 14 ∧ address.toNat / 2 ^ 14 = addrHi.toNat

/-- A complete address set in one 4-byte write selects the code and the address (R79, R86): from idle, whatever the registers held, for every
code whose low 2 bits are not 10, the others being out of reach (R79). That both phases are field writes, which keep code_reg[15:6] and take nothing from
the ignored bits, is decision D14 and D15 (log entry 20). -/
def Obligations.AddressSetSelectsCodeAndAddress : Prop :=
  ∀ (base : Addr) (c : BitVec 6) (a : Half) (s : State) (last : Addr), s.accepts → TableOk s.table →
    base.toNat + 4 ≤ last.toNat → (⟨base, last, .vdp⟩ : Mapping) ∈ s.table → s.vdp.writePending = false →
    c.extractLsb' 0 2 ≠ 0b10#2 →
    ∃ code : Half, exec (pseudoSetAddr base c a) s = .next { s with
        vdp := { s.vdp with codeReg := code, addressReg := a }
        response := .transfer ⟨4, [], none⟩ } ∧
      code.toNat % 2 ^ 6 = c.toNat ∧ code.toNat / 2 ^ 6 = s.vdp.codeReg.toNat / 2 ^ 6

/-- What the expansions of R86 do on a VDP mapped at its base, by the rules of the operations they expand to, reached through the bus (R104, R105): SETREG
stores one register (R171), VRAMWRITE selects a VRAM write at an address (R172, R173; field writes, decisions D14 and D15, log entry 20), ABORT forces idle
and returns the status (R152), PUT of a word with VRAM selected stores its two bytes at the address and the next, with no wrap at 0xFFFF (R191, R194;
decision D17, log entry 25). -/
def Obligations.PseudoOperationsExpand : Prop :=
  ∀ (base last : Addr) (s : State), s.accepts → TableOk s.table → base.toNat + 4 ≤ last.toNat →
    (⟨base, last, .vdp⟩ : Mapping) ∈ s.table →
    (∀ (i : BitVec 6) (v : Byte) (h : i.toNat < 24), s.vdp.writePending = false →
      exec (pseudoSetReg base i v) s = .next { s with
        vdp := { s.vdp with registers := s.vdp.registers.set i.toNat v h }
        response := .transfer ⟨2, [], none⟩ }) ∧
    (∀ a : Half, s.vdp.writePending = false → ∃ code : Half,
      exec (pseudoVramWrite base a) s = .next { s with
        vdp := { s.vdp with codeReg := code, addressReg := a }
        response := .transfer ⟨4, [], none⟩ } ∧
      code.toNat % 2 ^ 6 = 1 ∧ code.toNat / 2 ^ 6 = s.vdp.codeReg.toNat / 2 ^ 6) ∧
    exec (pseudoAbort base) s = .next { s with
      vdp := { s.vdp with writePending := false }
      response := .transfer ⟨2, bytes16 s.vdp.status, none⟩ } ∧
    (∀ w : Half, s.vdp.vram.wf → s.vdp.vram.size = vramSize → s.vdp.codeReg.toNat % 16 = 1 → ∃ vram : Buffer,
      exec (pseudoPut base w) s = .next { s with
        vdp := { s.vdp with writePending := false, vram := vram }
        response := .transfer ⟨2, [], none⟩ } ∧
      (vram.byte s.vdp.addressReg.toNat).toNat = w.toNat / 2 ^ 8 ∧
      (vram.byte (s.vdp.addressReg.toNat + 1)).toNat = w.toNat % 2 ^ 8 ∧
      ∀ k, k ≠ s.vdp.addressReg.toNat → k ≠ s.vdp.addressReg.toNat + 1 → vram.byte k = s.vdp.vram.byte k)

/-- The document's two properties (R177): from idle, the writes `[0x40,0x00]` and `[0x00,0x00]` leave `address_reg` 0 and the low 2 bits of
`code_reg` 1, and `[0x80,0xAB]` sets `registers[0]` to 0xAB without altering `write_pending`; a status read clears `write_pending` even mid-sequence, and a
control write then is phase 1, not phase 2. -/
def Obligations.ControlPortPropertiesOfTheSource : Prop :=
  ∀ s : State, s.accepts →
    (s.vdp.writePending = false →
      (∃ t u, exec (.vdpWr 0x04#32 [0x40#8, 0x00#8]) s = .next t ∧ exec (.vdpWr 0x04#32 [0x00#8, 0x00#8]) t = .next u ∧
        u.vdp.addressReg = 0#16 ∧ u.vdp.codeReg.toNat % 2 ^ 2 = 1) ∧
      (∃ t, exec (.vdpWr 0x04#32 [0x80#8, 0xAB#8]) s = .next t ∧ t.vdp.registers[0] = 0xAB#8 ∧
        t.vdp.writePending = s.vdp.writePending)) ∧
    (∃ t, exec (.vdpRd 0x04#32 2) s = .next t ∧ t.vdp.writePending = false ∧
      ∀ b0 b1 : Byte, b0.toNat / 2 ^ 6 ≠ 2 → ∃ u, exec (.vdpWr 0x04#32 [b0, b1]) t = .next u ∧
        u.vdp.writePending = true ∧ u.vdp.codeReg.toNat % 2 ^ 2 = b0.toNat / 2 ^ 6 ∧
        u.vdp.addressReg.toNat % 2 ^ 14 = b0.toNat % 2 ^ 6 * 2 ^ 8 + b1.toNat)

/-- The transition table of `write_pending` (R174): the events in idle and in pending, and that an operation on another device, also behind Mirrors,
Tracers or the bus, an access to an unmapped address, MAP and the calls of the software do not touch the VDP at all. -/
def Obligations.PhaseFollowsTransitionTable : Prop :=
  ∀ (s t : State),
    (∀ p b0 b1, exec (.ctrlWr p b0 b1) s = .next t →
      t.vdp.writePending = (!s.vdp.writePending && b0.extractLsb' 6 2 != 0b10#2)) ∧
    (∀ p, exec (.vdpStatus p) s = .next t → t.vdp.writePending = false) ∧
    (∀ b0 b1, exec (.dataWr b0 b1) s = .next t →
      t.vdp.writePending = (s.vdp.writePending && s.vdp.codeReg.toNat % 2 == 0)) ∧
    (∀ offset n, exec (.vdpRd offset n) s = .next t → (n ≠ 2 ∨ offset ∉ [0x04#32, 0x06#32]) →
      t.vdp.writePending = s.vdp.writePending) ∧
    (∀ offset b0 b1, exec (.vdpWr16 offset b0 b1) s = .next t →
      offset ∉ [0x00#32, 0x02#32, 0x04#32, 0x06#32] → t.vdp.writePending = s.vdp.writePending) ∧
    (∀ data, exec (.sysLoad data) s = .next t → t.vdp.writePending = false) ∧
    (∀ i, isSoftware i = true ∨ (∃ o n, i = .ramRd o n ∨ i = .romRd o n) ∨
        (∃ o v, i = .ramWr o v ∨ i = .romWr o v) ∨ (∃ k o n, i = .stubRd k o n) ∨ (∃ k o v, i = .stubWr k o v) ∨
        (∃ d a b, i = .map d a b) ∨
        (∃ p d o, reachesVdp d = false ∧ ((∃ n, i = .mirRd p d o n) ∨ ∃ v, i = .mirWr p d o v)) ∨
        (∃ l k d o, reachesVdp d = false ∧ ((∃ n, i = .trcRd l k d o n) ∨ ∃ v, i = .trcWr l k d o v)) ∨
        (∃ a, (∀ m ∈ s.table, m.first ≤ a → a ≤ m.last → reachesVdp m.device = false) ∧
          ((∃ n, i = .busRd a n) ∨ ∃ v, i = .busWr a v)) →
      exec i s = .next t → t.vdp = s.vdp)

/-! ## The data port and VRAM -/

/-- The outcome table of DATA.WR (R191, R192; the order of the steps is decision D16), on a VRAM of its full size and canonical: refused for its mode with
nothing changed; refused for its target with only the phase cleared; otherwise the two bytes at `address_reg` and the next address, every other
byte of VRAM as before. -/
def Obligations.DataWriteOutcomes : Prop :=
  ∀ (b0 b1 : Byte) (s : State), s.accepts → s.vdp.vram.wf → s.vdp.vram.size = vramSize →
    (s.vdp.codeReg.toNat % 2 = 0 →
      exec (.dataWr b0 b1) s
        = .next { s with response := .error (.unsupportedOperation .operationMismatch) }) ∧
    (s.vdp.codeReg.toNat % 2 = 1 → s.vdp.codeReg.toNat / 2 % 8 ≠ 0 →
      exec (.dataWr b0 b1) s = .next { s with
        vdp := { s.vdp with writePending := false }
        response := .error (.unsupportedOperation .unsupportedTarget) }) ∧
    (s.vdp.codeReg.toNat % 2 = 1 → s.vdp.codeReg.toNat / 2 % 8 = 0 → ∃ vram : Buffer,
      exec (.dataWr b0 b1) s = .next { s with
        vdp := { s.vdp with writePending := false, vram := vram }
        response := .ok } ∧
      vram.byte s.vdp.addressReg.toNat = b0 ∧ vram.byte (s.vdp.addressReg.toNat + 1) = b1 ∧
      ∀ k, k ≠ s.vdp.addressReg.toNat → k ≠ s.vdp.addressReg.toNat + 1 → vram.byte k = s.vdp.vram.byte k)

/-- VRAM.WR16 (R194; no wrap at 0xFFFF and no swap at odd addresses, decision D17): two bytes stored, nothing else changed, and no
failure. -/
def Obligations.VramWordStore : Prop :=
  ∀ (a : Half) (b0 b1 : Byte) (s : State), s.accepts → s.vdp.vram.wf → s.vdp.vram.size = vramSize →
    ∃ vram : Buffer,
      exec (.vramWr16 a b0 b1) s = .next { s with vdp := { s.vdp with vram := vram }, response := .ok } ∧
      vram.byte a.toNat = b0 ∧ vram.byte (a.toNat + 1) = b1 ∧
      ∀ k, k ≠ a.toNat → k ≠ a.toNat + 1 → vram.byte k = s.vdp.vram.byte k

/-- Reads have no side effect but on the phase flag, which a read can only clear, and the trace log, which it can only extend
(R52). -/
def Obligations.ReadsChangeOnlyPhaseAndLog : Prop :=
  ∀ (i : Instr) (s t : State), isRead i = true → exec i s = .next t →
    ∃ (p : Bool) (rs : List TraceRecord) (x : Xfer),
      t = { s with vdp := { s.vdp with writePending := p }, traceLog := s.traceLog ++ rs, response := .transfer x } ∧
      (p = true → s.vdp.writePending = true)

/-- `status` is written by nothing but a reset (R18). -/
def Obligations.StatusNeverWritten : Prop :=
  ∀ (i : Instr) (s t : State), exec i s = .next t → t.vdp.status = s.vdp.status ∨
    (∃ cfg, i = .sysConstruct cfg ∧ t.vdp.status = cfg.statusReset) ∨
    (∃ data, i = .sysLoad data ∧ t.vdp.status = s.cfg.statusReset)

/-- Which errors an operation can return: every row of R256 (kinds: R250), and the operations R256 says never fail, on a VRAM of its full size. The bus
adds AccessViolation(addr) of an unmapped address, a Mirror and a Tracer add nothing, and otherwise each passes on what the inner device raises. -/
def Obligations.ErrorsOfEachOperation : Prop :=
  ∀ (s : State) (e : Err), s.vdp.vram.size = vramSize →
    let fails (i : Instr) : Prop := ∃ t, exec i s = .next t ∧
      (t.response = .error e ∨ ∃ x, t.response = .transfer x ∧ x.err = some e)
    let mode : Prop := e = .unsupportedOperation .operationMismatch ∨ e = .unsupportedOperation .unsupportedTarget
    (∀ a n, fails (.busRd a n) → (lookup s.table a = none ∧ e = .accessViolation a) ∨
      ∃ m, lookup s.table a = some m ∧ (devRead m.device (a - m.first) n s).2.err = some e) ∧
    (∀ a v, fails (.busWr a v) → (lookup s.table a = none ∧ e = .accessViolation a) ∨
      ∃ m, lookup s.table a = some m ∧ (devWrite m.device (a - m.first) v s).2.err = some e) ∧
    (∀ p d o n, fails (.mirRd p d o n) → (devRead d (o % p) n s).2.err = some e) ∧
    (∀ p d o v, fails (.mirWr p d o v) → (devWrite d (o % p) v s).2.err = some e) ∧
    (∀ l k d o n, fails (.trcRd l k d o n) → (devRead d o n s).2.err = some e) ∧
    (∀ l k d o v, fails (.trcWr l k d o v) → (devWrite d o v s).2.err = some e) ∧
    (∀ d o n, (devRead d o n s).2.err = some e →
      (∃ a, e = .accessViolation a) ∨ e = .endOfData ∨ e = .unsupportedOperation .readNotSpecified) ∧
    (∀ d o v, (devWrite d o v s).2.err = some e → (∃ a, e = .accessViolation a) ∨ e = .shortWrite ∨ mode) ∧
    (∀ o n, fails (.ramRd o n) → e = .accessViolation o) ∧
    (∀ o v, fails (.ramWr o v) → e = .accessViolation o ∨ e = .shortWrite) ∧
    (∀ o n, fails (.romRd o n) → e = .endOfData) ∧
    (∀ o v, fails (.romWr o v) → e = .accessViolation o ∨ e = .shortWrite) ∧
    (∀ o n, fails (.vdpRd o n) → e = .accessViolation o ∨ e = .unsupportedOperation .readNotSpecified) ∧
    (∀ o v, fails (.vdpWr o v) → (∃ a, e = .accessViolation a) ∨ mode) ∧
    (∀ o b0 b1, fails (.vdpWr16 o b0 b1) → e = .accessViolation o ∨ mode) ∧
    (∀ b0 b1, fails (.dataWr b0 b1) → mode) ∧
    (∀ i, ((∃ k o n, i = .stubRd k o n) ∨ (∃ k o v, i = .stubWr k o v) ∨ (∃ p, i = .vdpStatus p) ∨
        (∃ p b0 b1, i = .ctrlWr p b0 b1) ∨ (∃ j v, i = .ctrlRegset j v) ∨
        (∃ lo, i = .ctrlAddr1Cd00 lo ∨ i = .ctrlAddr1Cd01 lo ∨ i = .ctrlAddr1Cd11 lo) ∨
        (∃ a b c d, i = .ctrlAddr2 a b c d) ∨ ∃ a b0 b1, i = .vramWr16 a b0 b1) → ¬fails i)

/-! ## The System -/

/-- SYS.CONSTRUCT (R233, R231): with a configuration that passes its check and ranges that do not meet, the table is the System's map and
every device is reset (the values: decisions D18, D19); with two ranges that meet it is RangeOverlap, which is fatal (R233, R285). The MODEL'S CHOICE is
that the failed System holds the new configuration (log entry 15), that no ROM is held after construction (entry 9), and that a configuration which
breaks R232 is refused (entry 14): R232 gives constraints and names no result. Also its choice is that the trace log stays as it was, with and
without a trace sink: SYS.CONSTRUCT appends no lifecycle line, where R25 read literally gives them after either reset event (entry 19). -/
def Obligations.ConstructBuildsMap : Prop :=
  ∀ (c : Config) (s : State),
    let table : List Mapping := ⟨c.ramFirst, c.ramLast, tracedDevice c.ramTracer c.traceSink (.mirror c.ramSize .ram)⟩
      :: ⟨c.vdpBase, c.vdpBase + BitVec.ofNat 32 (c.vdpWindow - 1), tracedDevice c.vdpTracer c.traceSink .vdp⟩
      :: c.stubs
    (c.wf = true → table.Pairwise (fun m k => m.last < k.first ∨ k.last < m.first) →
      ∃ t, exec (.sysConstruct c) s = .next t ∧
      t.response = .ok ∧ t.table = table ∧ t.cfg = c ∧ t.halted = false ∧ t.boot = .constructed ∧
      t.vdp.writePending = false ∧ t.vdp.codeReg = 0#16 ∧ t.vdp.addressReg = 0#16 ∧
      (∀ (j : Nat) (h : j < 24), t.vdp.registers[j] = 0#8) ∧ t.vdp.status = c.statusReset ∧
      t.ram.size = c.ramSize.toNat ∧ t.vdp.vram.size = vramSize ∧ t.rom.size = 0 ∧ t.traceLog = s.traceLog ∧
      (∀ a, a < c.ramSize.toNat → t.ram.byte a = (c.ramInit[a]?).getD 0#8) ∧
      (∀ a, a < vramSize → t.vdp.vram.byte a = (c.vramInit[a]?).getD 0#8)) ∧
    (c.wf = true → ¬table.Pairwise (fun m k => m.last < k.first ∨ k.last < m.first) →
      ∃ t, exec (.sysConstruct c) s = .next t ∧ t.response = .error .rangeOverlap ∧ t.boot = .fatal ∧ t.cfg = c) ∧
    (c.wf = false → ∃ why, exec (.sysConstruct c) s = .refused (.illFormed why))

/-- SYS.LOAD (R236, R237, R283; decisions D18 to D21): with at least 8 bytes of ROM and a cartridge window that meets no other range, the ROM is
mapped there in place of an earlier one, the devices are reset, the halt is cleared, and the first two big-endian words are handed over. What the trace
log gains is the MODEL'S CHOICE (log entries 19 and 36): the records of the two reads when the cartridge is traced into a sink, then three lifecycle records
when the sink is present. A range that meets the window: RangeOverlapIsFatal. -/
def Obligations.LoadInstallsRom : Prop :=
  ∀ (s : State) (d0 d1 d2 d3 d4 d5 d6 d7 : Byte) (rest : List Byte), s.boot ≠ .fatal → TableOk s.table →
    RomWindowFree s.table →
    let reads : List TraceRecord := match s.cfg.romTracer with
      | none => []
      | some l => if s.cfg.traceSink then [.read l 0#32 4, .read l 4#32 4] else []
    ∃ (sp pc : BitVec 32) (t : State),
      exec (.sysLoad (d0 :: d1 :: d2 :: d3 :: d4 :: d5 :: d6 :: d7 :: rest)) s = .next t ∧
      sp.toNat = ((d0.toNat * 256 + d1.toNat) * 256 + d2.toNat) * 256 + d3.toNat ∧
      pc.toNat = ((d4.toNat * 256 + d5.toNat) * 256 + d6.toNat) * 256 + d7.toNat ∧
      t.boot = .loaded sp pc ∧ t.response = .ok ∧ t.halted = false ∧ t.running = false ∧ t.cfg = s.cfg ∧
      t.table = s.table.filter (fun m => !(m.first == romFirst && m.last == romLast))
        ++ [⟨romFirst, romLast, tracedDevice s.cfg.romTracer s.cfg.traceSink .rom⟩] ∧
      t.rom.size = 8 + rest.length ∧
      (∀ a, t.rom.byte a = ((d0 :: d1 :: d2 :: d3 :: d4 :: d5 :: d6 :: d7 :: rest)[a]?).getD 0#8) ∧
      t.vdp = Vdp.reset s.cfg.statusReset (initialCells vramSize s.cfg.vramInit) ∧
      t.ram = { size := s.cfg.ramSize.toNat, cells := initialCells s.cfg.ramSize.toNat s.cfg.ramInit } ∧
      t.traceLog = s.traceLog ++ reads ++ (if s.cfg.traceSink then [.reset, .load, .entry] else []) ∧
      t.inbox = s.inbox ∧ t.executor = s.executor

/-- SYS.LOAD of a ROM shorter than 8 bytes fails, with EndOfData when a word starts beyond the data and as a short read otherwise, and SYS.RUN then
stops: the System is not runnable (R237; decision D22). -/
def Obligations.LoadOfShortRomFails : Prop :=
  ∀ (s : State) (data : List Byte), s.boot ≠ .fatal → TableOk s.table → RomWindowFree s.table → data.length < 8 →
    ∃ t, exec (.sysLoad data) s = .next t ∧ t.boot = .failed ∧ t.halted = false ∧
      (data.length = 0 ∨ data.length = 4 → t.response = .error .endOfData) ∧
      (data.length ≠ 0 ∧ data.length ≠ 4 → t.response = .shortVector (data.length % 4)) ∧
      exec .sysRun t = .fault .notRunnable

/-- SYS.RUN (R238, R262): the executor's next access is made; its first error sets `halted`, ends Run and is what Run returns; without an error Run goes
on; termination ends Run with Ok and the executor's own error halts and ends it. The MODEL'S CHOICE is that one step makes one access, that the moves
are a list, that Run goes on when none is left, and the answer executorError (log entry 11); that a System constructed and never loaded runs is read
from R238 (entry 16), and so is that one under construction or whose Load failed does not (entries 16 and 33). -/
def Obligations.RunStopsAtFirstError : Prop :=
  ∀ (s : State) (rest : List ExecutorMove), s.halted = false →
    (s.boot = .constructed ∨ ∃ sp pc, s.boot = .loaded sp pc) →
    (s.executor = [] → exec .sysRun s = .next { s with running := true }) ∧
    (s.executor = .terminate :: rest →
      exec .sysRun s = .next { s with executor := rest, running := false, response := .ok }) ∧
    (s.executor = .fail :: rest → exec .sysRun s
      = .next { s with executor := rest, halted := true, running := false, response := .executorError }) ∧
    (∀ addr n, s.executor = .read addr n :: rest → n ≠ 0 → ∃ t x,
      exec (.busRd addr n) { s with executor := rest } = .next t ∧ t.response = .transfer x ∧
      exec .sysRun s = .next { t with halted := x.err.isSome, running := x.err.isNone }) ∧
    (∀ addr v, s.executor = .write addr v :: rest → v ≠ [] → ∃ t x,
      exec (.busWr addr v) { s with executor := rest } = .next t ∧ t.response = .transfer x ∧
      exec .sysRun s = .next { t with halted := x.err.isSome, running := x.err.isNone })

/-- After the halt no transaction is accepted, of the bus, of a device or of a port, nor SYS.RUN (R263): each stops, with the fault `halted` (which
operations count as transactions: log entry 12). -/
def Obligations.HaltedAcceptsNoTransaction : Prop :=
  ∀ (i : Instr) (s : State), s.halted = true → i.wf = true → isSoftware i = false → isSetup i = false →
    exec i s = .fault .halted

/-! ## The ROM header software -/

/-- The header accessors (R211, R212): each field at its place with its decode, on every ROM that holds the whole field, and nothing but the answer
changes. -/
def Obligations.HeaderFieldsAtTheirPlaces : Prop :=
  ∀ s : State,
    let text (first width : Nat) (r : Result) : Prop := ∃ b : List Byte,
      r = .next { s with response := .text b } ∧ b.length = width ∧
      ∀ i, i < width → b[i]? = some (s.rom.byte (first + i))
    let squeezed (first width : Nat) (r : Result) : Prop := ∃ b : List Byte,
      r = .next { s with response := .text (collapse b) } ∧ b.length = width ∧
      ∀ i, i < width → b[i]? = some (s.rom.byte (first + i))
    let word (first : Nat) (r : Result) : Prop := ∃ w : BitVec 32,
      r = .next { s with response := .word32 w } ∧
      w.toNat = (((s.rom.byte first).toNat * 256 + (s.rom.byte (first + 1)).toNat) * 256
        + (s.rom.byte (first + 2)).toNat) * 256 + (s.rom.byte (first + 3)).toNat
    (0x110 ≤ s.rom.size → squeezed 0x100 16 (exec .hdrConsoleName s)) ∧
    (0x120 ≤ s.rom.size → squeezed 0x110 16 (exec .hdrCopyright s)) ∧
    (0x150 ≤ s.rom.size → squeezed 0x120 48 (exec .hdrDomesticTitle s)) ∧
    (0x180 ≤ s.rom.size → squeezed 0x150 48 (exec .hdrOverseasTitle s)) ∧
    (0x182 ≤ s.rom.size → text 0x180 2 (exec .hdrProductType s)) ∧
    (0x18E ≤ s.rom.size → text 0x182 12 (exec .hdrProductCode s)) ∧
    (0x1A4 ≤ s.rom.size → word 0x1A0 (exec .hdrProgramStart s)) ∧
    (0x1A8 ≤ s.rom.size → word 0x1A4 (exec .hdrProgramEnd s)) ∧
    (0x1AC ≤ s.rom.size → word 0x1A8 (exec .hdrRamStart s)) ∧
    (0x1B0 ≤ s.rom.size → word 0x1AC (exec .hdrRamEnd s)) ∧
    (0x190 ≤ s.rom.size → ∃ w : Half, exec .hdrChecksum s = .next { s with response := .word16 w } ∧
      w.toNat = (s.rom.byte 0x18E).toNat * 256 + (s.rom.byte 0x18F).toNat)

/-- SPACECOLLAPSE (R213): byte `i` is dropped exactly when it is a space and byte `i + 1` is a space. -/
def Obligations.SpaceCollapseDropsByIndex : Prop :=
  ∀ (b : List Byte) (s : State),
    exec (.spaceCollapse b) s = .next { s with response := .text ((List.range b.length).filterMap
      (fun i => if b[i]? = some 0x20#8 ∧ b[i + 1]? = some 0x20#8 then none else b[i]?)) }

/-- The property of R214: no two consecutive spaces are left, and the bytes that are no spaces are kept in order. -/
def Obligations.SpaceCollapseLeavesSingleSpaces : Prop :=
  ∀ b : List Byte,
    (∀ i : Nat, (collapse b)[i]? = some 0x20#8 → (collapse b)[i + 1]? ≠ some 0x20#8) ∧
    (collapse b).filter (fun c => c != 0x20#8) = b.filter (fun c => c != 0x20#8)

/-- REGIONS, also as the header accessor of the region codes (R216): the table, byte by byte in order, unknown bytes skipped. -/
def Obligations.RegionsInByteOrder : Prop :=
  ∀ s : State, 0x1F3 ≤ s.rom.size →
    let name (c : Byte) : List Region :=
      if c = 0x45#8 then [.europe] else if c = 0x4A#8 then [.japan] else if c = 0x41#8 then [.asia]
      else if c = 0x42#8 ∨ c = 0x04#8 then [.brazil] else if c = 0x46#8 then [.france]
      else if c = 0x08#8 then [.hongKong] else []
    let t : State := { s with
      response := .regions (name (s.rom.byte 0x1F0) ++ name (s.rom.byte 0x1F1) ++ name (s.rom.byte 0x1F2)) }
    exec .regions s = .next t ∧ exec .hdrRegions s = .next t

/-- CHECKSUM (R219; the loop bound is decision D26): Ok exactly when the big-endian words from 0x200 to the second-to-last byte sum to the stored
checksum modulo 0x10000. -/
def Obligations.ChecksumComparesWordSum : Prop :=
  ∀ s : State, 0x190 ≤ s.rom.size →
    let words := (s.rom.size - 0x200) / 2
    let sum := ((List.range words).map (fun k =>
      (s.rom.byte (0x200 + 2 * k)).toNat * 256 + (s.rom.byte (0x200 + 2 * k + 1)).toNat)).sum % 0x10000
    exec .checksum s = .next { s with
      response := if sum = (s.rom.byte 0x18E).toNat * 256 + (s.rom.byte 0x18F).toNat then .ok
        else .error .invalidChecksum }

/-- The checksum property (R220): when CHECKSUM succeeds, changing any one byte inside a summed word, by a ROM.WR, makes it
fail. -/
def Obligations.ChecksumDetectsOneByte : Prop :=
  ∀ (s t u : State) (offset : Addr) (b : Byte), s.rom.wf → exec .checksum s = .next t → t.response = .ok →
    0x200 ≤ offset.toNat → offset.toNat < 0x200 + 2 * ((s.rom.size - 0x200) / 2) → b ≠ s.rom.byte offset.toNat →
    exec (.romWr offset [b]) s = .next u →
    exec .checksum u = .next { u with response := .error .invalidChecksum }

/-- On a ROM too short for the field an accessor, REGIONS and CHECKSUM are refused (decision D25). -/
def Obligations.ShortRomIsRefused : Prop :=
  ∀ s : State,
    (∀ p ∈ [(Instr.hdrConsoleName, 0x110), (.hdrCopyright, 0x120), (.hdrDomesticTitle, 0x150),
        (.hdrOverseasTitle, 0x180), (.hdrProductType, 0x182), (.hdrProductCode, 0x18E), (.hdrChecksum, 0x190),
        (.hdrProgramStart, 0x1A4), (.hdrProgramEnd, 0x1A8), (.hdrRamStart, 0x1AC), (.hdrRamEnd, 0x1B0),
        (.hdrRegions, 0x1F3), (.regions, 0x1F3), (.checksum, 0x190)],
      s.rom.size < p.2 → exec p.1 s = .refused .romTooShort)

/-- The software writes no state: only the answer changes (R210). That it is no transaction, so that neither the halt nor a failed construction stops it,
is the MODEL'S CHOICE (log entry 12). -/
def Obligations.SoftwareWritesNothing : Prop :=
  ∀ (i : Instr) (s t : State), isSoftware i = true → exec i s = .next t →
    t = { s with response := t.response } ∧
    ∀ (h : Bool) (b : Boot), exec i { s with halted := h, boot := b } = .next { t with halted := h, boot := b }

/-! ## Devices as functions, what the decoder refuses, and the fatal overlap -/

/-- The operations of the devices are the functions devRead and devWrite, in whose terms the bus, the Mirror and the Tracer are stated (R8, R120): each kind of
device answers its own operation and no other. -/
def Obligations.DeviceOperationsAreDeviceAccess : Prop :=
  ∀ (offset : Addr) (s : State), s.accepts →
    (∀ n, n ≠ 0 →
      let gives (i : Instr) (d : Device) : Prop := exec i s = .next
        { (devRead d offset n s).1 with response := .transfer (devRead d offset n s).2 }
      gives (.ramRd offset n) .ram ∧ gives (.romRd offset n) .rom ∧ gives (.vdpRd offset n) .vdp ∧
      (∀ k, gives (.stubRd k offset n) (.stub k)) ∧
      (∀ p d, p ≠ 0#32 → d.wf = true → gives (.mirRd p d offset n) (.mirror p d)) ∧
      (∀ l k d, d.wf = true → gives (.trcRd l k d offset n) (.tracer l k d))) ∧
    (∀ v, v ≠ [] →
      let gives (i : Instr) (d : Device) : Prop := exec i s = .next
        { (devWrite d offset v s).1 with response := .transfer (devWrite d offset v s).2 }
      gives (.ramWr offset v) .ram ∧ gives (.romWr offset v) .rom ∧ gives (.vdpWr offset v) .vdp ∧
      (∀ k, gives (.stubWr k offset v) (.stub k)) ∧
      (∀ p d, p ≠ 0#32 → d.wf = true → gives (.mirWr p d offset v) (.mirror p d)) ∧
      (∀ l k d, d.wf = true → gives (.trcWr l k d offset v) (.tracer l k d)))

/-- What the decoder refuses: a read that carries a payload and a write whose `n` is not its payload's length (R70), and the encoding of every operation that
is not admitted, by the reason that it is not (R50, decisions D2, D3; log entries 10 and 14); what it yields is admitted. -/
def Obligations.DecoderRefusesWhatIsNotAdmitted : Prop :=
  (∀ (p : Bool) (dir : Dir) (a : Addr) (d : Device) (n : Nat) (bytes : List Byte),
    (dir = .read ∧ bytes ≠ []) ∨ (dir = .write ∧ n ≠ bytes.length) →
    decode p (.txn dir a n bytes) = .error .lengthMismatch ∧ decode p (.dev d dir a n bytes) = .error .lengthMismatch) ∧
  (∀ (i : Instr) (why : IllFormed), i.check = some why → decode (phaseOf i) (encode i) = .error (.illFormed why)) ∧
  (∀ (p : Bool) (r : Request) (i : Instr), decode p r = .ok i → i.wf = true)

/-- A RangeOverlap is fatal at startup and never occurs at runtime (R255, R285). SYS.LOAD whose MAP meets another range fails with it (R236, R102), having
reset the devices, put in the ROM and taken the old cartridge mapping away, with `halted` as it was (the order: log entry 34). After a RangeOverlap every
operation but SYS.CONSTRUCT and the software stops (log entries 12 and 33). Where ROM_WINDOW is free, as it is in every constructed System (StepKeepsInvariant),
SYS.LOAD does not raise it. -/
def Obligations.RangeOverlapIsFatal : Prop :=
  (∀ (s : State) (data : List Byte) (m : Mapping), s.boot ≠ .fatal → m ∈ s.table → m.first ≤ m.last →
    ¬(m.first = romFirst ∧ m.last = romLast) → m.first ≤ romLast →
    ∃ rom : Buffer, exec (.sysLoad data) s = .next { s with
        vdp := Vdp.reset s.cfg.statusReset (initialCells vramSize s.cfg.vramInit)
        ram := { size := s.cfg.ramSize.toNat, cells := initialCells s.cfg.ramSize.toNat s.cfg.ramInit }
        rom := rom
        table := s.table.filter (fun m => !(m.first == romFirst && m.last == romLast))
        running := false
        boot := .fatal
        response := .error .rangeOverlap } ∧
      rom.size = data.length ∧ ∀ a, rom.byte a = (data[a]?).getD 0#8) ∧
  (∀ (i : Instr) (s : State), s.boot = .fatal → s.halted = false → isSoftware i = false → (∀ c, i ≠ .sysConstruct c) →
    exec i s = .fault .startupFailed) ∧
  (∀ (s t : State) (data : List Byte), RomWindowFree s.table → exec (.sysLoad data) s = .next t →
    t.response ≠ .error .rangeOverlap ∧ t.boot ≠ .fatal)
end

