-- ==== Sys2Proof/Laws/Bits.lean ====
section
/-! SUPPORT. Bits of the concatenations the encodings use, at the widths they have, so that simp can use them. -/

namespace Sys2Proof

@[simp] theorem getLsbD_append_14_2 (x : BitVec 14) (y : BitVec 2) (k : Nat) :
    BitVec.getLsbD (w := 16) (x ++ y) k = if k < 2 then y.getLsbD k else x.getLsbD (k - 2) := by
  rw [← BitVec.getLsbD_append]

@[simp] theorem getLsbD_append_2_14 (x : BitVec 2) (y : BitVec 14) (k : Nat) :
    BitVec.getLsbD (w := 16) (x ++ y) k = if k < 14 then y.getLsbD k else x.getLsbD (k - 14) := by
  rw [← BitVec.getLsbD_append]

@[simp] theorem getLsbD_append_8_8 (x y : BitVec 8) (k : Nat) :
    BitVec.getLsbD (w := 16) (x ++ y) k = if k < 8 then y.getLsbD k else x.getLsbD (k - 8) := by
  rw [← BitVec.getLsbD_append]

@[simp] theorem getLsbD_append_6_8 (x : BitVec 6) (y : BitVec 8) (k : Nat) :
    BitVec.getLsbD (w := 14) (x ++ y) k = if k < 8 then y.getLsbD k else x.getLsbD (k - 8) := by
  rw [← BitVec.getLsbD_append]

@[simp] theorem getLsbD_append_2_6 (x : BitVec 2) (y : BitVec 6) (k : Nat) :
    BitVec.getLsbD (w := 8) (x ++ y) k = if k < 6 then y.getLsbD k else x.getLsbD (k - 6) := by
  rw [← BitVec.getLsbD_append]

@[simp] theorem getLsbD_append_10_4_2 (x : BitVec 10) (y : BitVec 4) (z : BitVec 2) (k : Nat) :
    BitVec.getLsbD (w := 16) (x ++ y ++ z) k
      = if k < 2 then z.getLsbD k else if k < 6 then y.getLsbD (k - 2) else x.getLsbD (k - 6) := by
  rw [show BitVec.getLsbD (w := 16) (x ++ y ++ z) k = BitVec.getLsbD (x ++ y ++ z) k from rfl]
  simp only [BitVec.getLsbD_append]
  split
  · rfl
  · rw [show k - 2 - 4 = k - 6 by omega]
    by_cases h : k < 6
    · simp [h, show k - 2 < 4 by omega]
    · simp [h, show ¬ k - 2 < 4 by omega]

@[simp] theorem getLsbD_append_4_2_2 (x : BitVec 4) (y z : BitVec 2) (k : Nat) :
    BitVec.getLsbD (w := 8) (x ++ y ++ z) k
      = if k < 2 then z.getLsbD k else if k < 4 then y.getLsbD (k - 2) else x.getLsbD (k - 4) := by
  rw [show BitVec.getLsbD (w := 8) (x ++ y ++ z) k = BitVec.getLsbD (x ++ y ++ z) k from rfl]
  simp only [BitVec.getLsbD_append]
  split
  · rfl
  · rw [show k - 2 - 2 = k - 4 by omega]
    by_cases h : k < 4
    · simp [h, show k - 2 < 2 by omega]
    · simp [h, show ¬ k - 2 < 2 by omega]

@[simp] theorem getLsbD_append_2_6_8 (x : BitVec 2) (y : BitVec 6) (z : BitVec 8) (k : Nat) :
    BitVec.getLsbD (w := 16) (x ++ y ++ z) k
      = if k < 8 then z.getLsbD k else if k < 14 then y.getLsbD (k - 8) else x.getLsbD (k - 14) := by
  rw [show BitVec.getLsbD (w := 16) (x ++ y ++ z) k = BitVec.getLsbD (x ++ y ++ z) k from rfl]
  simp only [BitVec.getLsbD_append]
  split
  · rfl
  · rw [show k - 8 - 6 = k - 14 by omega]
    by_cases h : k < 14
    · simp [h, show k - 8 < 6 by omega]
    · simp [h, show ¬ k - 8 < 6 by omega]

@[simp] theorem getLsbD_append_8_4_2_2 (x : BitVec 8) (y : BitVec 4) (z u : BitVec 2) (k : Nat) :
    BitVec.getLsbD (w := 16) (x ++ y ++ z ++ u) k
      = if k < 2 then u.getLsbD k else if k < 4 then z.getLsbD (k - 2) else if k < 8 then y.getLsbD (k - 4)
        else x.getLsbD (k - 8) := by
  rw [show BitVec.getLsbD (w := 16) (x ++ y ++ z ++ u) k = BitVec.getLsbD (x ++ y ++ z ++ u) k from rfl]
  simp only [BitVec.getLsbD_append]
  split
  · rfl
  · by_cases h : k < 4
    · simp [h, show k - 2 < 2 by omega]
    · rw [show k - 2 - 2 = k - 4 by omega, show k - 4 - 4 = k - 8 by omega]
      by_cases h8 : k < 8
      · simp [h, h8, show ¬ k - 2 < 2 by omega, show k - 4 < 4 by omega]
      · simp [h, h8, show ¬ k - 2 < 2 by omega, show ¬ k - 4 < 4 by omega]

/-! ## Concatenations as numbers -/

theorem toNat_append_2_14 (x : BitVec 2) (y : BitVec 14) :
    (x ++ y : BitVec 16).toNat = x.toNat * 2 ^ 14 + y.toNat := by
  rw [show BitVec.toNat (w := 16) (x ++ y) = (x ++ y).toNat from rfl, BitVec.toNat_append,
    ← Nat.shiftLeft_add_eq_or_of_lt y.isLt, Nat.shiftLeft_eq]

theorem toNat_append_14_2 (x : BitVec 14) (y : BitVec 2) :
    (x ++ y : BitVec 16).toNat = x.toNat * 2 ^ 2 + y.toNat := by
  rw [show BitVec.toNat (w := 16) (x ++ y) = (x ++ y).toNat from rfl, BitVec.toNat_append,
    ← Nat.shiftLeft_add_eq_or_of_lt y.isLt, Nat.shiftLeft_eq]

theorem toNat_append_8_8 (x y : BitVec 8) : (x ++ y : BitVec 16).toNat = x.toNat * 2 ^ 8 + y.toNat := by
  rw [show BitVec.toNat (w := 16) (x ++ y) = (x ++ y).toNat from rfl, BitVec.toNat_append,
    ← Nat.shiftLeft_add_eq_or_of_lt y.isLt, Nat.shiftLeft_eq]

theorem toNat_append_10_4_2 (x : BitVec 10) (y : BitVec 4) (z : BitVec 2) :
    (x ++ y ++ z : BitVec 16).toNat = x.toNat * 2 ^ 6 + y.toNat * 2 ^ 2 + z.toNat := by
  rw [show BitVec.toNat (w := 16) (x ++ y ++ z) = (x ++ y ++ z).toNat from rfl, BitVec.toNat_append,
    ← Nat.shiftLeft_add_eq_or_of_lt z.isLt, Nat.shiftLeft_eq, BitVec.toNat_append,
    ← Nat.shiftLeft_add_eq_or_of_lt y.isLt, Nat.shiftLeft_eq]
  omega

end Sys2Proof
end

