-- ==== Sys2Proof/Laws/Memory.lean ====
section
/-! SUPPORT. What the memory and buffer operations do: reading back, leaving the rest alone, and keeping the canonical
form. -/

namespace Sys2Proof.Machine

/-! ## The canonical form -/

theorem Memory.wf_nil : Memory.wf [] := by simp [Memory.wf]

theorem Memory.wf_cons {c : Host.Cell} {m : Memory} :
    Memory.wf (c :: m) ↔ (∀ d ∈ m, c.1 < d.1) ∧ c.2 ≠ Memory.unlisted c.1 ∧ Memory.wf m := by
  simp only [Memory.wf, List.pairwise_cons, List.mem_cons, forall_eq_or_imp]
  tauto

/-- An offset below every listed one reads as unlisted. -/
theorem Memory.byte_below {m : Memory} {a : Nat} (h : ∀ d ∈ m, a < d.1) : Memory.byte m a = Memory.unlisted a := by
  induction m with
  | nil => rfl
  | cons c m ih =>
    obtain ⟨k, w⟩ := c
    have hk : a < k := h (k, w) List.mem_cons_self
    simp only [Memory.byte, Nat.ne_of_lt hk, if_false]
    exact ih fun d hd => h d (List.mem_cons_of_mem _ hd)

/-! ## One byte -/

theorem Memory.byte_put {m : Memory} (h : Memory.wf m) (a b : Nat) (v : Byte) :
    Memory.byte (Memory.put m a v) b = if b = a then v else Memory.byte m b := by
  induction m with
  | nil =>
    simp only [Memory.put]
    by_cases hv : v = Memory.unlisted a <;> by_cases hb : b = a <;> simp_all [Memory.byte]
  | cons c m ih =>
    obtain ⟨k, w⟩ := c
    obtain ⟨hlt, hw, hm⟩ := Memory.wf_cons.mp h
    simp only [Memory.put]
    split
    · rename_i hak
      have hbelow : Memory.byte ((k, w) :: m) a = Memory.unlisted a :=
        Memory.byte_below fun d hd => by
          rcases List.mem_cons.mp hd with rfl | hd
          · exact hak
          · exact Nat.lt_trans hak (hlt d hd)
      split
      · rename_i hv
        split <;> simp_all
      · conv_lhs => rw [Memory.byte]
    · split
      · rename_i hak
        subst hak
        split
        · rename_i hv
          by_cases hb : b = a
          · subst hb
            simp [hv, Memory.byte_below hlt]
          · simp [Memory.byte, hb]
        · by_cases hb : b = a <;> simp [Memory.byte, hb]
      · rename_i hak
        by_cases hbk : b = k
        · subst hbk
          simp [Memory.byte, Ne.symm hak]
        · simp [Memory.byte, hbk, ih hm]

/-- The offsets a stored byte adds. -/
theorem Memory.mem_put {m : Memory} {a : Nat} {v : Byte} {c : Host.Cell} (h : c ∈ Memory.put m a v) :
    c ∈ m ∨ (c = (a, v) ∧ v ≠ Memory.unlisted a) := by
  induction m with
  | nil =>
    simp only [Memory.put] at h
    split at h <;> simp_all
  | cons d m ih =>
    obtain ⟨k, w⟩ := d
    simp only [Memory.put] at h
    split at h
    · split at h
      · exact .inl h
      · rcases List.mem_cons.mp h with rfl | h
        · exact .inr ⟨rfl, ‹_›⟩
        · exact .inl h
    · split at h
      · split at h
        · exact .inl (List.mem_cons_of_mem _ h)
        · rcases List.mem_cons.mp h with rfl | h
          · exact .inr ⟨rfl, ‹_›⟩
          · exact .inl (List.mem_cons_of_mem _ h)
      · rcases List.mem_cons.mp h with rfl | h
        · exact .inl List.mem_cons_self
        · rcases ih h with h | h
          · exact .inl (List.mem_cons_of_mem _ h)
          · exact .inr h

theorem Memory.wf_put {m : Memory} (h : Memory.wf m) (a : Nat) (v : Byte) : Memory.wf (Memory.put m a v) := by
  induction m with
  | nil =>
    simp only [Memory.put]
    split
    · exact h
    · exact Memory.wf_cons.mpr ⟨by simp, ‹_›, h⟩
  | cons c m ih =>
    obtain ⟨k, w⟩ := c
    obtain ⟨hlt, hw, hm⟩ := Memory.wf_cons.mp h
    simp only [Memory.put]
    split
    · rename_i hak
      split
      · exact h
      · refine Memory.wf_cons.mpr ⟨fun d hd => ?_, ‹_›, h⟩
        rcases List.mem_cons.mp hd with rfl | hd
        · exact hak
        · exact Nat.lt_trans hak (hlt d hd)
    · split
      · rename_i hak
        subst hak
        split
        · exact hm
        · exact Memory.wf_cons.mpr ⟨hlt, ‹_›, hm⟩
      · rename_i hn hak
        refine Memory.wf_cons.mpr ⟨fun d hd => ?_, hw, ih hm⟩
        rcases Memory.mem_put hd with hd | ⟨rfl, -⟩
        · exact hlt d hd
        · show k < a
          omega

/-! ## Runs of bytes -/

theorem Memory.slice_length (m : Memory) (a n : Nat) : (Memory.slice m a n).length = n := by
  induction n generalizing a with
  | zero => rfl
  | succ n ih => simp [Memory.slice, ih]

theorem Memory.slice_getElem? (m : Memory) (a n i : Nat) (h : i < n) :
    (Memory.slice m a n)[i]? = some (Memory.byte m (a + i)) := by
  induction n generalizing a i with
  | zero => omega
  | succ n ih =>
    cases i with
    | zero => simp [Memory.slice]
    | succ i =>
      simp only [Memory.slice, List.getElem?_cons_succ]
      rw [ih (a + 1) i (by omega), Nat.add_right_comm, Nat.add_assoc]

theorem Memory.wf_putAll {m : Memory} (h : Memory.wf m) (a : Nat) (vs : List Byte) :
    Memory.wf (Memory.putAll m a vs) := by
  induction vs generalizing m a with
  | nil => exact h
  | cons v vs ih => exact ih (Memory.wf_put h a v) (a + 1)

theorem Memory.byte_putAll {m : Memory} (h : Memory.wf m) (a : Nat) (vs : List Byte) (b : Nat) :
    Memory.byte (Memory.putAll m a vs) b = if a ≤ b then (vs[b - a]?).getD (Memory.byte m b) else Memory.byte m b := by
  induction vs generalizing m a with
  | nil => simp [Memory.putAll]
  | cons v vs ih =>
    simp only [Memory.putAll]
    rw [ih (Memory.wf_put h a v) (a + 1), Memory.byte_put h]
    by_cases hb : b = a
    · subst hb
      simp
    · by_cases hlt : a ≤ b
      · obtain ⟨d, rfl⟩ : ∃ d, b = a + 1 + d := ⟨b - (a + 1), by omega⟩
        have h1 : a + 1 + d - a = d + 1 := by omega
        have h2 : a + 1 + d - (a + 1) = d := by omega
        simp [h1, h2, hlt, hb]
      · have : ¬ a + 1 ≤ b := by omega
        simp [this, hlt, hb]

theorem Memory.mem_putAll {m : Memory} {a : Nat} {vs : List Byte} {c : Host.Cell} (h : c ∈ Memory.putAll m a vs) :
    c ∈ m ∨ c.1 < a + vs.length := by
  induction vs generalizing m a with
  | nil => exact .inl h
  | cons v vs ih =>
    rcases ih h with h | h
    · rcases Memory.mem_put h with h | ⟨rfl, -⟩
      · exact .inl h
      · exact .inr (by simp)
    · refine .inr ?_
      simp only [List.length_cons]
      omega

theorem Memory.fromBytes_bounds (a : Nat) (vs : List Byte) :
    ∀ c ∈ Memory.fromBytes a vs, a ≤ c.1 ∧ c.1 < a + vs.length := by
  induction vs generalizing a with
  | nil => simp [Memory.fromBytes]
  | cons v vs ih =>
    intro c hc
    have tail : c ∈ Memory.fromBytes (a + 1) vs → a ≤ c.1 ∧ c.1 < a + (v :: vs).length := fun hc => by
      have := ih (a + 1) c hc
      simp only [List.length_cons]
      omega
    simp only [Memory.fromBytes] at hc
    split at hc
    · exact tail hc
    · rcases List.mem_cons.mp hc with rfl | hc
      · simp
      · exact tail hc

theorem Memory.wf_fromBytes (a : Nat) (vs : List Byte) : Memory.wf (Memory.fromBytes a vs) := by
  induction vs generalizing a with
  | nil => exact Memory.wf_nil
  | cons v vs ih =>
    simp only [Memory.fromBytes]
    split
    · exact ih _
    · exact Memory.wf_cons.mpr ⟨fun d hd => (Memory.fromBytes_bounds (a + 1) vs d hd).1, ‹_›, ih _⟩

theorem Memory.byte_fromBytes (a : Nat) (vs : List Byte) (b : Nat) :
    Memory.byte (Memory.fromBytes a vs) b
      = if a ≤ b then (vs[b - a]?).getD (Memory.unlisted b) else Memory.unlisted b := by
  induction vs generalizing a with
  | nil => simp [Memory.fromBytes, Memory.byte]
  | cons v vs ih =>
    simp only [Memory.fromBytes]
    by_cases hb : b = a
    · subst hb
      split
      · rename_i hv
        rw [ih]
        simp [hv]
      · simp [Memory.byte]
    · have tail : (if a + 1 ≤ b then (vs[b - (a + 1)]?).getD (Memory.unlisted b) else Memory.unlisted b)
          = if a ≤ b then ((v :: vs)[b - a]?).getD (Memory.unlisted b) else Memory.unlisted b := by
        by_cases hlt : a ≤ b
        · obtain ⟨d, rfl⟩ : ∃ d, b = a + 1 + d := ⟨b - (a + 1), by omega⟩
          have h1 : a + 1 + d - a = d + 1 := by omega
          have h2 : a + 1 + d - (a + 1) = d := by omega
          simp [h1, h2, hlt]
        · have : ¬ a + 1 ≤ b := by omega
          simp [this, hlt]
      split
      · rw [ih, tail]
      · simp only [Memory.byte, hb, if_false]
        rw [ih, tail]

/-! ## Buffers -/

/-- Everything a bounds-checked read can answer (R60). -/
theorem Buffer.load_cases (b : Buffer) (outside : Err) (off n : Nat) :
    (b.size ≤ off ∧ b.load outside off n = ⟨0, [], some outside⟩) ∨
    (off < b.size ∧ ∃ bytes : List Byte, b.load outside off n = ⟨min n (b.size - off), bytes, none⟩ ∧
      bytes.length = min n (b.size - off) ∧
      ∀ i, i < min n (b.size - off) → bytes[i]? = some (b.byte (off + i))) := by
  by_cases h : b.size ≤ off
  · exact .inl ⟨h, by simp [Buffer.load, h, Xfer.raise]⟩
  · refine .inr ⟨by omega, Memory.slice b.cells off (min n (b.size - off)), ?_, Memory.slice_length .., ?_⟩
    · simp [Buffer.load, h, Xfer.got, Memory.slice_length]
    · exact fun i hi => Memory.slice_getElem? _ _ _ _ hi

/-- Everything a bounds-checked write can do to a canonical buffer (R60, R122, R195). -/
theorem Buffer.store_cases {b : Buffer} (hb : b.wf) (off : Nat) (v : List Byte) :
    (b.size ≤ off ∧ b.store off v = (b, ⟨0, [], some (.accessViolation (BitVec.ofNat 32 off))⟩)) ∨
    (off < b.size ∧ ∃ b' : Buffer, b'.wf ∧ b'.size = b.size ∧
      b.store off v = (b', ⟨min v.length (b.size - off), [],
        if b.size - off < v.length then some .shortWrite else none⟩) ∧
      ∀ a, b'.byte a = if off ≤ a ∧ a < b.size then (v[a - off]?).getD (b.byte a) else b.byte a) := by
  by_cases h : b.size ≤ off
  · exact .inl ⟨h, by simp [Buffer.store, h, Xfer.raise]⟩
  · refine .inr ⟨by omega,
      { b with cells := Memory.putAll b.cells off (v.take (min v.length (b.size - off))) }, ⟨?_, ?_⟩, rfl, ?_, ?_⟩
    · exact Memory.wf_putAll hb.1 _ _
    · intro c hc
      rcases Memory.mem_putAll hc with hc | hc
      · exact hb.2 c hc
      · simp only [List.length_take] at hc
        show c.1 < b.size
        omega
    · have hiff : min v.length (b.size - off) < v.length ↔ b.size - off < v.length := by omega
      simp only [Buffer.store, h, if_false, hiff]
      split <;> simp [Xfer.raise, Xfer.done]
    · intro a
      show Memory.byte (Memory.putAll _ _ _) a = _
      rw [Memory.byte_putAll hb.1]
      by_cases ha : off ≤ a
      · by_cases ha2 : a < b.size
        · simp only [ha, ha2, and_self, if_true, List.getElem?_take]
          by_cases hl : a - off < v.length
          · have : a - off < min v.length (b.size - off) := by omega
            simp [this, Buffer.byte]
          · have h1 : v[a - off]? = none := List.getElem?_eq_none (by omega)
            simp [h1, Buffer.byte]
        · have h1 : ¬ a - off < min v.length (b.size - off) := by omega
          simp [ha, ha2, h1, Buffer.byte]
      · simp [ha, Buffer.byte]

theorem Buffer.store_wf {b : Buffer} (hb : b.wf) (off : Nat) (v : List Byte) : (b.store off v).1.wf := by
  rcases Buffer.store_cases hb off v with ⟨-, h⟩ | ⟨-, b', hw, -, h, -⟩ <;> rw [h]
  · exact hb
  · exact hw

theorem Buffer.store_size (b : Buffer) (off : Nat) (v : List Byte) : (b.store off v).1.size = b.size := by
  simp only [Buffer.store]
  split <;> rfl

theorem Buffer.ofBytes_wf (data : List Byte) : (Buffer.ofBytes data).wf := by
  refine ⟨Memory.wf_fromBytes 0 data, fun c hc => ?_⟩
  have := (Memory.fromBytes_bounds 0 data c hc).2
  simpa [Buffer.ofBytes] using this

/-- The bytes of a ROM made from a list are the list's (R25). -/
theorem Buffer.ofBytes_byte (data : List Byte) (a : Nat) :
    (Buffer.ofBytes data).byte a = (data[a]?).getD (Memory.unlisted a) := by
  simp [Buffer.byte, Buffer.ofBytes, Memory.byte_fromBytes]

theorem initialCells_wf (size : Nat) (init : List Byte) : ({ size := size, cells := initialCells size init } : Buffer).wf := by
  refine ⟨Memory.wf_fromBytes 0 _, fun c hc => ?_⟩
  have := (Memory.fromBytes_bounds 0 _ c hc).2
  simp only [List.length_take] at this
  show c.1 < size
  omega

end Sys2Proof.Machine
end

