-- ==== Sys2Proof/Laws/State.lean ====
section
/-! SUPPORT. One lemma per field per named update of the state: each update writes its own field and no other. -/

namespace Sys2Proof.Machine

/-! ## under -/

@[simp] theorem State.under_cfg (s : State) (x : Parameters) : (s.under x).cfg = x.cfg := rfl
@[simp] theorem State.under_table (s : State) (x : Parameters) : (s.under x).table = x.table := rfl
@[simp] theorem State.under_ram (s : State) (x : Parameters) : (s.under x).ram = s.ram := rfl
@[simp] theorem State.under_rom (s : State) (x : Parameters) : (s.under x).rom = s.rom := rfl
@[simp] theorem State.under_vdp (s : State) (x : Parameters) : (s.under x).vdp = s.vdp := rfl
@[simp] theorem State.under_traceLog (s : State) (x : Parameters) : (s.under x).traceLog = s.traceLog := rfl
@[simp] theorem State.under_halted (s : State) (x : Parameters) : (s.under x).halted = s.halted := rfl
@[simp] theorem State.under_boot (s : State) (x : Parameters) : (s.under x).boot = s.boot := rfl
@[simp] theorem State.under_running (s : State) (x : Parameters) : (s.under x).running = s.running := rfl
@[simp] theorem State.under_response (s : State) (x : Parameters) : (s.under x).response = s.response := rfl
@[simp] theorem State.under_inbox (s : State) (x : Parameters) : (s.under x).inbox = s.inbox := rfl
@[simp] theorem State.under_executor (s : State) (x : Parameters) : (s.under x).executor = s.executor := rfl

/-! ## withRam -/

@[simp] theorem State.withRam_cfg (s : State) (x : Buffer) : (s.withRam x).cfg = s.cfg := rfl
@[simp] theorem State.withRam_table (s : State) (x : Buffer) : (s.withRam x).table = s.table := rfl
@[simp] theorem State.withRam_ram (s : State) (x : Buffer) : (s.withRam x).ram = x := rfl
@[simp] theorem State.withRam_rom (s : State) (x : Buffer) : (s.withRam x).rom = s.rom := rfl
@[simp] theorem State.withRam_vdp (s : State) (x : Buffer) : (s.withRam x).vdp = s.vdp := rfl
@[simp] theorem State.withRam_traceLog (s : State) (x : Buffer) : (s.withRam x).traceLog = s.traceLog := rfl
@[simp] theorem State.withRam_halted (s : State) (x : Buffer) : (s.withRam x).halted = s.halted := rfl
@[simp] theorem State.withRam_boot (s : State) (x : Buffer) : (s.withRam x).boot = s.boot := rfl
@[simp] theorem State.withRam_running (s : State) (x : Buffer) : (s.withRam x).running = s.running := rfl
@[simp] theorem State.withRam_response (s : State) (x : Buffer) : (s.withRam x).response = s.response := rfl
@[simp] theorem State.withRam_inbox (s : State) (x : Buffer) : (s.withRam x).inbox = s.inbox := rfl
@[simp] theorem State.withRam_executor (s : State) (x : Buffer) : (s.withRam x).executor = s.executor := rfl

/-! ## withRom -/

@[simp] theorem State.withRom_cfg (s : State) (x : Buffer) : (s.withRom x).cfg = s.cfg := rfl
@[simp] theorem State.withRom_table (s : State) (x : Buffer) : (s.withRom x).table = s.table := rfl
@[simp] theorem State.withRom_ram (s : State) (x : Buffer) : (s.withRom x).ram = s.ram := rfl
@[simp] theorem State.withRom_rom (s : State) (x : Buffer) : (s.withRom x).rom = x := rfl
@[simp] theorem State.withRom_vdp (s : State) (x : Buffer) : (s.withRom x).vdp = s.vdp := rfl
@[simp] theorem State.withRom_traceLog (s : State) (x : Buffer) : (s.withRom x).traceLog = s.traceLog := rfl
@[simp] theorem State.withRom_halted (s : State) (x : Buffer) : (s.withRom x).halted = s.halted := rfl
@[simp] theorem State.withRom_boot (s : State) (x : Buffer) : (s.withRom x).boot = s.boot := rfl
@[simp] theorem State.withRom_running (s : State) (x : Buffer) : (s.withRom x).running = s.running := rfl
@[simp] theorem State.withRom_response (s : State) (x : Buffer) : (s.withRom x).response = s.response := rfl
@[simp] theorem State.withRom_inbox (s : State) (x : Buffer) : (s.withRom x).inbox = s.inbox := rfl
@[simp] theorem State.withRom_executor (s : State) (x : Buffer) : (s.withRom x).executor = s.executor := rfl

/-! ## withVdp -/

@[simp] theorem State.withVdp_cfg (s : State) (x : Vdp) : (s.withVdp x).cfg = s.cfg := rfl
@[simp] theorem State.withVdp_table (s : State) (x : Vdp) : (s.withVdp x).table = s.table := rfl
@[simp] theorem State.withVdp_ram (s : State) (x : Vdp) : (s.withVdp x).ram = s.ram := rfl
@[simp] theorem State.withVdp_rom (s : State) (x : Vdp) : (s.withVdp x).rom = s.rom := rfl
@[simp] theorem State.withVdp_vdp (s : State) (x : Vdp) : (s.withVdp x).vdp = x := rfl
@[simp] theorem State.withVdp_traceLog (s : State) (x : Vdp) : (s.withVdp x).traceLog = s.traceLog := rfl
@[simp] theorem State.withVdp_halted (s : State) (x : Vdp) : (s.withVdp x).halted = s.halted := rfl
@[simp] theorem State.withVdp_boot (s : State) (x : Vdp) : (s.withVdp x).boot = s.boot := rfl
@[simp] theorem State.withVdp_running (s : State) (x : Vdp) : (s.withVdp x).running = s.running := rfl
@[simp] theorem State.withVdp_response (s : State) (x : Vdp) : (s.withVdp x).response = s.response := rfl
@[simp] theorem State.withVdp_inbox (s : State) (x : Vdp) : (s.withVdp x).inbox = s.inbox := rfl
@[simp] theorem State.withVdp_executor (s : State) (x : Vdp) : (s.withVdp x).executor = s.executor := rfl

/-! ## withBoot -/

@[simp] theorem State.withBoot_cfg (s : State) (x : Boot) : (s.withBoot x).cfg = s.cfg := rfl
@[simp] theorem State.withBoot_table (s : State) (x : Boot) : (s.withBoot x).table = s.table := rfl
@[simp] theorem State.withBoot_ram (s : State) (x : Boot) : (s.withBoot x).ram = s.ram := rfl
@[simp] theorem State.withBoot_rom (s : State) (x : Boot) : (s.withBoot x).rom = s.rom := rfl
@[simp] theorem State.withBoot_vdp (s : State) (x : Boot) : (s.withBoot x).vdp = s.vdp := rfl
@[simp] theorem State.withBoot_traceLog (s : State) (x : Boot) : (s.withBoot x).traceLog = s.traceLog := rfl
@[simp] theorem State.withBoot_halted (s : State) (x : Boot) : (s.withBoot x).halted = s.halted := rfl
@[simp] theorem State.withBoot_boot (s : State) (x : Boot) : (s.withBoot x).boot = x := rfl
@[simp] theorem State.withBoot_running (s : State) (x : Boot) : (s.withBoot x).running = s.running := rfl
@[simp] theorem State.withBoot_response (s : State) (x : Boot) : (s.withBoot x).response = s.response := rfl
@[simp] theorem State.withBoot_inbox (s : State) (x : Boot) : (s.withBoot x).inbox = s.inbox := rfl
@[simp] theorem State.withBoot_executor (s : State) (x : Boot) : (s.withBoot x).executor = s.executor := rfl

/-! ## trace -/

@[simp] theorem State.trace_cfg (s : State) (x : List TraceRecord) : (s.trace x).cfg = s.cfg := rfl
@[simp] theorem State.trace_table (s : State) (x : List TraceRecord) : (s.trace x).table = s.table := rfl
@[simp] theorem State.trace_ram (s : State) (x : List TraceRecord) : (s.trace x).ram = s.ram := rfl
@[simp] theorem State.trace_rom (s : State) (x : List TraceRecord) : (s.trace x).rom = s.rom := rfl
@[simp] theorem State.trace_vdp (s : State) (x : List TraceRecord) : (s.trace x).vdp = s.vdp := rfl
@[simp] theorem State.trace_traceLog (s : State) (x : List TraceRecord) : (s.trace x).traceLog = s.traceLog ++ x := rfl
@[simp] theorem State.trace_halted (s : State) (x : List TraceRecord) : (s.trace x).halted = s.halted := rfl
@[simp] theorem State.trace_boot (s : State) (x : List TraceRecord) : (s.trace x).boot = s.boot := rfl
@[simp] theorem State.trace_running (s : State) (x : List TraceRecord) : (s.trace x).running = s.running := rfl
@[simp] theorem State.trace_response (s : State) (x : List TraceRecord) : (s.trace x).response = s.response := rfl
@[simp] theorem State.trace_inbox (s : State) (x : List TraceRecord) : (s.trace x).inbox = s.inbox := rfl
@[simp] theorem State.trace_executor (s : State) (x : List TraceRecord) : (s.trace x).executor = s.executor := rfl

/-! ## respond -/

@[simp] theorem State.respond_cfg (s : State) (x : Response) : (s.respond x).cfg = s.cfg := rfl
@[simp] theorem State.respond_table (s : State) (x : Response) : (s.respond x).table = s.table := rfl
@[simp] theorem State.respond_ram (s : State) (x : Response) : (s.respond x).ram = s.ram := rfl
@[simp] theorem State.respond_rom (s : State) (x : Response) : (s.respond x).rom = s.rom := rfl
@[simp] theorem State.respond_vdp (s : State) (x : Response) : (s.respond x).vdp = s.vdp := rfl
@[simp] theorem State.respond_traceLog (s : State) (x : Response) : (s.respond x).traceLog = s.traceLog := rfl
@[simp] theorem State.respond_halted (s : State) (x : Response) : (s.respond x).halted = s.halted := rfl
@[simp] theorem State.respond_boot (s : State) (x : Response) : (s.respond x).boot = s.boot := rfl
@[simp] theorem State.respond_running (s : State) (x : Response) : (s.respond x).running = s.running := rfl
@[simp] theorem State.respond_response (s : State) (x : Response) : (s.respond x).response = x := rfl
@[simp] theorem State.respond_inbox (s : State) (x : Response) : (s.respond x).inbox = s.inbox := rfl
@[simp] theorem State.respond_executor (s : State) (x : Response) : (s.respond x).executor = s.executor := rfl

/-! ## withHalted -/

@[simp] theorem State.withHalted_cfg (s : State) (x : Bool) : (s.withHalted x).cfg = s.cfg := rfl
@[simp] theorem State.withHalted_table (s : State) (x : Bool) : (s.withHalted x).table = s.table := rfl
@[simp] theorem State.withHalted_ram (s : State) (x : Bool) : (s.withHalted x).ram = s.ram := rfl
@[simp] theorem State.withHalted_rom (s : State) (x : Bool) : (s.withHalted x).rom = s.rom := rfl
@[simp] theorem State.withHalted_vdp (s : State) (x : Bool) : (s.withHalted x).vdp = s.vdp := rfl
@[simp] theorem State.withHalted_traceLog (s : State) (x : Bool) : (s.withHalted x).traceLog = s.traceLog := rfl
@[simp] theorem State.withHalted_halted (s : State) (x : Bool) : (s.withHalted x).halted = x := rfl
@[simp] theorem State.withHalted_boot (s : State) (x : Bool) : (s.withHalted x).boot = s.boot := rfl
@[simp] theorem State.withHalted_running (s : State) (x : Bool) : (s.withHalted x).running = s.running := rfl
@[simp] theorem State.withHalted_response (s : State) (x : Bool) : (s.withHalted x).response = s.response := rfl
@[simp] theorem State.withHalted_inbox (s : State) (x : Bool) : (s.withHalted x).inbox = s.inbox := rfl
@[simp] theorem State.withHalted_executor (s : State) (x : Bool) : (s.withHalted x).executor = s.executor := rfl

/-! ## withRunning -/

@[simp] theorem State.withRunning_cfg (s : State) (x : Bool) : (s.withRunning x).cfg = s.cfg := rfl
@[simp] theorem State.withRunning_table (s : State) (x : Bool) : (s.withRunning x).table = s.table := rfl
@[simp] theorem State.withRunning_ram (s : State) (x : Bool) : (s.withRunning x).ram = s.ram := rfl
@[simp] theorem State.withRunning_rom (s : State) (x : Bool) : (s.withRunning x).rom = s.rom := rfl
@[simp] theorem State.withRunning_vdp (s : State) (x : Bool) : (s.withRunning x).vdp = s.vdp := rfl
@[simp] theorem State.withRunning_traceLog (s : State) (x : Bool) : (s.withRunning x).traceLog = s.traceLog := rfl
@[simp] theorem State.withRunning_halted (s : State) (x : Bool) : (s.withRunning x).halted = s.halted := rfl
@[simp] theorem State.withRunning_boot (s : State) (x : Bool) : (s.withRunning x).boot = s.boot := rfl
@[simp] theorem State.withRunning_running (s : State) (x : Bool) : (s.withRunning x).running = x := rfl
@[simp] theorem State.withRunning_response (s : State) (x : Bool) : (s.withRunning x).response = s.response := rfl
@[simp] theorem State.withRunning_inbox (s : State) (x : Bool) : (s.withRunning x).inbox = s.inbox := rfl
@[simp] theorem State.withRunning_executor (s : State) (x : Bool) : (s.withRunning x).executor = s.executor := rfl

/-! ## withExecutor -/

@[simp] theorem State.withExecutor_cfg (s : State) (x : List ExecutorMove) : (s.withExecutor x).cfg = s.cfg := rfl
@[simp] theorem State.withExecutor_table (s : State) (x : List ExecutorMove) : (s.withExecutor x).table = s.table := rfl
@[simp] theorem State.withExecutor_ram (s : State) (x : List ExecutorMove) : (s.withExecutor x).ram = s.ram := rfl
@[simp] theorem State.withExecutor_rom (s : State) (x : List ExecutorMove) : (s.withExecutor x).rom = s.rom := rfl
@[simp] theorem State.withExecutor_vdp (s : State) (x : List ExecutorMove) : (s.withExecutor x).vdp = s.vdp := rfl
@[simp] theorem State.withExecutor_traceLog (s : State) (x : List ExecutorMove) : (s.withExecutor x).traceLog = s.traceLog := rfl
@[simp] theorem State.withExecutor_halted (s : State) (x : List ExecutorMove) : (s.withExecutor x).halted = s.halted := rfl
@[simp] theorem State.withExecutor_boot (s : State) (x : List ExecutorMove) : (s.withExecutor x).boot = s.boot := rfl
@[simp] theorem State.withExecutor_running (s : State) (x : List ExecutorMove) : (s.withExecutor x).running = s.running := rfl
@[simp] theorem State.withExecutor_response (s : State) (x : List ExecutorMove) : (s.withExecutor x).response = s.response := rfl
@[simp] theorem State.withExecutor_inbox (s : State) (x : List ExecutorMove) : (s.withExecutor x).inbox = s.inbox := rfl
@[simp] theorem State.withExecutor_executor (s : State) (x : List ExecutorMove) : (s.withExecutor x).executor = x := rfl

/-! ## withInbox -/

@[simp] theorem State.withInbox_cfg (s : State) (x : List Request) : (s.withInbox x).cfg = s.cfg := rfl
@[simp] theorem State.withInbox_table (s : State) (x : List Request) : (s.withInbox x).table = s.table := rfl
@[simp] theorem State.withInbox_ram (s : State) (x : List Request) : (s.withInbox x).ram = s.ram := rfl
@[simp] theorem State.withInbox_rom (s : State) (x : List Request) : (s.withInbox x).rom = s.rom := rfl
@[simp] theorem State.withInbox_vdp (s : State) (x : List Request) : (s.withInbox x).vdp = s.vdp := rfl
@[simp] theorem State.withInbox_traceLog (s : State) (x : List Request) : (s.withInbox x).traceLog = s.traceLog := rfl
@[simp] theorem State.withInbox_halted (s : State) (x : List Request) : (s.withInbox x).halted = s.halted := rfl
@[simp] theorem State.withInbox_boot (s : State) (x : List Request) : (s.withInbox x).boot = s.boot := rfl
@[simp] theorem State.withInbox_running (s : State) (x : List Request) : (s.withInbox x).running = s.running := rfl
@[simp] theorem State.withInbox_response (s : State) (x : List Request) : (s.withInbox x).response = s.response := rfl
@[simp] theorem State.withInbox_inbox (s : State) (x : List Request) : (s.withInbox x).inbox = x := rfl
@[simp] theorem State.withInbox_executor (s : State) (x : List Request) : (s.withInbox x).executor = s.executor := rfl

end Sys2Proof.Machine
end

