-- ==== Sys2Proof/Laws/Vdp.lean ====
section
/-! SUPPORT. What the VDP's primitives do: bits of the field writes, inversion of each port operation, and the principle by
which a property of every logical write holds of a write of any length. -/

namespace Sys2Proof.Machine

/-! ## Field writes -/

theorem codePhase1_low (code : Half) (cd : BitVec 2) : (codePhase1 code cd).extractLsb' 0 2 = cd := by
  unfold codePhase1
  ext i hi
  simp [hi]

theorem codePhase1_bit (code : Half) (cd : BitVec 2) (k : Nat) (h : 2 ≤ k) :
    (codePhase1 code cd).getLsbD k = code.getLsbD k := by
  unfold codePhase1
  by_cases hk : k < 16
  · simp [show ¬ k < 2 by omega, show 2 + (k - 2) = k by omega, show k - 2 < 14 by omega]
  · rw [BitVec.getLsbD_of_ge _ _ (by omega), BitVec.getLsbD_of_ge _ _ (by omega)]

theorem codePhase2_low (code : Half) (cdHi : BitVec 4) (k : Nat) (h : k < 2) :
    (codePhase2 code cdHi).getLsbD k = code.getLsbD k := by
  unfold codePhase2
  simp [h]

theorem codePhase2_field (code : Half) (cdHi : BitVec 4) : (codePhase2 code cdHi).extractLsb' 2 4 = cdHi := by
  unfold codePhase2
  ext i hi
  simp [hi, show 2 + i < 6 by omega, show 1 < 2 + i by omega]

theorem codePhase2_high (code : Half) (cdHi : BitVec 4) (k : Nat) (h : 6 ≤ k) :
    (codePhase2 code cdHi).getLsbD k = code.getLsbD k := by
  unfold codePhase2
  by_cases hk : k < 16
  · simp [show ¬ k < 2 by omega, show ¬ k < 6 by omega, show 6 + (k - 6) = k by omega, show k - 6 < 10 by omega]
  · rw [BitVec.getLsbD_of_ge _ _ (by omega), BitVec.getLsbD_of_ge _ _ (by omega)]

theorem codePhase1_top (code : Half) (cd : BitVec 2) :
    (codePhase1 code cd).extractLsb' 6 10 = code.extractLsb' 6 10 := by
  ext i hi
  simpa [hi] using codePhase1_bit code cd (6 + i) (by omega)

theorem codePhase2_top (code : Half) (cdHi : BitVec 4) :
    (codePhase2 code cdHi).extractLsb' 6 10 = code.extractLsb' 6 10 := by
  ext i hi
  simpa [hi] using codePhase2_high code cdHi (6 + i) (by omega)

theorem codePhase2_kept (code : Half) (cdHi : BitVec 4) :
    (codePhase2 code cdHi).extractLsb' 0 2 = code.extractLsb' 0 2 := by
  ext i hi
  simpa [hi] using codePhase2_low code cdHi i hi

theorem addressPhase1_low (address : Half) (lo : BitVec 14) : (addressPhase1 address lo).extractLsb' 0 14 = lo := by
  unfold addressPhase1
  ext i hi
  simp [hi]

theorem addressPhase1_high (address : Half) (lo : BitVec 14) :
    (addressPhase1 address lo).extractLsb' 14 2 = address.extractLsb' 14 2 := by
  unfold addressPhase1
  ext i hi
  simp [hi]

theorem addressPhase2_low (address : Half) (hi2 : BitVec 2) :
    (addressPhase2 address hi2).extractLsb' 0 14 = address.extractLsb' 0 14 := by
  unfold addressPhase2
  ext i hi
  simp [hi]

theorem addressPhase2_high (address : Half) (hi2 : BitVec 2) : (addressPhase2 address hi2).extractLsb' 14 2 = hi2 := by
  unfold addressPhase2
  ext i hi
  simp [hi]

/-! ## Inversion of the port operations -/

/-- What a register set can do (R171). -/
theorem Vdp.regset_cases (index : BitVec 6) (value : Byte) (v : Vdp) :
    (∃ h : index.toNat < 24, v.regset index value = { v with registers := v.registers.set index.toNat value h }) ∨
    (24 ≤ index.toNat ∧ v.regset index value = v) := by
  by_cases h : index.toNat < 24
  · exact .inl ⟨h, by simp [Vdp.regset, h]⟩
  · exact .inr ⟨by omega, by simp [Vdp.regset, h]⟩

/-- What a control-port write can do (R170, R174). -/
theorem Vdp.ctrlWrite_cases (b0 b1 : Byte) (v : Vdp) :
    (v.writePending = true ∧ v.ctrlWrite b0 b1 = v.addr2 (b1.extractLsb' 4 4) (b1.extractLsb' 0 2)) ∨
    (v.writePending = false ∧ isRegisterSelect b0 = true ∧ v.ctrlWrite b0 b1 = v.regset (b0.extractLsb' 0 6) b1) ∨
    (v.writePending = false ∧ isRegisterSelect b0 = false ∧
      v.ctrlWrite b0 b1 = v.addr1 (b0.extractLsb' 6 2) (b0.extractLsb' 0 6 ++ b1)) := by
  cases hp : v.writePending <;> cases hr : isRegisterSelect b0 <;> simp [Vdp.ctrlWrite, hp, hr]

/-- What a data-port write can do (R192). -/
theorem Vdp.dataWrite_cases (b0 b1 : Byte) (v : Vdp) :
    (writeSelected v.codeReg = false ∧ v.dataWrite b0 b1 = (v, some (.unsupportedOperation .operationMismatch))) ∨
    (writeSelected v.codeReg = true ∧ vramSelected v.codeReg = false ∧
      v.dataWrite b0 b1 = ({ v with writePending := false }, some (.unsupportedOperation .unsupportedTarget))) ∨
    (writeSelected v.codeReg = true ∧ vramSelected v.codeReg = true ∧
      v.dataWrite b0 b1 = ({ v with writePending := false } : Vdp).vramWrite16 v.addressReg b0 b1) := by
  cases hw : writeSelected v.codeReg <;> cases hv : vramSelected v.codeReg <;> simp [Vdp.dataWrite, hw, hv]

/-- A word store in a VRAM of full size never fails (R194). -/
theorem Vdp.vramWrite16_ok (a : Half) (b0 b1 : Byte) (v : Vdp) (h : v.vram.size = vramSize) :
    v.vramWrite16 a b0 b1
      = ({ v with vram := { v.vram with cells := Memory.putAll v.vram.cells a.toNat [b0, b1] } }, none) := by
  have ha := a.isLt
  have h1 : ¬ v.vram.size ≤ a.toNat := by rw [h]; unfold vramSize; omega
  have h2 : min 2 (v.vram.size - a.toNat) = 2 := by rw [h]; unfold vramSize; omega
  have h3 : ¬ (2 : Nat) < min 2 (v.vram.size - a.toNat) := by omega
  simp [Vdp.vramWrite16, Buffer.store, h1, h2, Xfer.done]

/-- What a logical write can do (R156). -/
theorem Vdp.write16_cases (off : Nat) (b0 b1 : Byte) (v : Vdp) :
    (portOf off = some .data ∧ v.write16 off b0 b1 = v.dataWrite b0 b1) ∨
    (portOf off = some .control ∧ v.write16 off b0 b1 = (v.ctrlWrite b0 b1, none)) ∨
    (portOf off = none ∧ v.write16 off b0 b1 = (v, some (.accessViolation (BitVec.ofNat 32 off)))) := by
  unfold Vdp.write16
  cases h : portOf off with
  | none => simp
  | some p => cases p <;> simp

/-- A read at the VDP changes at most `write_pending`, and only to idle (R52, R174). -/
theorem Vdp.read_fst (offset : Addr) (n : Nat) (v : Vdp) :
    (v.read offset n).1 = v ∨ (v.read offset n).1 = { v with writePending := false } := by
  unfold Vdp.read
  cases portOf offset.toNat with
  | none => simp
  | some p =>
    cases p
    · simp
    · simp only
      split
      · exact .inr rfl
      · exact .inl rfl

/-! ## Writes of any length -/

/-- A property that every logical write keeps is kept by a write of any length (R154, R158). -/
theorem Vdp.writeFrom_keeps (P : Vdp → Prop)
    (step : ∀ off b0 b1 v, P v → P (v.write16 off b0 b1).1) (offset consumed : Nat) (bytes : List Byte) (v : Vdp)
    (h : P v) : P (Vdp.writeFrom offset consumed bytes v).1 := by
  induction consumed, bytes, v using Vdp.writeFrom.induct (offset := offset) with
  | case1 => simpa [Vdp.writeFrom] using h
  | case2 consumed b v v' e he =>
    have := step (offset + consumed) b b v h
    rw [he] at this
    simpa [Vdp.writeFrom, he] using this
  | case3 consumed b v v' he =>
    have := step (offset + consumed) b b v h
    rw [he] at this
    simpa [Vdp.writeFrom, he] using this
  | case4 consumed b0 b1 rest v v' e he =>
    have := step (offset + consumed) b0 b1 v h
    rw [he] at this
    simpa [Vdp.writeFrom, he] using this
  | case5 consumed b0 b1 rest v v' he ih =>
    have := step (offset + consumed) b0 b1 v h
    rw [he] at this
    simpa [Vdp.writeFrom, he] using ih this

/-- A write of an even number of bytes followed by more is the first part, then the rest from where it ended, unless the
first part fails (R158). -/
theorem Vdp.writeFrom_append (offset consumed : Nat) (xs ys : List Byte) (v : Vdp) (even : xs.length % 2 = 0) :
    Vdp.writeFrom offset consumed (xs ++ ys) v =
      match Vdp.writeFrom offset consumed xs v with
      | (v', ⟨count, bytes, some e⟩) => (v', ⟨count, bytes, some e⟩)
      | (v', ⟨_, _, none⟩) => Vdp.writeFrom offset (consumed + xs.length) ys v' := by
  induction consumed, xs, v using Vdp.writeFrom.induct (offset := offset) with
  | case1 => simp [Vdp.writeFrom, Xfer.done]
  | case2 => simp at even
  | case3 => simp at even
  | case4 consumed b0 b1 rest v v' e he => simp [Vdp.writeFrom, he, Xfer.raise]
  | case5 consumed b0 b1 rest v v' he ih =>
    have := ih (by simp at even; omega)
    simp only [List.cons_append, Vdp.writeFrom, he, this, List.length_cons]
    rw [show consumed + 2 + rest.length = consumed + (rest.length + 1 + 1) by omega]

/-- The count of a VDP write: all of the bytes without an error; with one, those of the completed logical writes, an even
number short of all (R155 (e)). -/
theorem Vdp.writeFrom_count (offset consumed : Nat) (bytes : List Byte) (v : Vdp) :
    (Vdp.writeFrom offset consumed bytes v).2.bytes = [] ∧
    (((Vdp.writeFrom offset consumed bytes v).2.err = none ∧
      (Vdp.writeFrom offset consumed bytes v).2.count = consumed + bytes.length) ∨
    (∃ e, (Vdp.writeFrom offset consumed bytes v).2.err = some e ∧
      ∃ k, (Vdp.writeFrom offset consumed bytes v).2.count = consumed + 2 * k ∧ 2 * k < bytes.length)) := by
  induction consumed, bytes, v using Vdp.writeFrom.induct (offset := offset) with
  | case1 => simp [Vdp.writeFrom, Xfer.done]
  | case2 consumed b v v' e he =>
    simp only [Vdp.writeFrom, he, Xfer.raise]
    exact ⟨trivial, .inr ⟨e, rfl, 0, by simp⟩⟩
  | case3 consumed b v v' he => simp [Vdp.writeFrom, he, Xfer.done]
  | case4 consumed b0 b1 rest v v' e he =>
    simp only [Vdp.writeFrom, he, Xfer.raise]
    exact ⟨trivial, .inr ⟨e, rfl, 0, by simp⟩⟩
  | case5 consumed b0 b1 rest v v' he ih =>
    simp only [Vdp.writeFrom, he, List.length_cons]
    obtain ⟨hb, ⟨h1, h2⟩ | ⟨e, h1, k, h2, h3⟩⟩ := ih
    · exact ⟨hb, .inl ⟨h1, by omega⟩⟩
    · exact ⟨hb, .inr ⟨e, h1, k + 1, by omega, by omega⟩⟩

/-! ## What the VDP keeps -/

/-- The parts of the invariant that lie in the VDP, for given reset parameters. -/
structure Vdp.Ok (statusReset : Half) (vramInit : List Byte) (v : Vdp) : Prop where
  vramWf  : v.vram.wf
  size    : v.vram.size = vramSize
  upper   : ∀ a, 0x10000 < a → v.vram.byte a = Memory.byte (initialCells vramSize vramInit) a
  status  : v.status = statusReset
  codeTop : v.codeReg.extractLsb' 6 10 = 0#10
  codeLow : v.codeReg.extractLsb' 0 2 ≠ 0b10#2

theorem Vdp.reset_ok (statusReset : Half) (vramInit : List Byte) :
    (Vdp.reset statusReset (initialCells vramSize vramInit)).Ok statusReset vramInit where
  vramWf := initialCells_wf vramSize vramInit
  size := rfl
  upper _ _ := rfl
  status := rfl
  codeTop := show BitVec.extractLsb' 6 10 (0x0000#16) = 0#10 by decide
  codeLow := show BitVec.extractLsb' 0 2 (0x0000#16) ≠ 0b10#2 by decide

variable {sr : Half} {vi : List Byte} {v : Vdp}

theorem Vdp.Ok.idle (h : v.Ok sr vi) (p : Bool) : ({ v with writePending := p } : Vdp).Ok sr vi :=
  ⟨h.vramWf, h.size, h.upper, h.status, h.codeTop, h.codeLow⟩

theorem Vdp.Ok.regset (h : v.Ok sr vi) (index : BitVec 6) (value : Byte) : (v.regset index value).Ok sr vi := by
  rcases Vdp.regset_cases index value v with ⟨hi, e⟩ | ⟨-, e⟩ <;> rw [e]
  · exact ⟨h.vramWf, h.size, h.upper, h.status, h.codeTop, h.codeLow⟩
  · exact h

theorem Vdp.Ok.addr1 (h : v.Ok sr vi) (cd : BitVec 2) (lo : BitVec 14) (hcd : cd ≠ 0b10#2) :
    (v.addr1 cd lo).Ok sr vi where
  vramWf := h.vramWf
  size := h.size
  upper := h.upper
  status := h.status
  codeTop := (codePhase1_top v.codeReg cd).trans h.codeTop
  codeLow := by rw [show (v.addr1 cd lo).codeReg = codePhase1 v.codeReg cd from rfl, codePhase1_low]; exact hcd

theorem Vdp.Ok.addr2 (h : v.Ok sr vi) (cdHi : BitVec 4) (hi2 : BitVec 2) : (v.addr2 cdHi hi2).Ok sr vi where
  vramWf := h.vramWf
  size := h.size
  upper := h.upper
  status := h.status
  codeTop := (codePhase2_top v.codeReg cdHi).trans h.codeTop
  codeLow := by
    rw [show (v.addr2 cdHi hi2).codeReg = codePhase2 v.codeReg cdHi from rfl, codePhase2_kept]
    exact h.codeLow

theorem Vdp.Ok.ctrlWrite (h : v.Ok sr vi) (b0 b1 : Byte) : (v.ctrlWrite b0 b1).Ok sr vi := by
  rcases Vdp.ctrlWrite_cases b0 b1 v with ⟨-, e⟩ | ⟨-, -, e⟩ | ⟨-, hr, e⟩ <;> rw [e]
  · exact h.addr2 _ _
  · exact h.regset _ _
  · exact h.addr1 _ _ (by simpa [isRegisterSelect] using hr)

theorem Vdp.Ok.vramWrite16 (h : v.Ok sr vi) (a : Half) (b0 b1 : Byte) : (v.vramWrite16 a b0 b1).1.Ok sr vi := by
  refine ⟨Buffer.store_wf h.vramWf _ _, (Buffer.store_size _ _ _).trans h.size, fun k hk => ?_, h.status, h.codeTop,
    h.codeLow⟩
  have ha := a.isLt
  rw [Vdp.vramWrite16_ok a b0 b1 v h.size]
  show Memory.byte (Memory.putAll _ _ _) k = _
  rw [Memory.byte_putAll h.vramWf.1, if_pos (by omega), List.getElem?_eq_none (by simp; omega)]
  exact h.upper k hk

theorem Vdp.Ok.dataWrite (h : v.Ok sr vi) (b0 b1 : Byte) : (v.dataWrite b0 b1).1.Ok sr vi := by
  rcases Vdp.dataWrite_cases b0 b1 v with ⟨-, e⟩ | ⟨-, -, e⟩ | ⟨-, -, e⟩ <;> rw [e]
  · exact h
  · exact h.idle false
  · exact (h.idle false).vramWrite16 _ _ _

theorem Vdp.Ok.write16 (h : v.Ok sr vi) (off : Nat) (b0 b1 : Byte) : (v.write16 off b0 b1).1.Ok sr vi := by
  rcases Vdp.write16_cases off b0 b1 v with ⟨-, e⟩ | ⟨-, e⟩ | ⟨-, e⟩ <;> rw [e]
  · exact h.dataWrite b0 b1
  · exact h.ctrlWrite b0 b1
  · exact h

theorem Vdp.Ok.write (h : v.Ok sr vi) (offset : Addr) (bytes : List Byte) : (v.write offset bytes).1.Ok sr vi :=
  Vdp.writeFrom_keeps (fun v => v.Ok sr vi) (fun off b0 b1 _ hv => hv.write16 off b0 b1) _ _ _ _ h

theorem Vdp.Ok.read (h : v.Ok sr vi) (offset : Addr) (n : Nat) : (v.read offset n).1.Ok sr vi := by
  rcases Vdp.read_fst offset n v with e | e <;> rw [e]
  · exact h
  · exact h.idle false

end Sys2Proof.Machine
end

