-- ==== Sys2Proof/Laws/Bus.lean ====
section
/-! SUPPORT. What device and bus accesses do: the frame of a read, the frame of a write, what both keep, and the mapping
table. -/

namespace Sys2Proof.Machine

/-! ## Reads -/

/-- The state that differs from `s` at most in the phase flag and the trace log. -/
def readFrame (s : State) (pending : Bool) (rs : List TraceRecord) : State :=
  { s with vdp := { s.vdp with writePending := pending }, traceLog := s.traceLog ++ rs }

theorem readFrame_self (s : State) : readFrame s s.vdp.writePending [] = s := by
  simp [readFrame]

/-- What a read may leave of `s`: the phase flag as it was or cleared, and records added to the trace log (R52). -/
def ReadLeaves (s s' : State) : Prop :=
  ∃ p rs, s' = readFrame s p rs ∧ (p = true → s.vdp.writePending = true)

theorem ReadLeaves.refl (s : State) : ReadLeaves s s := ⟨_, _, (readFrame_self s).symm, id⟩

theorem ReadLeaves.trans {s s' s'' : State} (h : ReadLeaves s s') (h' : ReadLeaves s' s'') : ReadLeaves s s'' := by
  obtain ⟨p, rs, rfl, hp⟩ := h
  obtain ⟨p', rs', rfl, hp'⟩ := h'
  exact ⟨p', rs ++ rs', by simp [readFrame], fun hq => hp (hp' hq)⟩

theorem ReadLeaves.traceIf (sink : Bool) (r : TraceRecord) (s : State) : ReadLeaves s (traceIf sink r s) := by
  cases sink
  · exact .refl s
  · exact ⟨s.vdp.writePending, [r], by simp [readFrame, Machine.traceIf, State.trace], id⟩

theorem vdpRead_leaves (offset : Addr) (n : Nat) (s : State) : ReadLeaves s (vdpRead offset n s).1 := by
  rcases Vdp.read_fst offset n s.vdp with e | e
  · exact ⟨s.vdp.writePending, [], by rw [readFrame_self]; simp only [vdpRead, e]; rfl, id⟩
  · exact ⟨false, [], by simp only [vdpRead, e]; simp [readFrame, State.withVdp], by simp⟩

/-- A device read changes at most `write_pending` and the trace log (R52). -/
theorem devRead_leaves (d : Device) (offset : Addr) (n : Nat) (s : State) : ReadLeaves s (devRead d offset n s).1 := by
  induction d generalizing offset s with
  | ram => exact .refl s
  | rom => exact .refl s
  | stub => exact .refl s
  | vdp => exact vdpRead_leaves offset n s
  | mirror period inner ih => exact ih _ _
  | tracer label sink inner ih => exact (ReadLeaves.traceIf _ _ _).trans (ih _ _)

theorem busRead_leaves (addr : Addr) (n : Nat) (s : State) : ReadLeaves s (busRead addr n s).1 := by
  unfold busRead
  cases lookup s.table addr with
  | none => exact .refl s
  | some m => exact devRead_leaves _ _ _ _

/-! ## Writes -/

/-- The state that differs from `s` at most in the three devices and the trace log. -/
def writeFrame (s : State) (ram rom : Buffer) (vdp : Vdp) (rs : List TraceRecord) : State :=
  { s with ram := ram, rom := rom, vdp := vdp, traceLog := s.traceLog ++ rs }

theorem writeFrame_self (s : State) : writeFrame s s.ram s.rom s.vdp [] = s := by
  simp [writeFrame]

/-- A device write changes at most the devices and the trace log. -/
theorem devWrite_frame (d : Device) (offset : Addr) (v : List Byte) (s : State) :
    ∃ ram rom vdp rs, (devWrite d offset v s).1 = writeFrame s ram rom vdp rs := by
  induction d generalizing offset s with
  | ram => exact ⟨_, s.rom, s.vdp, [], by simp [devWrite, ramWrite, writeFrame, State.withRam]; rfl⟩
  | rom => exact ⟨s.ram, _, s.vdp, [], by simp [devWrite, romWrite, writeFrame, State.withRom]; rfl⟩
  | stub => exact ⟨_, _, _, _, (writeFrame_self s).symm⟩
  | vdp => exact ⟨s.ram, s.rom, _, [], by simp [devWrite, vdpWrite, writeFrame, State.withVdp]; rfl⟩
  | mirror period inner ih => exact ih _ _
  | tracer label sink inner ih =>
    obtain ⟨ram, rom, vdp, rs, h⟩ := ih offset (traceIf sink (.write label offset v) s)
    cases sink
    · exact ⟨ram, rom, vdp, rs, by simpa [devWrite, traceIf] using h⟩
    · refine ⟨ram, rom, vdp, .write label offset v :: rs, ?_⟩
      simp only [devWrite, h]
      simp [writeFrame, traceIf, State.trace]

theorem busWrite_frame (addr : Addr) (v : List Byte) (s : State) :
    ∃ ram rom vdp rs, (busWrite addr v s).1 = writeFrame s ram rom vdp rs := by
  unfold busWrite
  cases lookup s.table addr with
  | none => exact ⟨_, _, _, _, (writeFrame_self s).symm⟩
  | some m => exact devWrite_frame _ _ _ _

/-! ## What an access can reach and what it can see -/

/-- An access to a device that holds no VDP leaves the VDP as it was (R174). -/
theorem device_access_keeps_vdp {d : Device} (h : reachesVdp d = false) (offset : Addr) (s : State) :
    (∀ n, (devRead d offset n s).1.vdp = s.vdp) ∧ ∀ v, (devWrite d offset v s).1.vdp = s.vdp := by
  induction d generalizing offset s with
  | ram => exact ⟨fun _ => rfl, fun _ => rfl⟩
  | rom => exact ⟨fun _ => rfl, fun _ => rfl⟩
  | stub => exact ⟨fun _ => rfl, fun _ => rfl⟩
  | vdp => simp [reachesVdp] at h
  | mirror period inner ih => exact ih h _ s
  | tracer label sink inner ih =>
    have ht : ∀ r, (traceIf sink r s).vdp = s.vdp := fun r => by cases sink <;> rfl
    exact ⟨fun n => ((ih h offset _).1 n).trans (ht _), fun v => ((ih h offset _).2 v).trans (ht _)⟩

/-- The result of a device access depends on the three devices' contents alone, not on the trace log (R136). -/
theorem device_result_of_contents (d : Device) (offset : Addr) {s s' : State} (hram : s.ram = s'.ram)
    (hrom : s.rom = s'.rom) (hvdp : s.vdp = s'.vdp) :
    (∀ n, (devRead d offset n s).2 = (devRead d offset n s').2) ∧
      ∀ v, (devWrite d offset v s).2 = (devWrite d offset v s').2 := by
  induction d generalizing offset s s' with
  | ram => simp [devRead, devWrite, ramRead, ramWrite, hram]
  | rom => simp [devRead, devWrite, romRead, romWrite, hrom]
  | vdp => simp [devRead, devWrite, vdpRead, vdpWrite, hvdp]
  | stub => simp [devRead, devWrite]
  | mirror period inner ih => exact ih _ hram hrom hvdp
  | tracer label sink inner ih =>
    cases sink
    · exact ih _ hram hrom hvdp
    · exact ⟨fun n => (ih (s := s.trace _) (s' := s'.trace _) offset hram hrom hvdp).1 n,
        fun v => (ih (s := s.trace _) (s' := s'.trace _) offset hram hrom hvdp).2 v⟩

/-! ## What device accesses keep -/

/-- The device parts of the invariant: the three buffers and the VDP, for the configuration they were reset with. -/
structure DevicesOk (s : State) : Prop where
  ramWf   : s.ram.wf
  ramSize : s.ram.size = s.cfg.ramSize.toNat
  romWf   : s.rom.wf
  vdpOk   : s.vdp.Ok s.cfg.statusReset s.cfg.vramInit

theorem DevicesOk.readFrame {s : State} (h : DevicesOk s) (p : Bool) (rs : List TraceRecord) :
    DevicesOk (readFrame s p rs) :=
  ⟨h.ramWf, h.ramSize, h.romWf, h.vdpOk.idle p⟩

theorem DevicesOk.trace {s : State} (h : DevicesOk s) (rs : List TraceRecord) : DevicesOk (s.trace rs) :=
  ⟨h.ramWf, h.ramSize, h.romWf, h.vdpOk⟩

theorem DevicesOk.ramWrite {s : State} (h : DevicesOk s) (offset : Addr) (v : List Byte) :
    DevicesOk (ramWrite offset v s).1 :=
  ⟨Buffer.store_wf h.ramWf _ _, (Buffer.store_size _ _ _).trans h.ramSize, h.romWf, h.vdpOk⟩

theorem DevicesOk.romWrite {s : State} (h : DevicesOk s) (offset : Addr) (v : List Byte) :
    DevicesOk (romWrite offset v s).1 :=
  ⟨h.ramWf, h.ramSize, Buffer.store_wf h.romWf _ _, h.vdpOk⟩

theorem DevicesOk.vdpWrite {s : State} (h : DevicesOk s) (offset : Addr) (v : List Byte) :
    DevicesOk (vdpWrite offset v s).1 :=
  ⟨h.ramWf, h.ramSize, h.romWf, h.vdpOk.write offset v⟩

theorem DevicesOk.leaves {s s' : State} (h : DevicesOk s) (hr : ReadLeaves s s') : DevicesOk s' := by
  obtain ⟨p, rs, rfl, -⟩ := hr
  exact h.readFrame p rs

theorem DevicesOk.devWrite {s : State} (h : DevicesOk s) (d : Device) (offset : Addr) (v : List Byte) :
    DevicesOk (devWrite d offset v s).1 := by
  induction d generalizing offset s with
  | ram => exact h.ramWrite offset v
  | rom => exact h.romWrite offset v
  | vdp => exact h.vdpWrite offset v
  | stub => exact h
  | mirror period inner ih => exact ih h _
  | tracer label sink inner ih =>
    refine ih ?_ offset
    cases sink
    · exact h
    · exact h.trace _

theorem DevicesOk.busRead {s : State} (h : DevicesOk s) (addr : Addr) (n : Nat) :
    DevicesOk (busRead addr n s).1 :=
  h.leaves (busRead_leaves addr n s)

theorem DevicesOk.busWrite {s : State} (h : DevicesOk s) (addr : Addr) (v : List Byte) :
    DevicesOk (busWrite addr v s).1 := by
  unfold Machine.busWrite
  cases lookup s.table addr with
  | none => exact h
  | some m => exact h.devWrite _ _ _

/-! ## The mapping table -/

theorem overlaps_symm (m k : Mapping) : m.overlaps k = k.overlaps m := by
  simp [Mapping.overlaps, Bool.and_comm]

/-- MAP's table step: it appends a range that meets no other, or does nothing (R102). -/
theorem mapRange_cases (table : List Mapping) (m : Mapping) :
    (mapRange table m = none ∧ ∃ k ∈ table, m.overlaps k = true) ∨
    (mapRange table m = some (table ++ [m]) ∧ ∀ k ∈ table, m.overlaps k = false) := by
  unfold mapRange
  by_cases h : table.any (fun k => m.overlaps k) = true
  · exact .inl ⟨by simp [h], by simpa using h⟩
  · exact .inr ⟨by simp [h], by simpa using h⟩

/-- A table built by MAP stays well-formed (R101). -/
theorem TableOk.mapRange {table table' : List Mapping} {m : Mapping} (h : TableOk table) (hm : m.wf = true)
    (e : mapRange table m = some table') : TableOk table' := by
  rcases mapRange_cases table m with ⟨hn, -⟩ | ⟨hs, hd⟩
  · rw [hn] at e
    exact absurd e (by simp)
  · rw [hs] at e
    obtain rfl := Option.some.inj e
    refine ⟨List.pairwise_append.mpr ⟨h.1, by simp, fun k hk m' hm' => ?_⟩, fun k hk => ?_⟩
    · rw [List.mem_singleton.mp hm', overlaps_symm]
      exact hd k hk
    · rcases List.mem_append.mp hk with hk | hk
      · exact h.2 k hk
      · rw [List.mem_singleton.mp hk]
        exact hm

theorem TableOk.mapAll {table : List Mapping} (h : TableOk table) (ms : List Mapping) (hms : ∀ m ∈ ms, m.wf = true) :
    TableOk (mapAll table ms).1 := by
  induction ms generalizing table with
  | nil => exact h
  | cons m ms ih =>
    simp only [Machine.mapAll]
    cases e : Machine.mapRange table m with
    | none => exact h
    | some table' =>
      exact ih (h.mapRange (hms m List.mem_cons_self) e) fun k hk => hms k (List.mem_cons_of_mem _ hk)

theorem TableOk.filter {table : List Mapping} (h : TableOk table) (p : Mapping → Bool) : TableOk (table.filter p) :=
  ⟨h.1.filter p, fun m hm => h.2 m (List.mem_of_mem_filter hm)⟩

/-- Where MAP can add ROM_WINDOW, every other range lies above it, because the window begins at address 0 (R231). -/
theorem RomWindowFree.of_mapRange {table table' : List Mapping} {d : Device} (h : TableOk table)
    (e : mapRange table ⟨romFirst, romLast, d⟩ = some table') : RomWindowFree table' := by
  rcases mapRange_cases table ⟨romFirst, romLast, d⟩ with ⟨hn, -⟩ | ⟨hs, hd⟩
  · rw [hn] at e
    exact absurd e (by simp)
  · rw [hs] at e
    obtain rfl := Option.some.inj e
    intro m hm
    rcases List.mem_append.mp hm with hm | hm
    · refine .inr ?_
      have hw := h.2 m hm
      have ho := hd m hm
      simp only [Mapping.overlaps, Mapping.wf, romFirst, romLast, Bool.and_eq_true, Bool.and_eq_false_iff,
        decide_eq_true_eq, decide_eq_false_iff_not, BitVec.le_def, BitVec.lt_def, BitVec.toNat_ofNat] at *
      omega
    · rw [List.mem_singleton.mp hm]
      exact .inl ⟨rfl, rfl⟩

/-- Two ranges that share an address intersect. -/
theorem overlaps_of_contains {m k : Mapping} {addr : Addr} (hm : mappingContains m addr = true)
    (hk : mappingContains k addr = true) : m.overlaps k = true := by
  simp only [mappingContains, Mapping.overlaps, Bool.and_eq_true, decide_eq_true_eq, BitVec.le_def] at *
  omega

/-- In a well-formed table the lookup finds the one mapping that contains the address (R103). -/
theorem lookup_eq {table : List Mapping} (h : TableOk table) {m : Mapping} (hm : m ∈ table) {addr : Addr}
    (hc : mappingContains m addr = true) : lookup table addr = some m := by
  obtain ⟨pw, -⟩ := h
  induction table with
  | nil => simp at hm
  | cons k ks ih =>
    obtain ⟨hk, pw⟩ := List.pairwise_cons.mp pw
    rcases List.mem_cons.mp hm with rfl | hm
    · simp [lookup, hc]
    · have hkc : mappingContains k addr = false := by
        by_contra hne
        have := hk m hm
        rw [overlaps_of_contains (by simpa using hne) hc] at this
        exact absurd this (by simp)
      simp only [lookup, List.find?_cons, hkc]
      exact ih hm pw

/-- What the lookup finds is a mapping of the table that contains the address (R103). -/
theorem lookup_mem {table : List Mapping} {addr : Addr} {m : Mapping} (h : lookup table addr = some m) :
    m ∈ table ∧ m.first ≤ addr ∧ addr ≤ m.last :=
  ⟨List.mem_of_find?_eq_some h, by simpa [mappingContains] using List.find?_some h⟩

/-- MAP of ranges that all fit adds them all, in order (R233). -/
theorem mapAll_of_ok {table : List Mapping} {ms : List Mapping} (h : (mapAll table ms).2 = true) :
    (mapAll table ms).1 = table ++ ms := by
  induction ms generalizing table with
  | nil => simp [mapAll]
  | cons m ms ih =>
    rcases mapRange_cases table m with ⟨e, -⟩ | ⟨e, -⟩ <;> simp only [mapAll, e] at h ⊢
    · exact absurd h (by simp)
    · simp [ih h]

theorem lookup_none {table : List Mapping} {addr : Addr} (h : ∀ m ∈ table, mappingContains m addr = false) :
    lookup table addr = none := by
  simpa [lookup] using h

end Sys2Proof.Machine
end

