-- ==== Sys2Proof/Laws/Exec.lean ====
section
/-! SUPPORT. Inversion of the shared shapes of the meanings (a transaction, a port command, a call of the software), of
SYS.LOAD's and SYS.RUN's parts, and of one step. -/

namespace Sys2Proof.Machine

/-! ## Shapes -/

/-- Where nothing has stopped the System the gate is open, and it adds nothing. -/
theorem accepted_of {s : State} (h : s.accepts) (r : Result) : accepted s r = r := by
  simp [accepted, h.1, h.2]

theorem accepted_halted {s : State} (h : s.halted = true) (r : Result) : accepted s r = .fault .halted := by
  simp [accepted, h]

theorem accepted_fatal {s : State} (h : s.halted = false) (hb : s.boot = .fatal) (r : Result) :
    accepted s r = .fault .startupFailed := by
  simp [accepted, h, hb]

theorem accepted_next {s t : State} {r : Result} (h : accepted s r = .next t) : s.accepts ∧ r = .next t := by
  by_cases hh : s.halted = true
  · exact absurd (accepted_halted hh r ▸ h) (by simp)
  · by_cases hb : s.boot = .fatal
    · exact absurd (accepted_fatal (by simpa using hh) hb r ▸ h) (by simp)
    · have ha : s.accepts := ⟨by simpa using hh, hb⟩
      exact ⟨ha, accepted_of ha r ▸ h⟩

/-- A transaction goes on only where it is accepted and not empty, and then returns its result (R50, R258, R263). -/
theorem transaction_next {s t : State} {n : Nat} {r : State × Xfer} (h : transaction s n r = .next t) :
    s.accepts ∧ n ≠ 0 ∧ t = deliver r := by
  obtain ⟨ha, h⟩ := accepted_next h
  split at h
  · exact absurd h (by simp)
  · cases h
    exact ⟨ha, ‹_›, rfl⟩

theorem transaction_of_accepted {s : State} {n : Nat} (r : State × Xfer) (h : s.accepts) (hn : n ≠ 0) :
    transaction s n r = .next (deliver r) := by
  simp [transaction, accepted_of h, hn]

theorem transaction_empty {s : State} (r : State × Xfer) (h : s.accepts) :
    transaction s 0 r = .refused (.illFormed .zeroLength) := by
  simp [transaction, accepted_of h]

theorem transaction_halted {s : State} (n : Nat) (r : State × Xfer) (hh : s.halted = true) :
    transaction s n r = .fault .halted := accepted_halted hh _

theorem transaction_fatal {s : State} (n : Nat) (r : State × Xfer) (hh : s.halted = false) (hb : s.boot = .fatal) :
    transaction s n r = .fault .startupFailed := accepted_fatal hh hb _

theorem command_next {s t : State} {r : Vdp × Option Err} (h : command s r = .next t) :
    s.accepts ∧ t = (s.withVdp r.1).respond (Response.ofErr r.2) := by
  obtain ⟨ha, h⟩ := accepted_next h
  cases h
  exact ⟨ha, rfl⟩

theorem command_of_accepted {s : State} (r : Vdp × Option Err) (h : s.accepts) :
    command s r = .next ((s.withVdp r.1).respond (Response.ofErr r.2)) := accepted_of h _

theorem command_halted {s : State} (r : Vdp × Option Err) (hh : s.halted = true) : command s r = .fault .halted :=
  accepted_halted hh _

theorem command_fatal {s : State} (r : Vdp × Option Err) (hh : s.halted = false) (hb : s.boot = .fatal) :
    command s r = .fault .startupFailed := accepted_fatal hh hb _

theorem answer_next {s t : State} {v : Option Response} (h : answer s v = .next t) : ∃ r, t = s.respond r := by
  unfold answer at h
  split at h
  · exact absurd h (by simp)
  · cases h
    exact ⟨_, rfl⟩

theorem onDevice_next {d : Device} {o : Result} {t : State} (h : onDevice d o = .next t) :
    d.wf = true ∧ o = .next t := by
  cases o <;> simp only [onDevice] at h
  · split at h
    · exact ⟨‹_›, h⟩
    · exact absurd h (by simp)
  all_goals exact absurd h (by simp)

theorem onDevice_wf {d : Device} (o : Result) (h : d.wf = true) : onDevice d o = o := by
  cases o <;> simp [onDevice, h]

theorem onDevice_fault (d : Device) (f : Fault) : onDevice d (.fault f) = .fault f := rfl

theorem onDevice_refused (d : Device) (why : Refusal) : onDevice d (.refused why) = .refused why := rfl

/-! ## The frames of the shapes -/

theorem deliver_leaves {s t : State} {r : State × Xfer} (h : ReadLeaves s r.1) (e : t = deliver r) :
    ∃ s' x, ReadLeaves s s' ∧ t = s'.respond (.transfer x) :=
  ⟨r.1, r.2, h, e⟩

theorem deliver_writeFrame {s t : State} {r : State × Xfer}
    (h : ∃ ram rom vdp rs, r.1 = writeFrame s ram rom vdp rs) (e : t = deliver r) :
    ∃ ram rom vdp rs x, t = (writeFrame s ram rom vdp rs).respond (.transfer x) := by
  obtain ⟨ram, rom, vdp, rs, hr⟩ := h
  exact ⟨ram, rom, vdp, rs, r.2, by rw [e, deliver, hr]⟩

/-- Every read of the table changes at most the phase flag and the trace log, and answers (R52). -/
theorem read_next {i : Instr} {s t : State} (hi : isRead i = true) (h : exec i s = .next t) :
    ∃ s' x, ReadLeaves s s' ∧ t = s'.respond (.transfer x) := by
  cases i <;> simp only [isRead, Bool.false_eq_true] at hi
  case busRd addr n => exact deliver_leaves (busRead_leaves addr n s) (transaction_next h).2.2
  case ramRd offset n => exact deliver_leaves (devRead_leaves .ram offset n s) (transaction_next h).2.2
  case romRd offset n => exact deliver_leaves (devRead_leaves .rom offset n s) (transaction_next h).2.2
  case mirRd period inner offset n =>
    exact deliver_leaves (devRead_leaves (.mirror period inner) offset n s) (transaction_next (onDevice_next h).2).2.2
  case trcRd label sink inner offset n =>
    exact deliver_leaves (devRead_leaves (.tracer label sink inner) offset n s)
      (transaction_next (onDevice_next h).2).2.2
  case stubRd kind offset n => exact deliver_leaves (devRead_leaves (.stub kind) offset n s) (transaction_next h).2.2
  case vdpRd offset n => exact deliver_leaves (devRead_leaves .vdp offset n s) (transaction_next h).2.2
  case vdpStatus p =>
    exact deliver_leaves ⟨false, [], by simp [readFrame, State.withVdp, Vdp.statusRead], by simp⟩
      (transaction_next h).2.2

/-- Every call of the software only answers (R210). -/
theorem software_next {i : Instr} {s t : State} (hi : isSoftware i = true) (h : exec i s = .next t) :
    ∃ r, t = s.respond r := by
  cases i <;> simp only [isSoftware, Bool.false_eq_true] at hi
  case spaceCollapse b => exact answer_next (v := some (.text (collapse b))) h
  all_goals exact answer_next h

/-! ## The reset vector -/

theorem resetVector_leaves (s : State) : ReadLeaves s (resetVector s).1 := by
  simp only [resetVector]
  split
  · exact busRead_leaves _ _ _
  · split
    · exact (busRead_leaves _ _ _).trans (busRead_leaves _ _ _)
    · exact (busRead_leaves _ _ _).trans (busRead_leaves _ _ _)

/-! ## The host calls -/

/-- What MAP can do when it goes on: only under construction, either append the range or fail, which is fatal (R102, R239). -/
theorem execMap_next {d : Device} {first last : Addr} {s t : State} (h : execMap d first last s = .next t) :
    s.boot = .building ∧ first ≤ last ∧ d.wf = true ∧
      ((mapRange s.table ⟨first, last, d⟩ = none ∧ t = (s.withBoot .fatal).respond (.error .rangeOverlap)) ∨
        ∃ table, mapRange s.table ⟨first, last, d⟩ = some table ∧ t = (s.under ⟨s.cfg, table⟩).respond .ok) := by
  unfold execMap at h
  split at h
  · unfold mapInto at h
    split at h
    · exact absurd h (by simp)
    · split at h
      · refine ⟨‹_›, BitVec.not_lt.mp ‹_›, ‹_›, ?_⟩
        split at h <;> cases h
        · exact .inl ⟨‹_›, rfl⟩
        · exact .inr ⟨_, ‹_›, rfl⟩
      · exact absurd h (by simp)
  · split at h <;> exact absurd h (by simp)

/-- What SYS.CONSTRUCT can do when it goes on (R233). -/
theorem execSysConstruct_next {c : Config} {s t : State} (h : execSysConstruct c s = .next t) :
    c.check = none ∧ ∃ boot r, t = ((constructed c (mapAll [] (systemMap c)).1 s).withBoot boot).respond r ∧
      ((mapAll [] (systemMap c)).2 = true ∧ boot = .constructed ∧ r = .ok ∨
        (mapAll [] (systemMap c)).2 = false ∧ boot = .fatal ∧ r = .error .rangeOverlap) := by
  unfold execSysConstruct at h
  cases hc : c.check with
  | some why => simp [hc] at h
  | none =>
    refine ⟨rfl, ?_⟩
    simp only [hc] at h
    rcases hm : mapAll [] (systemMap c) with ⟨table, _ | _⟩ <;> simp only [hm] at h <;> cases h
    · exact ⟨.fatal, _, rfl, .inr ⟨rfl, rfl, rfl⟩⟩
    · exact ⟨.constructed, _, rfl, .inl ⟨rfl, rfl, rfl⟩⟩

theorem execSysLoad_next {data : List Byte} {s t : State} (h : execSysLoad data s = .next t) :
    s.boot ≠ .fatal ∧ t = loadRom data s := by
  unfold execSysLoad at h
  split at h
  · exact absurd h (by simp)
  · cases h
    exact ⟨‹_›, rfl⟩

/-- What SYS.LOAD leaves (R236, R237): a fatal collision, or a state of the two reads of the reset vector with the outcome noted. -/
theorem loadRom_cases (data : List Byte) (s : State) :
    (mapRange (loadPrepared data s).table (romMapping s.cfg) = none ∧
      loadRom data s = ((loadPrepared data s).withBoot .fatal).respond (.error .rangeOverlap)) ∨
    ∃ table s2 boot rs r, mapRange (loadPrepared data s).table (romMapping s.cfg) = some table ∧
      ReadLeaves (((loadPrepared data s).under ⟨s.cfg, table⟩).withHalted false) s2 ∧
      boot ≠ .building ∧ boot ≠ .fatal ∧ loadRom data s = ((s2.withBoot boot).trace rs).respond r := by
  unfold loadRom
  cases hm : mapRange (loadPrepared data s).table (romMapping s.cfg) with
  | none => exact .inl ⟨rfl, by simp [hm]⟩
  | some table =>
    refine .inr ⟨table, (resetVector (((loadPrepared data s).under ⟨s.cfg, table⟩).withHalted false)).1, ?_⟩
    have hl := resetVector_leaves (((loadPrepared data s).under ⟨s.cfg, table⟩).withHalted false)
    rcases hr : resetVector (((loadPrepared data s).under ⟨s.cfg, table⟩).withHalted false) with ⟨s2, e | ⟨sp, pc⟩⟩ <;>
      rw [hr] at hl
    · exact ⟨.failed, [], e, rfl, hl, by simp, by simp, by simp only [hm, hr, State.trace, List.append_nil]⟩
    · exact ⟨.loaded sp pc, lifecycleLines s.cfg, .ok, rfl, hl, by simp, by simp, by simp only [hm, hr]⟩

/-- SYS.RUN goes on only where it is accepted and the System is runnable (R238, R263, D22). -/
theorem execSysRun_next {s t : State} (h : execSysRun s = .next t) :
    s.accepts ∧ runnable s.boot = true ∧ runTurn s = .next t := by
  obtain ⟨ha, h⟩ := accepted_next h
  split at h
  · exact ⟨ha, ‹_›, h⟩
  · exact absurd h (by simp)

/-! ## One step -/

/-- What one step can do: nothing when nothing is presented, a refusal of what does not decode, and otherwise exactly what
exec does with the decoded operation, which is then retired. -/
theorem step_cases (s : State) :
    (s.inbox = [] ∧ step s = .next s) ∨
    (∃ r rest, s.inbox = r :: rest ∧
      ((∃ why, decode s.vdp.writePending r = .error why ∧ step s = .refused (.undecodable why)) ∨
      (∃ i, decode s.vdp.writePending r = .ok i ∧
        ((∃ t, exec i s = .next t ∧ step s = .next (State.retire i t)) ∨
        (∃ f, exec i s = .fault f ∧ step s = .fault f) ∨
        (∃ why, exec i s = .refused why ∧ step s = .refused why))))) := by
  cases hq : s.inbox with
  | nil => exact .inl ⟨rfl, by simp [step, stepUnder, State.fetch, hq]⟩
  | cons r rest =>
    refine .inr ⟨r, rest, rfl, ?_⟩
    cases hd : decode s.vdp.writePending r with
    | error why => exact .inl ⟨why, rfl, by simp [step, stepUnder, State.fetch, hq, hd]⟩
    | ok i =>
      refine .inr ⟨i, rfl, ?_⟩
      cases he : exec i s with
      | next t => exact .inl ⟨t, rfl, by simp [step, stepUnder, State.fetch, hq, hd, he]⟩
      | fault f => exact .inr (.inl ⟨f, rfl, by simp [step, stepUnder, State.fetch, hq, hd, he]⟩)
      | refused why => exact .inr (.inr ⟨why, rfl, by simp [step, stepUnder, State.fetch, hq, hd, he]⟩)

/-- A decoded operation is admitted (R50, D3). -/
theorem decode_wf {p : Bool} {r : Request} {i : Instr} (h : decode p r = .ok i) : i.wf = true := by
  unfold decode at h
  split at h
  · exact absurd h (by simp)
  · split at h
    · exact absurd h (by simp)
    · cases h
      rename_i hc
      simp [Instr.wf, hc]

end Sys2Proof.Machine
end

