-- ==== Sys2Proof/Laws/PerInstr.lean ====
section
/-! SUPPORT. Families of facts about the operations as syntax, one lemma per constructor. -/

namespace Sys2Proof.Laws.PhaseFree

/-- The commands whose encoded form is a control word (R76 to R78). -/
def isControlWord : Instr → Bool
  | .ctrlRegset _ _ | .ctrlAddr1Cd00 _ | .ctrlAddr1Cd01 _ | .ctrlAddr1Cd11 _ | .ctrlAddr2 _ _ _ _ => true
  | _ => false

/-- Only a control word is decoded by the phase of the control port (R170): every other encoded form decodes alike in idle and
in pending. -/
def Statement (i : Instr) : Prop := isControlWord i = true ∨ ∀ p q, decode p (encode i) = decode q (encode i)

theorem map (device : Device) (first last : Addr) : Statement (.map device first last) := .inr fun _ _ => rfl
theorem busRd (addr : Addr) (n : Nat) : Statement (.busRd addr n) := .inr fun _ _ => rfl
theorem busWr (addr : Addr) (bytes : List Byte) : Statement (.busWr addr bytes) := .inr fun _ _ => rfl
theorem ramRd (offset : Addr) (n : Nat) : Statement (.ramRd offset n) := .inr fun _ _ => rfl
theorem ramWr (offset : Addr) (bytes : List Byte) : Statement (.ramWr offset bytes) := .inr fun _ _ => rfl
theorem romRd (offset : Addr) (n : Nat) : Statement (.romRd offset n) := .inr fun _ _ => rfl
theorem romWr (offset : Addr) (bytes : List Byte) : Statement (.romWr offset bytes) := .inr fun _ _ => rfl
theorem mirRd (period : Addr) (inner : Device) (offset : Addr) (n : Nat) : Statement (.mirRd period inner offset n) := .inr fun _ _ => rfl
theorem mirWr (period : Addr) (inner : Device) (offset : Addr) (bytes : List Byte) : Statement (.mirWr period inner offset bytes) := .inr fun _ _ => rfl
theorem trcRd (label : String) (sink : Bool) (inner : Device) (offset : Addr) (n : Nat) : Statement (.trcRd label sink inner offset n) := .inr fun _ _ => rfl
theorem trcWr (label : String) (sink : Bool) (inner : Device) (offset : Addr) (bytes : List Byte) : Statement (.trcWr label sink inner offset bytes) := .inr fun _ _ => rfl
theorem stubRd (kind : Stub) (offset : Addr) (n : Nat) : Statement (.stubRd kind offset n) := .inr fun _ _ => rfl
theorem stubWr (kind : Stub) (offset : Addr) (bytes : List Byte) : Statement (.stubWr kind offset bytes) := .inr fun _ _ => rfl
theorem vdpRd (offset : Addr) (n : Nat) : Statement (.vdpRd offset n) := .inr fun _ _ => rfl
theorem vdpStatus (p : BitVec 1) : Statement (.vdpStatus p) := .inr fun _ _ => rfl
theorem vdpWr (offset : Addr) (bytes : List Byte) : Statement (.vdpWr offset bytes) := .inr fun _ _ => rfl
theorem vdpWr16 (offset : Addr) (b0 b1 : Byte) : Statement (.vdpWr16 offset b0 b1) := .inr fun _ _ => rfl
theorem ctrlWr (p : BitVec 1) (b0 b1 : Byte) : Statement (.ctrlWr p b0 b1) := .inr fun _ _ => rfl
theorem ctrlRegset (index : BitVec 6) (value : Byte) : Statement (.ctrlRegset index value) := .inl rfl
theorem ctrlAddr1Cd00 (addrLo : BitVec 14) : Statement (.ctrlAddr1Cd00 addrLo) := .inl rfl
theorem ctrlAddr1Cd01 (addrLo : BitVec 14) : Statement (.ctrlAddr1Cd01 addrLo) := .inl rfl
theorem ctrlAddr1Cd11 (addrLo : BitVec 14) : Statement (.ctrlAddr1Cd11 addrLo) := .inl rfl
theorem ctrlAddr2 (ignoredHi : Byte) (cdHi : BitVec 4) (ignoredLo : BitVec 2) (addrHi : BitVec 2) : Statement (.ctrlAddr2 ignoredHi cdHi ignoredLo addrHi) := .inl rfl
theorem dataWr (b0 b1 : Byte) : Statement (.dataWr b0 b1) := .inr fun _ _ => rfl
theorem vramWr16 (a : Half) (b0 b1 : Byte) : Statement (.vramWr16 a b0 b1) := .inr fun _ _ => rfl
theorem sysConstruct (cfg : Config) : Statement (.sysConstruct cfg) := .inr fun _ _ => rfl
theorem sysLoad (data : List Byte) : Statement (.sysLoad data) := .inr fun _ _ => rfl
theorem sysRun : Statement (.sysRun) := .inr fun _ _ => rfl
theorem hdrConsoleName : Statement (.hdrConsoleName) := .inr fun _ _ => rfl
theorem hdrCopyright : Statement (.hdrCopyright) := .inr fun _ _ => rfl
theorem hdrDomesticTitle : Statement (.hdrDomesticTitle) := .inr fun _ _ => rfl
theorem hdrOverseasTitle : Statement (.hdrOverseasTitle) := .inr fun _ _ => rfl
theorem hdrProductType : Statement (.hdrProductType) := .inr fun _ _ => rfl
theorem hdrProductCode : Statement (.hdrProductCode) := .inr fun _ _ => rfl
theorem hdrChecksum : Statement (.hdrChecksum) := .inr fun _ _ => rfl
theorem hdrProgramStart : Statement (.hdrProgramStart) := .inr fun _ _ => rfl
theorem hdrProgramEnd : Statement (.hdrProgramEnd) := .inr fun _ _ => rfl
theorem hdrRamStart : Statement (.hdrRamStart) := .inr fun _ _ => rfl
theorem hdrRamEnd : Statement (.hdrRamEnd) := .inr fun _ _ => rfl
theorem hdrRegions : Statement (.hdrRegions) := .inr fun _ _ => rfl
theorem spaceCollapse (b : List Byte) : Statement (.spaceCollapse b) := .inr fun _ _ => rfl
theorem regions : Statement (.regions) := .inr fun _ _ => rfl
theorem checksum : Statement (.checksum) := .inr fun _ _ => rfl

end Sys2Proof.Laws.PhaseFree
end

