-- ==== Sys2Proof/Tests/Slice0.lean ====
section
/-! SUPPORT. Tests: ill-formed terms, decoding of words written out from 30_encoding.md, single operations with the results of
spec/95_test_vectors.md, and for every statement with hypotheses a witness that meets them. -/

set_option autoImplicit false

namespace Sys2Proof.Tests

open Sys2Proof Sys2Proof.Machine

/-! ## Helpers -/

/-- What an operation leaves satisfies a test. -/
def after (i : Instr) (s : State) (p : State → Bool) : Bool :=
  match exec i s with
  | .next t => p t
  | .fault _ => false
  | .refused _ => false

/-- The reset state with another code, address and phase. -/
def vdpAt (code address : Half) (pending : Bool) : State :=
  { State.reset with vdp := { State.reset.vdp with codeReg := code, addressReg := address, writePending := pending } }

/-- The reset state with a ROM of a given size whose listed bytes stand from an offset up. -/
def romAt (size first : Nat) (bytes : List Byte) : State :=
  { State.reset with rom := { size := size, cells := Memory.fromBytes first bytes } }

/-- The reset state with bytes of RAM. -/
def ramAt (first : Nat) (bytes : List Byte) : State :=
  { State.reset with ram := { size := 0x10000, cells := Memory.fromBytes first bytes } }

def haltedState : State := { State.reset with halted := true }

/-- A System under construction with the given mappings. -/
def buildingWith (table : List Mapping) : State := { State.unbuilt with table := table }

/-- A System whose construction failed. -/
def fatalState : State := { State.reset with boot := .fatal }

/-- The state in which one operation is presented. -/
def presenting (s : State) (r : Request) : State := { s with inbox := [r] }

def gives (count : Nat) (bytes : List Byte) : Response := .transfer ⟨count, bytes, none⟩
def failing (count : Nat) (e : Err) : Response := .transfer ⟨count, [], some e⟩

/-! ## Ill-formed terms, one for each check: the decoder refuses them -/

theorem test_refuses_zero_length_read :
    decode false (.txn .read 0xE00000#32 0 []) = .error (.illFormed .zeroLength) := by decide
theorem test_refuses_zero_length_write :
    decode false (.dev .vdp .write 0#32 0 []) = .error (.illFormed .zeroLength) := by decide
theorem test_refuses_length_mismatch :
    decode false (.txn .write 0xE00000#32 2 [0x00#8]) = .error .lengthMismatch := by decide
/-- V-B1d. -/
theorem test_refuses_reversed_range :
    decode false (.map .ram 5#32 4#32) = .error (.illFormed .reversedRange) := by decide
/-- V-M7. -/
theorem test_refuses_zero_period :
    decode false (.dev (.mirror 0#32 .ram) .read 0#32 1 []) = .error (.illFormed .zeroPeriod) := by decide
theorem test_refuses_inner_zero_period :
    decode false (.map (.tracer "t" true (.mirror 0#32 .rom)) 0#32 4#32) = .error (.illFormed .zeroPeriod) := by decide
theorem test_refuses_ram_size_zero :
    decode false (.construct { Config.default with ramSize := 0#32 }) = .error (.illFormed .ramSizeZero) := by rfl
theorem test_refuses_small_vdp_window :
    decode false (.construct { Config.default with vdpWindow := 8 }) = .error (.illFormed .vdpWindowSize) := by rfl
theorem test_refuses_large_vdp_window :
    decode false (.construct { Config.default with vdpWindow := 17 }) = .error (.illFormed .vdpWindowSize) := by rfl
theorem test_refuses_vdp_window_end :
    decode false (.construct { Config.default with vdpBase := 0xFFFFFFF1#32 }) = .error (.illFormed .vdpWindowEnd) := by rfl
theorem test_refuses_reversed_ram_window :
    decode false (.construct { Config.default with ramFirst := 2#32, ramLast := 1#32 })
      = .error (.illFormed .reversedRange) := by rfl
theorem test_refuses_reversed_stub :
    decode false (.construct { Config.default with stubs := [⟨2#32, 1#32, .stub .noOp⟩] })
      = .error (.illFormed .reversedRange) := by rfl
theorem test_refuses_device_that_is_no_stub :
    decode false (.construct { Config.default with stubs := [⟨1#32, 2#32, .ram⟩] }) = .error (.illFormed .notAStub) := by rfl
/-- A stub whose first address is the last of ROM_WINDOW. -/
theorem test_refuses_range_in_rom_window :
    decode false (.construct { Config.default with stubs := [⟨0x3FFFFF#32, 0x400000#32, .stub .noOp⟩] })
      = .error (.illFormed .romWindow) := by rfl
theorem test_admits_default_configuration : Config.default.wf = true := by rfl

/-! ## Decoding: words written out from the encodings -/

/-- R70, R85 (program P1, transaction 1): `WR.L 0xC00004, [40 00 00 00]`. -/
theorem test_decodes_bus_write :
    decode false (.txn .write 0b00000000110000000000000000000100#32 4 [0x40#8, 0x00#8, 0x00#8, 0x00#8])
      = .ok (.busWr 0xC00004#32 [0x40#8, 0x00#8, 0x00#8, 0x00#8]) := by decide
theorem test_decodes_bus_read :
    decode true (.txn .read 0b00000000111111110000000000000000#32 4 []) = .ok (.busRd 0xFF0000#32 4) := by decide
theorem test_decodes_map :
    decode false (.map .rom 0x0#32 0x3FFFFF#32) = .ok (.map .rom 0x0#32 0x3FFFFF#32) := by decide
/-- R72, R85: device transactions. -/
theorem test_decodes_ram :
    decode false (.dev .ram .read 0xFFFE#32 4 []) = .ok (.ramRd 0xFFFE#32 4) ∧
    decode false (.dev .ram .write 0xFFFF#32 2 [0xAA#8, 0xBB#8]) = .ok (.ramWr 0xFFFF#32 [0xAA#8, 0xBB#8]) := by decide
theorem test_decodes_rom :
    decode false (.dev .rom .read 0x1FE#32 4 []) = .ok (.romRd 0x1FE#32 4) ∧
    decode false (.dev .rom .write 0x200#32 1 [0x00#8]) = .ok (.romWr 0x200#32 [0x00#8]) := by decide
theorem test_decodes_mirror :
    decode false (.dev (.mirror 3#32 .ram) .read 7#32 1 []) = .ok (.mirRd 3#32 .ram 7#32 1) ∧
    decode false (.dev (.mirror 3#32 .ram) .write 7#32 1 [1#8]) = .ok (.mirWr 3#32 .ram 7#32 [1#8]) := by decide
theorem test_decodes_tracer :
    decode false (.dev (.tracer "vdp" true .vdp) .read 0#32 2 []) = .ok (.trcRd "vdp" true .vdp 0#32 2) ∧
    decode false (.dev (.tracer "vdp" true .vdp) .write 4#32 2 [0x80#8, 0xAB#8])
      = .ok (.trcWr "vdp" true .vdp 4#32 [0x80#8, 0xAB#8]) := by decide
theorem test_decodes_stub :
    decode false (.dev (.stub (.const 0xA0#8)) .read 1#32 1 []) = .ok (.stubRd (.const 0xA0#8) 1#32 1) ∧
    decode false (.dev (.stub .noOp) .write 0#32 2 [1#8, 0#8]) = .ok (.stubWr .noOp 0#32 [1#8, 0#8]) := by decide
/-- R74: the control-port pattern has one ignored bit; other reads at the VDP are plain device reads. -/
theorem test_decodes_status :
    decode false (.portRead 0b00000000000000000000000000000100#32 2) = .ok (.vdpStatus 0#1) ∧
    decode true (.portRead 0b00000000000000000000000000000110#32 2) = .ok (.vdpStatus 1#1) ∧
    decode false (.portRead 0b00000000000000000000000000000101#32 2) = .ok (.vdpRd 5#32 2) ∧
    decode false (.portRead 0b10000000000000000000000000000100#32 2) = .ok (.vdpRd 0x80000004#32 2) ∧
    decode false (.portRead 4#32 4) = .ok (.vdpRd 4#32 4) := by decide
theorem test_decodes_vdp :
    decode false (.dev .vdp .read 8#32 2 []) = .ok (.vdpRd 8#32 2) ∧
    decode false (.dev .vdp .write 6#32 1 [0x81#8]) = .ok (.vdpWr 6#32 [0x81#8]) := by decide
theorem test_decodes_logical_writes :
    decode false (.logical 2#32 0b0001001000110100#16) = .ok (.vdpWr16 2#32 0x12#8 0x34#8) ∧
    decode false (.ctrlPort 6#32 0b1000000010101011#16) = .ok (.ctrlWr 1#1 0x80#8 0xAB#8) ∧
    decode false (.ctrlPort 8#32 0b1000000010101011#16) = .ok (.vdpWr16 8#32 0x80#8 0xAB#8) := by decide
/-- P2, words 1 to 3 and 6, and V-C8: CW-REG, CW-A1, CW-A2. -/
theorem test_decodes_register_set :
    decode false (.ctrlWord 0b1000000101000100#16) = .ok (.ctrlRegset 1#6 0x44#8) ∧
    decode false (.ctrlWord 0b1011111100000001#16) = .ok (.ctrlRegset 63#6 0x01#8) := by decide
theorem test_decodes_phase_one :
    decode false (.ctrlWord 0b0001001000110100#16) = .ok (.ctrlAddr1Cd00 0x1234#14) ∧
    decode false (.ctrlWord 0b0111111111111110#16) = .ok (.ctrlAddr1Cd01 0x3FFE#14) ∧
    decode false (.ctrlWord 0b1100000000000001#16) = .ok (.ctrlAddr1Cd11 0x0001#14) := by decide
theorem test_decodes_phase_two :
    decode true (.ctrlWord 0b0000000000000011#16) = .ok (.ctrlAddr2 0#8 0#4 0#2 3#2) ∧
    decode true (.ctrlWord 0b0000000010001110#16) = .ok (.ctrlAddr2 0#8 0b1000#4 0b11#2 0b10#2) := by decide
theorem test_decodes_data_words :
    decode true (.dataWord 0b1101111010101101#16) = .ok (.dataWr 0xDE#8 0xAD#8) ∧
    decode true (.vramWord 0xFFFF#16 0b0001000100100010#16) = .ok (.vramWr16 0xFFFF#16 0x11#8 0x22#8) := by decide
theorem test_decodes_host_calls :
    decode false (.construct Config.default) = .ok (.sysConstruct Config.default) ∧
    decode false (.load [0x00#8]) = .ok (.sysLoad [0x00#8]) ∧ decode true .run = .ok .sysRun := ⟨rfl, rfl, rfl⟩
theorem test_decodes_software :
    decode false (.header .consoleName) = .ok .hdrConsoleName ∧ decode false (.header .copyright) = .ok .hdrCopyright ∧
    decode false (.header .domesticTitle) = .ok .hdrDomesticTitle ∧
    decode false (.header .overseasTitle) = .ok .hdrOverseasTitle ∧
    decode false (.header .productType) = .ok .hdrProductType ∧ decode false (.header .productCode) = .ok .hdrProductCode ∧
    decode false (.header .checksum) = .ok .hdrChecksum ∧ decode false (.header .programStart) = .ok .hdrProgramStart ∧
    decode false (.header .programEnd) = .ok .hdrProgramEnd ∧ decode false (.header .ramStart) = .ok .hdrRamStart ∧
    decode false (.header .ramEnd) = .ok .hdrRamEnd ∧ decode false (.header .regions) = .ok .hdrRegions ∧
    decode false (.spaceCollapse [0x20#8]) = .ok (.spaceCollapse [0x20#8]) ∧ decode false .regions = .ok .regions ∧
    decode false .checksum = .ok .checksum := by decide

/-- Words of the opcode table. -/
theorem test_decodes_table_words :
    decodeTableWord 16 0x80AB = some (.ctrlRegset 0#6 0xAB#8) ∧ decodeTableWord 16 0x4000 = some (.ctrlAddr1Cd01 0#14) ∧
    decodeTableWord 32 0x00000006 = some (.vdpStatus 1#1) ∧ decodeTableWord 32 0xE00000 = some (.busRd 0xE00000#32 1) ∧
    decodeTableWord 24 0x454A20 = some .regions ∧
    decodeTableWord 64 0x00FFFE0000000200
      = some (.sysLoad [0x00#8, 0xFF#8, 0xFE#8, 0x00#8, 0x00#8, 0x00#8, 0x02#8, 0x00#8]) := by decide

/-- A step after withFetchWord runs the table word's operation, the first after reset: `10 000000 10101011` (S6), and the
region bytes `45 4A 20` (S3). -/
theorem test_step_runs_table_word :
    (match step (State.reset.withFetchWord 16 0x80AB) with
      | .next t => t.vdp.registers[0] == 0xAB#8 && t.inbox == []
      | _ => false) = true := by decide
theorem test_step_runs_region_bytes :
    (match step (State.reset.withFetchWord 24 0x454A20) with
      | .next t => t.response == .regions [.europe, .japan]
      | _ => false) = true := by decide

/-! ## Single operations, with the results of spec/95_test_vectors.md -/

/-- V-B1, V-B1b: the inclusive ranges share 0x3FFFFF, or do not. -/
theorem test_map_shared_end :
    after (.map .ram 0x3FFFFF#32 0x400010#32) (buildingWith [⟨0#32, 0x3FFFFF#32, .rom⟩])
      (fun t => t.response == .error .rangeOverlap && t.boot == .fatal && t.table == [⟨0#32, 0x3FFFFF#32, .rom⟩])
      = true := by decide
theorem test_map_adjacent :
    after (.map .ram 0x400000#32 0x400010#32) (buildingWith [⟨0#32, 0x3FFFFF#32, .rom⟩])
      (fun t => t.response == .ok && t.table.length == 2) = true := by decide
/-- R239: no remapping after construction. -/
theorem test_map_after_construction : exec (.map .ram 0x400000#32 0x400010#32) State.reset = .refused .remap := by rfl
/-- V-B5: the device's offset, not the address; V-B9: no 24-bit aliasing. -/
theorem test_busRd_device_offset :
    after (.busRd 0x00C00008#32 2) State.reset (fun t => t.response == failing 0 (.accessViolation 8#32)) = true := by decide
theorem test_busRd_unmapped :
    after (.busRd 0x01000000#32 1) State.reset
      (fun t => t.response == failing 0 (.accessViolation 0x01000000#32)) = true := by decide
/-- V-B4, V-M4. -/
theorem test_busWr_register :
    after (.busWr 0x00C00004#32 [0x80#8, 0xAB#8]) State.reset
      (fun t => t.response == gives 2 [] && t.vdp.registers[0] == 0xAB#8) = true := by decide
theorem test_busWr_mirror_end :
    after (.busWr 0xFFFFFE#32 [1#8, 2#8, 3#8, 4#8]) State.reset
      (fun t => t.response == failing 2 .shortWrite && t.ram.cells == [(0xFFFE, 1#8), (0xFFFF, 2#8)]) = true := by decide

/-- V-R2 (with bytes there), V-R4. -/
theorem test_ramRd_to_the_end :
    after (.ramRd 0xFFFE#32 4) (ramAt 0xFFFE [0x12#8, 0x34#8]) (fun t => t.response == gives 2 [0x12#8, 0x34#8])
      = true := by decide
theorem test_ramRd_outside :
    after (.ramRd 0x10000#32 1) State.reset (fun t => t.response == failing 0 (.accessViolation 0x10000#32))
      = true := by decide
/-- V-R3, V-R5. -/
theorem test_ramWr_short :
    after (.ramWr 0xFFFF#32 [0xAA#8, 0xBB#8]) State.reset
      (fun t => t.response == failing 1 .shortWrite && t.ram.cells == [(0xFFFF, 0xAA#8)]) = true := by decide
theorem test_ramWr_fits :
    after (.ramWr 0xFFFF#32 [0xAA#8]) State.reset
      (fun t => t.response == gives 1 [] && t.ram.cells == [(0xFFFF, 0xAA#8)]) = true := by decide
/-- V-O2, V-O3. -/
theorem test_romRd_to_the_end :
    after (.romRd 0x1FE#32 4) (romAt 0x200 0x1FE [0xFE#8, 0xFF#8]) (fun t => t.response == gives 2 [0xFE#8, 0xFF#8])
      = true := by decide
theorem test_romRd_outside :
    after (.romRd 0x200#32 2) (romAt 0x200 0 []) (fun t => t.response == failing 0 .endOfData) = true := by decide
/-- V-O4, V-O5. -/
theorem test_romWr_outside :
    after (.romWr 0x200#32 [0#8]) (romAt 0x200 0 []) (fun t => t.response == failing 0 (.accessViolation 0x200#32))
      = true := by decide
theorem test_romWr_short :
    after (.romWr 0x1FF#32 [0x11#8, 0x22#8]) (romAt 0x200 0 [])
      (fun t => t.response == failing 1 .shortWrite && t.rom == ⟨0x200, [(0x1FF, 0x11#8)]⟩) = true := by decide
/-- V-M5 (a period that is no power of two), V-M6 (the reduced offset in the error). -/
theorem test_mirRd_period_three :
    after (.mirRd 3#32 .ram 7#32 1) { State.reset with ram := ⟨3, [(0, 5#8), (1, 6#8), (2, 7#8)]⟩ }
      (fun t => t.response == gives 1 [6#8]) = true := by decide
theorem test_mirRd_reduced_offset :
    after (.mirRd 0x100#32 .ram 0x190#32 1) { State.reset with ram := ⟨0x80, []⟩ }
      (fun t => t.response == failing 0 (.accessViolation 0x90#32)) = true := by decide
theorem test_mirWr_reduced_offset :
    after (.mirWr 0x10000#32 .ram 0x12344#32 [0x00#8, 0xE1#8]) State.reset
      (fun t => t.response == gives 2 [] && t.ram.cells == [(0x2345, 0xE1#8)]) = true := by decide
/-- V-T2, V-T1, V-T3. -/
theorem test_trcRd_passes_error :
    after (.trcRd "vdp" true .vdp 0#32 2) State.reset
      (fun t => t.response == failing 0 (.unsupportedOperation .readNotSpecified) &&
        t.traceLog == [.read "vdp" 0#32 2]) = true := by decide
theorem test_trcWr_logs :
    after (.trcWr "vdp" true .vdp 4#32 [0x80#8, 0xAB#8]) State.reset
      (fun t => t.response == gives 2 [] && t.vdp.registers[0] == 0xAB#8 &&
        t.traceLog == [.write "vdp" 4#32 [0x80#8, 0xAB#8]]) = true := by decide
theorem test_trcWr_without_sink :
    after (.trcWr "vdp" false .vdp 4#32 [0x80#8, 0xAB#8]) State.reset
      (fun t => t.response == gives 2 [] && t.vdp.registers[0] == 0xAB#8 && t.traceLog == []) = true := by decide
/-- V-U1, V-U2. -/
theorem test_stubRd_constant :
    after (.stubRd (.const 0xA0#8) 0#32 2) State.reset (fun t => t.response == gives 2 [0xA0#8, 0xA0#8]) = true := by decide
theorem test_stubWr_discards :
    after (.stubWr .noOp 0#32 [1#8, 0#8]) State.reset (fun t => t.response == gives 2 [] && t.ram.cells == [])
      = true := by decide

/-- V-P4 (the phase stays), V-P5 (the offset is tested first). -/
theorem test_vdpRd_wrong_length :
    after (.vdpRd 4#32 1) (vdpAt 0#16 0#16 true)
      (fun t => t.response == failing 0 (.unsupportedOperation .readNotSpecified) && t.vdp.writePending) = true := by decide
theorem test_vdpRd_no_port :
    after (.vdpRd 5#32 2) State.reset (fun t => t.response == failing 0 (.accessViolation 5#32)) = true := by decide
/-- V-P1. -/
theorem test_vdpStatus :
    after (.vdpStatus 0#1) { State.reset with vdp := { State.reset.vdp with status := 0x3400#16, writePending := true } }
      (fun t => t.response == gives 2 [0x34#8, 0x00#8] && !t.vdp.writePending && t.vdp.status == 0x3400#16)
      = true := by decide
/-- V-P10 (the last byte alone), V-P9 (the first part stays). -/
theorem test_vdpWr_odd_length :
    after (.vdpWr 4#32 [0x40#8, 0#8, 0#8]) State.reset
      (fun t => t.response == gives 3 [] && t.vdp.codeReg == 1#16 && t.vdp.addressReg == 0#16 && !t.vdp.writePending)
      = true := by decide
theorem test_vdpWr_partial :
    after (.vdpWr 6#32 [0x81#8, 0x04#8, 0#8, 0#8]) State.reset
      (fun t => t.response == failing 2 (.accessViolation 8#32) && t.vdp.registers[1] == 0x04#8) = true := by decide
/-- V-P11, V-P12's data write. -/
theorem test_vdpWr16_no_port :
    after (.vdpWr16 5#32 0#8 0#8) State.reset (fun t => t.response == .error (.accessViolation 5#32)) = true := by decide
theorem test_vdpWr16_data :
    after (.vdpWr16 2#32 0x12#8 0x34#8) (vdpAt 1#16 0#16 false)
      (fun t => t.response == .ok && t.vdp.vram.cells == [(0, 0x12#8), (1, 0x34#8)]) = true := by decide

/-- V-C9 (a register-select pattern in pending is phase 2), V-C16. -/
theorem test_ctrlWr_pending :
    after (.ctrlWr 0#1 0x80#8 0xAB#8) (vdpAt 1#16 0#16 true)
      (fun t => t.vdp.codeReg == 0x0029#16 && t.vdp.addressReg == 0xC000#16 && !t.vdp.writePending &&
        t.vdp.registers[0] == 0#8) = true := by decide
theorem test_ctrlWr_idle :
    after (.ctrlWr 1#1 0x41#8 0x41#8) State.reset
      (fun t => t.vdp.codeReg == 1#16 && t.vdp.addressReg == 0x0141#16 && t.vdp.writePending) = true := by decide
/-- V-C11, V-C12. -/
theorem test_ctrlRegset_last :
    after (.ctrlRegset 23#6 0xFF#8) State.reset (fun t => t.vdp.registers[23] == 0xFF#8 && !t.vdp.writePending)
      = true := by decide
theorem test_ctrlRegset_out_of_range :
    after (.ctrlRegset 24#6 0x55#8) State.reset (fun t => t.response == .ok && t.vdp == State.reset.vdp) = true := by decide
/-- S8 step 3, V-C3, V-C5 (address bits 15:14 kept). -/
theorem test_ctrlAddr1Cd00 :
    after (.ctrlAddr1Cd00 0x1234#14) (vdpAt 1#16 0#16 false)
      (fun t => t.vdp.codeReg == 0#16 && t.vdp.addressReg == 0x1234#16 && t.vdp.writePending) = true := by decide
theorem test_ctrlAddr1Cd01 :
    after (.ctrlAddr1Cd01 0x3FFF#14) State.reset
      (fun t => t.vdp.codeReg == 1#16 && t.vdp.addressReg == 0x3FFF#16 && t.vdp.writePending) = true := by decide
theorem test_ctrlAddr1Cd11 :
    after (.ctrlAddr1Cd11 0#14) (vdpAt 1#16 0xFFFF#16 false)
      (fun t => t.vdp.codeReg == 3#16 && t.vdp.addressReg == 0xC000#16 && t.vdp.writePending) = true := by decide
/-- V-C8, V-C4. -/
theorem test_ctrlAddr2_ignores :
    after (.ctrlAddr2 0#8 0b1000#4 0b11#2 0b10#2) (vdpAt 1#16 0x0123#16 true)
      (fun t => t.vdp.codeReg == 0x0021#16 && t.vdp.addressReg == 0x8123#16 && !t.vdp.writePending) = true := by decide
theorem test_ctrlAddr2_address :
    after (.ctrlAddr2 0xFF#8 0#4 0#2 0b11#2) (vdpAt 1#16 0x3FFF#16 true)
      (fun t => t.vdp.codeReg == 1#16 && t.vdp.addressReg == 0xFFFF#16) = true := by decide

/-- V-D8 (no wrap), V-D3 (the phase is cleared before the target is refused). -/
theorem test_dataWr_top :
    after (.dataWr 0x11#8 0x22#8) (vdpAt 1#16 0xFFFF#16 false)
      (fun t => t.response == .ok && t.vdp.vram.cells == [(0xFFFF, 0x11#8), (0x10000, 0x22#8)] &&
        t.vdp.addressReg == 0xFFFF#16) = true := by decide
theorem test_dataWr_target :
    after (.dataWr 0x0E#8 0xEE#8) (vdpAt 3#16 0#16 true)
      (fun t => t.response == .error (.unsupportedOperation .unsupportedTarget) && !t.vdp.writePending &&
        t.vdp.vram.cells == []) = true := by decide
/-- V-D9: no swap at an odd address. -/
theorem test_vramWr16_odd :
    after (.vramWr16 1#16 0xAA#8 0xBB#8) State.reset (fun t => t.vdp.vram.cells == [(1, 0xAA#8), (2, 0xBB#8)])
      = true := by decide

/-- V-S6. -/
theorem test_sysConstruct_overlap :
    after (.sysConstruct { Config.default with stubs := [⟨0xC0000F#32, 0xC00010#32, .stub .noOp⟩] }) State.reset
      (fun t => t.response == .error .rangeOverlap && t.boot == .fatal) = true := by decide
/-- R285: a failed construction is fatal, and SYS.LOAD does not mend it. -/
theorem test_sysLoad_after_failed_construction : exec (.sysLoad [0#8]) fatalState = .fault .startupFailed := by rfl
/-- V-S1, V-S2. -/
theorem test_sysLoad_vector :
    after (.sysLoad [0x00#8, 0xFF#8, 0xFE#8, 0x00#8, 0x00#8, 0x00#8, 0x02#8, 0x00#8]) (vdpAt 1#16 5#16 true)
      (fun t => t.boot == .loaded 0x00FFFE00#32 0x00000200#32 && !t.vdp.writePending && t.vdp.codeReg == 0#16)
      = true := by decide
theorem test_sysLoad_seven_bytes :
    after (.sysLoad [0x00#8, 0xFF#8, 0xFE#8, 0x00#8, 0x00#8, 0x00#8, 0x02#8]) State.reset
      (fun t => t.boot == .failed && t.response == .shortVector 3) = true := by decide
/-- P4: the first error of the executor's access halts. -/
theorem test_sysRun_halts :
    after .sysRun { State.reset with executor := [.write 0xC00000#32 [0#8, 0#8]] }
      (fun t => t.halted && !t.running &&
        t.response == failing 0 (.unsupportedOperation .operationMismatch)) = true := by decide
theorem test_sysRun_terminates :
    after .sysRun { State.reset with executor := [.terminate], running := true }
      (fun t => !t.halted && !t.running && t.response == .ok) = true := by decide

/-- V-H1's bytes at 0x100 (R211, R213). -/
theorem test_hdrConsoleName :
    after .hdrConsoleName (romAt 0x200 0x100 [0x53#8, 0x45#8, 0x47#8, 0x41#8, 0x20#8, 0x47#8, 0x45#8, 0x4E#8, 0x45#8,
        0x53#8, 0x49#8, 0x53#8, 0x20#8, 0x20#8, 0x20#8, 0x20#8])
      (fun t => t.response == .text [0x53#8, 0x45#8, 0x47#8, 0x41#8, 0x20#8, 0x47#8, 0x45#8, 0x4E#8, 0x45#8, 0x53#8,
        0x49#8, 0x53#8, 0x20#8]) = true := by decide
/-- R211: the field ends where the next begins; the bytes there are 0 in this ROM. -/
theorem test_hdrCopyright :
    after .hdrCopyright (romAt 0x200 0x110 (List.replicate 17 0x20#8)) (fun t => t.response == .text [0x20#8]) = true := by
  decide
theorem test_hdrDomesticTitle :
    after .hdrDomesticTitle (romAt 0x200 0x11F (List.replicate 49 0x20#8)) (fun t => t.response == .text [0x20#8])
      = true := by decide
theorem test_hdrOverseasTitle :
    after .hdrOverseasTitle (romAt 0x180 0x150 (List.replicate 48 0x20#8)) (fun t => t.response == .text [0x20#8])
      = true := by decide
/-- A plain field keeps its spaces (R211). -/
theorem test_hdrProductType :
    after .hdrProductType (romAt 0x200 0x180 [0x20#8, 0x20#8, 0x41#8]) (fun t => t.response == .text [0x20#8, 0x20#8])
      = true := by decide
theorem test_hdrProductCode :
    after .hdrProductCode (romAt 0x200 0x182 [0x20#8, 0x20#8, 0x41#8])
      (fun t => t.response == .text ([0x20#8, 0x20#8, 0x41#8] ++ List.replicate 9 0#8)) = true := by decide
/-- V-H7, V-H6. -/
theorem test_hdrChecksum :
    after .hdrChecksum (romAt 0x200 0x18E [0x12#8, 0x34#8]) (fun t => t.response == .word16 0x1234#16) = true := by decide
theorem test_hdrProgramStart :
    after .hdrProgramStart (romAt 0x200 0x1A4 [0x00#8, 0x0F#8, 0xFF#8, 0xFF#8]) (fun t => t.response == .word32 0#32)
      = true := by decide
theorem test_hdrProgramEnd :
    after .hdrProgramEnd (romAt 0x200 0x1A4 [0x00#8, 0x0F#8, 0xFF#8, 0xFF#8])
      (fun t => t.response == .word32 0x000FFFFF#32) = true := by decide
theorem test_hdrRamStart :
    after .hdrRamStart (romAt 0x1AC 0x1A8 [0x00#8, 0xFF#8, 0x01#8, 0x02#8])
      (fun t => t.response == .word32 0x00FF0102#32) = true := by decide
theorem test_hdrRamEnd :
    after .hdrRamEnd (romAt 0x1B0 0x1AC [0x00#8, 0xFF#8, 0xFF#8, 0xFE#8])
      (fun t => t.response == .word32 0x00FFFFFE#32) = true := by decide
/-- S3, V-H8. -/
theorem test_hdrRegions :
    after .hdrRegions (romAt 0x1F3 0x1F0 [0x04#8, 0x08#8, 0x46#8])
      (fun t => t.response == .regions [.brazil, .hongKong, .france]) = true := by decide
theorem test_regions_skips_unknown :
    after .regions (romAt 0x200 0x1F0 [0x55#8, 0x45#8, 0x20#8]) (fun t => t.response == .regions [.europe]) = true := by
  decide
theorem test_regions_too_short : exec .regions (romAt 0x1F2 0 []) = .refused .romTooShort := by rfl
/-- V-H4, V-H5. -/
theorem test_spaceCollapse_runs :
    after (.spaceCollapse [0x20#8, 0x20#8, 0x41#8, 0x20#8, 0x20#8, 0x42#8]) State.reset
      (fun t => t.response == .text [0x20#8, 0x41#8, 0x20#8, 0x42#8]) = true := by decide
theorem test_spaceCollapse_tab :
    after (.spaceCollapse [0x41#8, 0x09#8, 0x09#8, 0x20#8, 0x42#8]) State.reset
      (fun t => t.response == .text [0x41#8, 0x09#8, 0x09#8, 0x20#8, 0x42#8]) = true := by decide
/-- V-H9, V-H11 (the odd last byte is not summed). -/
theorem test_checksum_wraps :
    after .checksum { State.reset with rom := ⟨0x206, Memory.fromBytes 0x18E [0x12#8, 0x34#8]
        ++ Memory.fromBytes 0x200 [0x12#8, 0x34#8, 0xFF#8, 0xFF#8, 0x00#8, 0x01#8]⟩ }
      (fun t => t.response == .ok) = true := by decide
theorem test_checksum_odd_length :
    after .checksum { State.reset with rom := ⟨0x205, Memory.fromBytes 0x18E [0x00#8, 0x03#8]
        ++ Memory.fromBytes 0x200 [0x00#8, 0x01#8, 0x00#8, 0x02#8, 0xFF#8]⟩ }
      (fun t => t.response == .ok) = true := by decide

/-! ## Witnesses: for each statement with hypotheses, states and operands that meet them, clause by clause -/

/-- The table of the reset state is well-formed. -/
theorem witness_table : TableOk State.reset.table := by decide

/-- Nothing of it stands in the ROM's window. -/
theorem witness_rom_window : RomWindowFree State.reset.table := by decide

/-- A state that meets the invariant and has an operation presented. -/
def presentedState : State := presenting State.reset (.ctrlWord 0x8001#16)

theorem witness_DecodeOfEncode : (Instr.busWr 0xFFFFFFFF#32 [0xFF#8]).wf = true ∧
    (Instr.mirRd 1#32 .ram 0xFFFFFFFF#32 1).wf = true := by decide
theorem witness_EncodeOfDecodedControlWord :
    decode false (.ctrlWord 0xBFFF#16) = .ok (.ctrlRegset 63#6 0xFF#8) ∧
    decode true (.ctrlWord 0xFFFF#16) = .ok (.ctrlAddr2 0xFF#8 0xF#4 3#2 3#2) := by decide
theorem witness_IdleControlWordFormats : State.reset.accepts ∧ State.reset.vdp.writePending = false ∧
    BitVec.extractLsb' 14 2 (0x8000#16 : Half) = 0b10#2 ∧ BitVec.extractLsb' 14 2 (0xBFFF#16 : Half) = 0b10#2 ∧
    BitVec.extractLsb' 14 2 (0x7FFF#16 : Half) ≠ 0b10#2 ∧ BitVec.extractLsb' 14 2 (0xC000#16 : Half) ≠ 0b10#2 := by decide
theorem witness_EmptyTransactionRefused : State.reset.accepts ∧
    (Instr.busRd 0#32 0).check = some .zeroLength ∧ (Instr.mirWr 0#32 .ram 0#32 []).check = some .zeroLength ∧
    runnable State.reset.boot = true ∧
    ({ State.reset with executor := [.read 5#32 0] } : State).executor = .read 5#32 0 :: [] ∧
    ({ State.reset with executor := [.write 5#32 []] } : State).executor = .write 5#32 [] :: [] := by decide
theorem witness_StepRunsDecodedOperation : State.reset.inbox = [] ∧
    presentedState.inbox = [.ctrlWord 0x8001#16] ∧
    decode presentedState.vdp.writePending (.ctrlWord 0x8001#16) = .ok (.ctrlRegset 0#6 1#8) ∧
    after (.ctrlRegset 0#6 1#8) presentedState (fun _ => true) = true ∧
    exec (.ctrlRegset 0#6 1#8) { presentedState with halted := true } = .fault .halted ∧
    decode false .regions = .ok .regions ∧ exec .regions (presenting State.reset .regions) = .refused .romTooShort ∧
    (presenting State.reset (.txn .read 0#32 0 [])).inbox = [.txn .read 0#32 0 []] ∧
    decode false (.txn .read 0#32 0 []) = .error (.illFormed .zeroLength) :=
  ⟨rfl, rfl, by decide, by decide, rfl, rfl, rfl, rfl, rfl⟩
theorem witness_next_of_instruction : after (.vdpStatus 0#1) State.reset (fun _ => true) = true ∧
    isSetup (.vdpStatus 0#1) = false ∧ Instr.vdpStatus 0#1 ≠ .sysRun ∧ isRead (.vdpStatus 0#1) = true := by decide
theorem witness_StepKeepsInvariant : presentedState.Inv ∧ ∃ t, step presentedState = .next t :=
  ⟨⟨⟨Memory.wf_nil, by simp [presentedState, presenting, State.reset]⟩,
    ⟨Memory.wf_nil, by simp [presentedState, presenting, State.reset]⟩,
    ⟨Memory.wf_nil, by simp [presentedState, presenting, State.reset, Vdp.reset]⟩, rfl, fun _ _ => rfl, rfl, rfl,
    by decide, by decide, witness_table, fun _ _ => witness_rom_window,
    by simp [presentedState, presenting, State.reset]⟩, _, rfl⟩
/-- A mapped address at each end of a range, and an unmapped one beside it. -/
theorem witness_LookupDecidesAccess : State.reset.accepts ∧ TableOk State.reset.table ∧
    (∃ m ∈ State.reset.table, m.first ≤ 0xC00000#32 ∧ 0xC00000#32 ≤ m.last) ∧
    (∃ m ∈ State.reset.table, m.first ≤ 0xC0000F#32 ∧ 0xC0000F#32 ≤ m.last) ∧
    (∀ m ∈ State.reset.table, ¬(m.first ≤ 0xC00010#32 ∧ 0xC00010#32 ≤ m.last)) := by decide
theorem witness_MappedAccessIsDeviceAccess : State.reset.accepts ∧ TableOk State.reset.table ∧
    (⟨0xC00000#32, 0xC0000F#32, .vdp⟩ : Mapping) ∈ State.reset.table ∧
    (0xC00000#32 : Addr) ≤ 0xC0000F#32 ∧ (0xC0000F#32 : Addr) ≤ 0xC0000F#32 ∧
    (0xC00000#32 : Addr).toNat + (0xF#32 : Addr).toNat = (0xC0000F#32 : Addr).toNat ∧ [0#8] ≠ [] := by
  refine ⟨by decide, witness_table, ?_, ?_⟩
  · exact List.mem_cons_of_mem _ List.mem_cons_self
  · decide
/-- One mapping of each kind of device: a range, and an address at its end. -/
theorem witness_mapped_device_kinds :
    ∀ d ∈ [Device.ram, .rom, .vdp, .stub .noOp, .mirror 1#32 .ram, .tracer "t" true .vdp],
      TableOk [⟨8#32, 9#32, d⟩] ∧ (8#32 : Addr).toNat + (1#32 : Addr).toNat = (9#32 : Addr).toNat ∧
        (9#32 : Addr) ≤ 9#32 := by decide
/-- Under construction: reversed by one; a zero period; a range that shares one address with the VDP's; the range just after it.
And a System that is constructed. -/
theorem witness_MapRegistersDisjointRange : (buildingWith State.reset.table).boot = .building ∧ (4#32 : Addr) < 5#32 ∧
    ((5#32 : Addr) ≤ 5#32 ∧ (Device.mirror 0#32 .ram).wf = false) ∧ Device.ram.wf = true ∧
    (∃ m ∈ (buildingWith State.reset.table).table, (0xC0000F#32 : Addr) ≤ 0xC0000F#32 ∧ (0xC0000F#32 : Addr) ≤ 0xC00020#32 ∧
      m.first ≤ 0xC0000F#32 ∧ 0xC0000F#32 ≤ m.last) ∧
    (∀ m ∈ (buildingWith State.reset.table).table, m.last < 0xC00010#32 ∨ 0xC00020#32 < m.first) ∧
    State.reset.boot ≠ .building ∧ State.reset.boot ≠ .fatal := by decide
/-- A block under a parameter with a control word presented and one with nothing presented, which step; a transaction on a constructed
System, and SYS.LOAD, whose table keeps the VDP's mapping. -/
theorem witness_OnlySetupChangesTable :
    (presentedState.inbox.head? = some (.ctrlWord 0x8001#16) ∧
      decode presentedState.vdp.writePending (.ctrlWord 0x8001#16) = .ok (.ctrlRegset 0#6 1#8) ∧
      isSetup (.ctrlRegset 0#6 1#8) = false ∧
      ∃ t, stepUnder presentedState.toParameters presentedState.toBlock = .next t) ∧
    (State.reset.inbox.head? = none ∧ ∃ t, stepUnder State.reset.toParameters State.reset.toBlock = .next t) ∧
    (after (.vdpStatus 0#1) State.reset (fun _ => true) = true ∧ isSetup (.vdpStatus 0#1) = false) ∧
    after (.sysLoad []) State.reset (fun t => t.table.contains ⟨0xC00000#32, 0xC0000F#32, .vdp⟩) = true ∧
    ¬((0xC00000#32 : Addr) = romFirst ∧ (0xC0000F#32 : Addr) = romLast) :=
  ⟨⟨rfl, by decide, rfl, _, rfl⟩, ⟨rfl, _, rfl⟩, by decide⟩
/-- RAM and ROM: the last offset inside, the first outside, a write that does not fit. -/
theorem witness_storage : State.reset.accepts ∧ (0xFFFF#32 : Addr).toNat < State.reset.ram.size ∧
    State.reset.ram.size ≤ (0x10000#32 : Addr).toNat ∧ State.reset.ram.wf ∧
    State.reset.ram.size - (0xFFFF#32 : Addr).toNat < [1#8, 2#8].length ∧
    (romAt 0x200 0x1FF [7#8]).accepts ∧ (0x1FF#32 : Addr).toNat < (romAt 0x200 0x1FF [7#8]).rom.size ∧
    (romAt 0x200 0x1FF [7#8]).rom.size ≤ (0x200#32 : Addr).toNat ∧ (romAt 0x200 0x1FF [7#8]).rom.wf := by decide
theorem witness_RamReadAfterWrite : State.reset.ram.wf ∧
    after (.ramWr 0xFFFE#32 [1#8, 2#8, 3#8]) State.reset (fun _ => true) = true ∧
    (0xFFFE#32 : Addr).toNat + 1 < State.reset.ram.size ∧ (0xFFFE#32 : Addr).toNat + 1 < 2 ^ 32 ∧
    [1#8, 2#8, 3#8][1]? = some 2#8 := by decide
theorem witness_StubsAnswerEverything : State.reset.accepts ∧ 1 ≠ 0 ∧ [0#8] ≠ [] := by decide
theorem witness_MirrorFoldsOffset : State.reset.accepts ∧ (3#32 : Addr) ≠ 0#32 ∧ Device.ram.wf = true ∧
    (1#32 : Addr).toNat = (7#32 : Addr).toNat % (3#32 : Addr).toNat := by decide
/-- The first and the last aligned address of the window, each with its farthest image. -/
theorem witness_MirrorImagesAreOneRam : State.reset.accepts ∧ TableOk State.reset.table ∧ State.reset.ram.wf ∧
    State.reset.ram.size = 0x10000 ∧
    (⟨0xE00000#32, 0xFFFFFF#32, .mirror 0x10000#32 .ram⟩ : Mapping) ∈ State.reset.table ∧
    (0xE00000 ≤ (0xE00000#32 : Addr).toNat ∧ (0xE00000#32 : Addr).toNat % 4 = 0 ∧
      (0xFF0000#32 : Addr).toNat % 0x10000 = (0xE00000#32 : Addr).toNat % 0x10000) ∧
    ((0xFFFFFC#32 : Addr).toNat ≤ 0xFFFFFF ∧ (0xFFFFFC#32 : Addr).toNat % 4 = 0 ∧
      (0xE0FFFC#32 : Addr).toNat % 0x10000 = (0xFFFFFC#32 : Addr).toNat % 0x10000) := by
  refine ⟨by decide, witness_table, by decide, rfl, List.mem_cons_self, by decide, by decide⟩
theorem witness_TracerLogsThenForwards : State.reset.accepts ∧ Device.vdp.wf = true ∧ 2 ≠ 0 ∧ [0x80#8, 0xAB#8] ≠ [] := by
  decide
theorem witness_vdp_reads : State.reset.accepts ∧
    ((5#32 : Addr) ∉ [0x00#32, 0x02#32, 0x04#32, 0x06#32] ∧ (8#32 : Addr) ∉ [0x00#32, 0x02#32, 0x04#32, 0x06#32]) ∧
    (2#32 : Addr) ∈ [0x00#32, 0x02#32] ∧ ((4#32 : Addr) ∈ [0x04#32, 0x06#32] ∧ 1 ≠ 2 ∧ 4 ≠ 2) := by decide
/-- A first part that is written, and one that fails. -/
theorem witness_VdpWriteIsItsParts : State.reset.accepts ∧ [0x40#8, 0#8] ≠ [] ∧ [0#8, 1#8] ≠ [] ∧
    [0x40#8, 0#8].length % 2 = 0 ∧ (4#32 : Addr).toNat + [0x40#8, 0#8].length = (6#32 : Addr).toNat ∧
    after (.vdpWr 4#32 [0x40#8, 0#8]) State.reset (fun t => t.response == gives 2 []) = true ∧
    (6#32 : Addr).toNat + [0x40#8, 0#8].length = (8#32 : Addr).toNat ∧
    (8#32 : Addr).toNat + [0x40#8, 0#8].length = (10#32 : Addr).toNat ∧
    after (.vdpWr 8#32 [0x40#8, 0#8]) State.reset (fun t => t.response == failing 0 (.accessViolation 8#32)) = true := by
  decide
theorem witness_vdp_writes : State.reset.accepts ∧ [0x80#8] ≠ [] ∧ State.reset.vdp.writePending = false ∧
    (6#32 : Addr) ∈ [0x04#32, 0x06#32] ∧ (2#32 : Addr) ∈ [0x00#32, 0x02#32] ∧
    (7#32 : Addr) ∉ [0x00#32, 0x02#32, 0x04#32, 0x06#32] := by decide
theorem witness_ControlPortPropertiesOfTheSource : State.reset.accepts ∧ State.reset.vdp.writePending = false ∧
    (vdpAt 1#16 0#16 true).accepts ∧ (vdpAt 1#16 0#16 true).vdp.writePending = true ∧
    (0xC0#8 : Byte).toNat / 2 ^ 6 ≠ 2 := by decide
/-- The three selections of a control-port write. -/
theorem witness_ControlPortSelectsCommand : (vdpAt 0#16 0#16 true).accepts ∧
    (vdpAt 0#16 0#16 true).vdp.writePending = true ∧ State.reset.vdp.writePending = false ∧
    (0xBF#8 : Byte).toNat / 2 ^ 6 = 2 ∧ (0x7F#8 : Byte).toNat / 2 ^ 6 ≠ 2 := by decide
theorem witness_control_commands : State.reset.accepts ∧ (23#6 : BitVec 6).toNat < 24 ∧
    ¬(24#6 : BitVec 6).toNat < 24 := by decide
/-- The VDP mapped at 0xC00000; a code whose low bits may be selected. -/
theorem witness_vdp_mapped : State.reset.accepts ∧ TableOk State.reset.table ∧
    (0xC00000#32 : Addr).toNat + 4 ≤ (0xC0000F#32 : Addr).toNat ∧
    (⟨0xC00000#32, 0xC0000F#32, .vdp⟩ : Mapping) ∈ State.reset.table ∧ State.reset.vdp.writePending = false ∧
    BitVec.extractLsb' 0 2 (0x3F#6 : BitVec 6) ≠ 0b10#2 ∧ (23#6 : BitVec 6).toNat < 24 := by
  refine ⟨by decide, witness_table, by decide, List.mem_cons_of_mem _ List.mem_cons_self, rfl, by decide, by decide⟩
theorem witness_pseudo_put : (vdpAt 1#16 0xFFFF#16 true).vdp.vram.wf ∧
    (vdpAt 1#16 0xFFFF#16 true).vdp.vram.size = vramSize ∧ (vdpAt 1#16 0xFFFF#16 true).vdp.codeReg.toNat % 16 = 1 := by
  decide
/-- Every event of the table has a next state. -/
theorem witness_PhaseFollowsTransitionTable :
    after (.ctrlWr 0#1 0x40#8 0#8) State.reset (fun _ => true) = true ∧
    after (.vdpStatus 1#1) State.reset (fun _ => true) = true ∧ after (.dataWr 0#8 0#8) State.reset (fun _ => true) = true ∧
    (after (.vdpRd 4#32 1) State.reset (fun _ => true) = true ∧ 1 ≠ 2) ∧
    (after (.vdpRd 0#32 2) State.reset (fun _ => true) = true ∧ (0#32 : Addr) ∉ [0x04#32, 0x06#32]) ∧
    (after (.vdpWr16 8#32 0#8 0#8) State.reset (fun _ => true) = true ∧
      (8#32 : Addr) ∉ [0x00#32, 0x02#32, 0x04#32, 0x06#32]) ∧
    after (.sysLoad []) State.reset (fun _ => true) = true ∧
    after (.ramWr 0#32 [1#8]) State.reset (fun _ => true) = true ∧
    (after (.mirWr 1#32 (.tracer "t" true .ram) 0#32 [1#8]) State.reset (fun _ => true) = true ∧
      reachesVdp (.tracer "t" true .ram) = false) ∧
    after (.trcRd "t" true (.stub .noOp) 0#32 1) State.reset (fun _ => true) = true ∧
    (after (.busWr 0xC00010#32 [1#8]) State.reset (fun _ => true) = true ∧
      ∀ m ∈ State.reset.table, m.first ≤ 0xC00010#32 → 0xC00010#32 ≤ m.last → reachesVdp m.device = false) ∧
    (after (.busRd 0xE00000#32 1) State.reset (fun _ => true) = true ∧
      ∀ m ∈ State.reset.table, m.first ≤ 0xE00000#32 → 0xE00000#32 ≤ m.last → reachesVdp m.device = false) := by decide
/-- The three rows of the outcome table, and the highest address. -/
theorem witness_DataWriteOutcomes : (vdpAt 0#16 0#16 true).accepts ∧ (vdpAt 1#16 0xFFFF#16 true).vdp.vram.wf ∧
    (vdpAt 1#16 0xFFFF#16 true).vdp.vram.size = vramSize ∧
    (vdpAt 2#16 0#16 true).vdp.codeReg.toNat % 2 = 0 ∧
    ((vdpAt 3#16 0#16 true).vdp.codeReg.toNat % 2 = 1 ∧ (vdpAt 3#16 0#16 true).vdp.codeReg.toNat / 2 % 8 ≠ 0) ∧
    ((vdpAt 0x31#16 0xFFFF#16 true).vdp.codeReg.toNat % 2 = 1 ∧
      (vdpAt 0x31#16 0xFFFF#16 true).vdp.codeReg.toNat / 2 % 8 = 0) := by decide
theorem witness_StatusNeverWritten : after (.busWr 0xC00004#32 [0x80#8, 1#8]) State.reset (fun _ => true) = true ∧
    after (.sysLoad []) State.reset (fun _ => true) = true := by decide
/-- Each error of the table can be returned. -/
theorem witness_ErrorsOfEachOperation :
    after (.ramRd 0x10000#32 1) State.reset (fun t => t.response == failing 0 (.accessViolation 0x10000#32)) = true ∧
    after (.ramWr 0xFFFF#32 [1#8, 2#8]) State.reset (fun t => t.response == failing 1 .shortWrite) = true ∧
    after (.romRd 0#32 1) State.reset (fun t => t.response == failing 0 .endOfData) = true ∧
    after (.romWr 0#32 [1#8]) State.reset (fun t => t.response == failing 0 (.accessViolation 0#32)) = true ∧
    after (.vdpRd 0#32 2) State.reset
      (fun t => t.response == failing 0 (.unsupportedOperation .readNotSpecified)) = true ∧
    after (.vdpWr 0#32 [1#8]) State.reset
      (fun t => t.response == failing 0 (.unsupportedOperation .operationMismatch)) = true ∧
    after (.vdpWr 0#32 [1#8]) (vdpAt 3#16 0#16 false)
      (fun t => t.response == failing 0 (.unsupportedOperation .unsupportedTarget)) = true ∧
    after (.busRd 0#32 1) State.reset (fun t => t.response == failing 0 (.accessViolation 0#32)) = true ∧
    after (.busWr 0xC00008#32 [1#8]) State.reset (fun t => t.response == failing 0 (.accessViolation 8#32)) = true ∧
    after (.mirWr 0x10000#32 .ram 0xFFFF#32 [1#8, 2#8]) State.reset (fun t => t.response == failing 1 .shortWrite) = true ∧
    after (.trcRd "t" true .rom 0#32 1) State.reset (fun t => t.response == failing 0 .endOfData) = true ∧
    after (.vdpWr16 8#32 1#8 1#8) State.reset (fun t => t.response == .error (.accessViolation 8#32)) = true ∧
    after (.dataWr 1#8 1#8) State.reset
      (fun t => t.response == .error (.unsupportedOperation .operationMismatch)) = true ∧
    State.reset.vdp.vram.size = vramSize := by decide
/-- A configuration whose ranges do not meet, one whose ranges do, one that fails its check. -/
theorem witness_ConstructBuildsMap : Config.default.wf = true ∧
    (systemMap Config.default).Pairwise (fun m k => m.last < k.first ∨ k.last < m.first) ∧
    ¬(systemMap { Config.default with stubs := [⟨0xC0000F#32, 0xC0000F#32, .stub .noOp⟩] }).Pairwise
      (fun m k => m.last < k.first ∨ k.last < m.first) ∧
    ({ Config.default with stubs := [⟨0xC0000F#32, 0xC0000F#32, .stub .noOp⟩] } : Config).wf = true ∧
    ({ Config.default with vdpWindow := 8 } : Config).wf = false := by decide
/-- The reset state, and one with a cartridge already mapped. -/
theorem witness_load : State.reset.boot ≠ .fatal ∧ TableOk State.reset.table ∧ RomWindowFree State.reset.table ∧
    TableOk (⟨romFirst, romLast, .rom⟩ :: State.reset.table) ∧
    RomWindowFree (⟨romFirst, romLast, .rom⟩ :: State.reset.table) ∧ ([] : List Byte).length < 8 ∧
    [0#8, 1#8, 2#8, 3#8].length = 4 ∧ [0#8, 1#8, 2#8, 3#8, 4#8, 5#8, 6#8].length ≠ 4 := by decide
theorem witness_RunStopsAtFirstError : State.reset.halted = false ∧ State.reset.boot = .constructed ∧
    ({ State.reset with boot := .loaded 0#32 0#32 } : State).boot = .loaded 0#32 0#32 ∧ State.reset.executor = [] ∧
    ({ State.reset with executor := [.read 0#32 1, .terminate] } : State).executor = .read 0#32 1 :: [.terminate] ∧
    ({ State.reset with executor := [.write 0#32 [1#8]] } : State).executor = .write 0#32 [1#8] :: [] ∧
    ({ State.reset with executor := [.terminate] } : State).executor = .terminate :: [] ∧
    ({ State.reset with executor := [.fail] } : State).executor = .fail :: [] := by
  decide
/-- The executor's own error halts. -/
theorem test_sysRun_executor_error :
    after .sysRun { State.reset with executor := [.fail] } (fun t => t.halted && t.response == .executorError) = true := by
  decide
theorem witness_HaltedAcceptsNoTransaction : haltedState.halted = true ∧ (Instr.busRd 0#32 1).wf = true ∧
    isSoftware (.busRd 0#32 1) = false ∧ isSetup (.busRd 0#32 1) = false := by decide
/-- Each accessor on the shortest ROM that holds its field. -/
theorem witness_HeaderFieldsAtTheirPlaces :
    ∀ p ∈ [(Instr.hdrConsoleName, 0x110), (.hdrCopyright, 0x120), (.hdrDomesticTitle, 0x150), (.hdrOverseasTitle, 0x180),
      (.hdrProductType, 0x182), (.hdrProductCode, 0x18E), (.hdrChecksum, 0x190), (.hdrProgramStart, 0x1A4),
      (.hdrProgramEnd, 0x1A8), (.hdrRamStart, 0x1AC), (.hdrRamEnd, 0x1B0)],
      p.2 ≤ (romAt p.2 0 []).rom.size ∧ after p.1 (romAt p.2 0 []) (fun _ => true) = true := by decide
theorem witness_DeviceOperationsAreDeviceAccess : State.reset.accepts ∧ 1 ≠ 0 ∧ [0#8] ≠ [] ∧ (1#32 : Addr) ≠ 0#32 ∧
    (Device.tracer "t" true .vdp).wf = true := by decide
theorem witness_DecoderRefusesWhatIsNotAdmitted : [0#8] ≠ [] ∧ 1 ≠ [0#8, 0#8].length ∧
    (Instr.map .ram 5#32 4#32).check = some .reversedRange ∧ (Instr.trcRd "t" true (.mirror 0#32 .ram) 0#32 1).check
      = some .zeroPeriod ∧ decode false (.txn .read 0#32 1 []) = .ok (.busRd 0#32 1) := by decide
/-- A range whose first address is the last of the window, on a System under construction; a System whose construction failed; one whose
window is free. -/
theorem witness_RangeOverlapIsFatal :
    (buildingWith [⟨0x3FFFFF#32, 0x400000#32, .ram⟩]).boot ≠ .fatal ∧
    ¬((0x3FFFFF#32 : Addr) = romFirst ∧ (0x400000#32 : Addr) = romLast) ∧ (0x3FFFFF#32 : Addr) ≤ 0x400000#32 ∧
    (0x3FFFFF#32 : Addr) ≤ romLast ∧
    (fatalState.boot = .fatal ∧ fatalState.halted = false ∧ isSoftware (.busRd 0#32 1) = false) ∧
    RomWindowFree State.reset.table ∧ after (.sysLoad []) State.reset (fun _ => true) = true := by decide
theorem witness_software : 0x1F3 ≤ (romAt 0x1F3 0 []).rom.size ∧ 0x190 ≤ (romAt 0x190 0 []).rom.size ∧
    after .checksum (romAt 0x190 0 []) (fun t => t.response == .ok) = true ∧ isSoftware .checksum = true ∧
    (romAt 0x18F 0 []).rom.size < 0x190 :=
  ⟨Nat.le_refl _, Nat.le_refl _, by decide +kernel, rfl, Nat.lt_succ_self _⟩
theorem witness_ChecksumDetectsOneByte : (romAt 0x202 0 []).rom.wf ∧
    after .checksum (romAt 0x202 0 []) (fun t => t.response == .ok) = true ∧
    0x200 ≤ (0x201#32 : Addr).toNat ∧
    (0x201#32 : Addr).toNat < 0x200 + 2 * (((romAt 0x202 0 []).rom.size - 0x200) / 2) ∧
    (1#8 : Byte) ≠ (romAt 0x202 0 []).rom.byte (0x201#32 : Addr).toNat ∧
    after (.romWr 0x201#32 [1#8]) (romAt 0x202 0 []) (fun _ => true) = true :=
  ⟨by decide, by decide +kernel, by simp, by simp [romAt], by decide, by decide⟩

end Sys2Proof.Tests
end

section
/-! PROOFS, family 00_scope: one step on the queue, the devices' own operations, the frame of the header software. -/

namespace Sys2Proof.Machine

/-! ## One step -/

theorem instrInProgress_iff {i : Instr} {t : State} :
    instrInProgress i t = true ↔ i = .sysRun ∧ t.running = true := by
  cases i <;> simp [instrInProgress]

/-- An operation that went on leaves the queue, unless it is a SYS.RUN in progress (R238). -/
theorem State.retire_eq (i : Instr) (t : State) :
    State.retire i t = if i = .sysRun ∧ t.running = true then t else { t with inbox := t.inbox.tail } := by
  simp only [State.retire, instrInProgress_iff]
  rfl

/-- Where the oldest presented operation decodes to `i`, the step has the outcome of `exec i`. -/
theorem step_of_decode_ok {s : State} {r : Request} {rest : List Request} {i : Instr} (hq : s.inbox = r :: rest)
    (hd : decode s.vdp.writePending r = .ok i) :
    (∃ t, exec i s = .next t ∧ step s = .next (State.retire i t)) ∨
    (∃ f, exec i s = .fault f ∧ step s = .fault f) ∨
    (∃ why, exec i s = .refused why ∧ step s = .refused why) := by
  obtain ⟨hnil, -⟩ | ⟨r', rest', hq', ⟨why, he, -⟩ | ⟨i', hi, h⟩⟩ := step_cases s
  · simp [hq] at hnil
  · cases hq.symm.trans hq'
    simp [hd] at he
  · cases hq.symm.trans hq'
    cases hd.symm.trans hi
    exact h

theorem step_of_exec_next {s t : State} {r : Request} {rest : List Request} {i : Instr} (hq : s.inbox = r :: rest)
    (hd : decode s.vdp.writePending r = .ok i) (he : exec i s = .next t) : step s = .next (State.retire i t) := by
  obtain ⟨t', he', hs⟩ | ⟨f, he', -⟩ | ⟨why, he', -⟩ := step_of_decode_ok hq hd <;> cases he.symm.trans he'
  exact hs

theorem step_of_exec_fault {s : State} {f : Fault} {r : Request} {rest : List Request} {i : Instr}
    (hq : s.inbox = r :: rest) (hd : decode s.vdp.writePending r = .ok i) (he : exec i s = .fault f) :
    step s = .fault f := by
  obtain ⟨t, he', -⟩ | ⟨f', he', hs⟩ | ⟨why, he', -⟩ := step_of_decode_ok hq hd <;> cases he.symm.trans he'
  exact hs

theorem step_of_exec_refused {s : State} {why : Refusal} {r : Request} {rest : List Request} {i : Instr}
    (hq : s.inbox = r :: rest) (hd : decode s.vdp.writePending r = .ok i) (he : exec i s = .refused why) :
    step s = .refused why := by
  obtain ⟨t, he', -⟩ | ⟨f, he', -⟩ | ⟨why', he', hs⟩ := step_of_decode_ok hq hd <;> cases he.symm.trans he'
  exact hs

theorem step_of_empty {s : State} (hq : s.inbox = []) : step s = .next s := by
  obtain ⟨-, hs⟩ | ⟨r, rest, hq', -⟩ := step_cases s
  · exact hs
  · cases hq.symm.trans hq'

theorem step_of_decode_error {s : State} {r : Request} {rest : List Request} {why : DecodeError}
    (hq : s.inbox = r :: rest) (hd : decode s.vdp.writePending r = .error why) :
    step s = .refused (.undecodable why) := by
  obtain ⟨hnil, -⟩ | ⟨r', rest', hq', ⟨why', he, hs⟩ | ⟨i, hi, -⟩⟩ := step_cases s
  · simp [hq] at hnil
  · cases hq.symm.trans hq'
    cases hd.symm.trans he
    exact hs
  · cases hq.symm.trans hq'
    simp [hd] at hi

/-- Settles O6: the cases of one step, by what stands at the head of the queue and what `exec` answers. -/
theorem stepRunsDecodedOperation : Obligations.StepRunsDecodedOperation := by
  unfold Obligations.StepRunsDecodedOperation
  refine ⟨fun s => step_of_empty, fun s r rest i hq hd => ⟨?_, ?_, ?_⟩, fun s r rest why => step_of_decode_error⟩
  · intro t he
    rw [step_of_exec_next hq hd he, State.retire_eq]
  · exact fun f => step_of_exec_fault hq hd
  · exact fun why => step_of_exec_refused hq hd

/-! ## The operations of the devices -/

theorem mirror_wf {p : Addr} {d : Device} (hp : p ≠ 0#32) (hd : d.wf = true) : (Device.mirror p d).wf = true := by
  simp [Device.wf, hp, hd]

/-- On an admitted device tree the operation of a Mirror or a Tracer is a plain transaction (D3). -/
theorem onDevice_transaction {d : Device} {s : State} {n : Nat} (r : State × Xfer) (hd : d.wf = true) (hs : s.accepts)
    (hn : n ≠ 0) : onDevice d (transaction s n r) = .next (deliver r) :=
  (onDevice_wf _ hd).trans (transaction_of_accepted r hs hn)

/-- Settles O58: each operation is a transaction of its own kind's `devRead` or `devWrite`, behind the check of the device
tree for the Mirror and the Tracer. -/
theorem deviceOperationsAreDeviceAccess : Obligations.DeviceOperationsAreDeviceAccess := by
  unfold Obligations.DeviceOperationsAreDeviceAccess
  intro offset s hs
  refine ⟨fun n hn => ?reads, fun v hv => ?writes⟩
  case reads =>
    have plain (r) := transaction_of_accepted r hs hn
    exact ⟨plain _, plain _, plain _, fun _ => plain _,
      fun _ _ hp hd => onDevice_transaction _ (mirror_wf hp hd) hs hn,
      fun _ _ _ hd => onDevice_transaction _ hd hs hn⟩
  case writes =>
    have hn : v.length ≠ 0 := mt List.length_eq_zero_iff.mp hv
    have plain (r) := transaction_of_accepted r hs hn
    exact ⟨plain _, plain _, plain _, fun _ => plain _,
      fun _ _ hp hd => onDevice_transaction _ (mirror_wf hp hd) hs hn,
      fun _ _ _ hd => onDevice_transaction _ hd hs hn⟩

/-! ## The header software -/

theorem answer_eq_next_iff {s t : State} {v : Option Response} :
    answer s v = .next t ↔ ∃ r, v = some r ∧ t = s.respond r := by
  cases v <;> simp [answer, eq_comm]

theorem headerBytes_of_rom {s t : State} (h : s.rom = t.rom) (first width : Nat) :
    headerBytes first width s = headerBytes first width t := by
  simp only [headerBytes, h]

/-- Every call of the software is the `answer` of a value, or of none, that the ROM alone decides (R210). -/
theorem software_answers_from_rom {i : Instr} (hi : isSoftware i = true) :
    ∃ v : State → Option Response, (∀ s, exec i s = answer s (v s)) ∧ ∀ s t, s.rom = t.rom → v s = v t := by
  cases i <;> simp only [isSoftware, Bool.false_eq_true] at hi
  case hdrConsoleName | hdrCopyright | hdrDomesticTitle | hdrOverseasTitle =>
    exact ⟨_, fun _ => rfl, fun s t h => by simp only [collapsedField, headerBytes_of_rom h]⟩
  case hdrProductType | hdrProductCode =>
    exact ⟨_, fun _ => rfl, fun s t h => by simp only [plainField, headerBytes_of_rom h]⟩
  case hdrProgramStart | hdrProgramEnd | hdrRamStart | hdrRamEnd =>
    exact ⟨_, fun _ => rfl, fun s t h => by simp only [word32Field, headerBytes_of_rom h]⟩
  case hdrRegions | regions =>
    exact ⟨_, fun _ => rfl, fun s t h => by simp only [regionField, headerBytes_of_rom h]⟩
  case hdrChecksum | checksum =>
    exact ⟨_, fun _ => rfl, fun s t h => by simp only [storedChecksum, headerBytes_of_rom h, h]⟩
  case spaceCollapse b => exact ⟨fun _ => some (.text (collapse b)), fun _ => rfl, fun _ _ _ => rfl⟩

/-- Settles O57: a call only answers, with a value of the ROM, so `halted` and `boot` stand aside. -/
theorem softwareWritesNothing : Obligations.SoftwareWritesNothing := by
  unfold Obligations.SoftwareWritesNothing
  intro i s t hi he
  obtain ⟨v, hv, hrom⟩ := software_answers_from_rom hi
  obtain ⟨r, hr, rfl⟩ := answer_eq_next_iff.mp ((hv s).symm.trans he)
  refine ⟨rfl, fun h b => ?_⟩
  have hvalue : v ((s.withHalted h).withBoot b) = some r := (hrom ((s.withHalted h).withBoot b) s rfl).trans hr
  exact (hv _).trans (answer_eq_next_iff.mpr ⟨r, hvalue, rfl⟩)

end Sys2Proof.Machine
end

section
/-! PROOFS, family 10_state: what the operations that are no set-up keep, the invariant, the mapping table, the phase of the
control port, `status`. -/

namespace Sys2Proof.Machine

/-! ## The VDP's operations, element by element -/

@[simp] theorem Vdp.regset_status (index : BitVec 6) (value : Byte) (v : Vdp) :
    (v.regset index value).status = v.status := by
  obtain ⟨_, e⟩ | ⟨-, e⟩ := v.regset_cases index value <;> rw [e]

@[simp] theorem Vdp.regset_writePending (index : BitVec 6) (value : Byte) (v : Vdp) :
    (v.regset index value).writePending = v.writePending := by
  obtain ⟨_, e⟩ | ⟨-, e⟩ := v.regset_cases index value <;> rw [e]

@[simp] theorem Vdp.addr1_status (cd : BitVec 2) (lo : BitVec 14) (v : Vdp) : (v.addr1 cd lo).status = v.status := rfl

@[simp] theorem Vdp.addr2_status (cdHi : BitVec 4) (hi : BitVec 2) (v : Vdp) : (v.addr2 cdHi hi).status = v.status := rfl

@[simp] theorem Vdp.addr1_writePending (cd : BitVec 2) (lo : BitVec 14) (v : Vdp) :
    (v.addr1 cd lo).writePending = true := rfl

@[simp] theorem Vdp.addr2_writePending (cdHi : BitVec 4) (hi : BitVec 2) (v : Vdp) :
    (v.addr2 cdHi hi).writePending = false := rfl

@[simp] theorem Vdp.vramWrite16_status (a : Half) (b0 b1 : Byte) (v : Vdp) :
    (v.vramWrite16 a b0 b1).1.status = v.status := rfl

@[simp] theorem Vdp.vramWrite16_writePending (a : Half) (b0 b1 : Byte) (v : Vdp) :
    (v.vramWrite16 a b0 b1).1.writePending = v.writePending := rfl

@[simp] theorem Vdp.ctrlWrite_status (b0 b1 : Byte) (v : Vdp) : (v.ctrlWrite b0 b1).status = v.status := by
  obtain ⟨-, e⟩ | ⟨-, -, e⟩ | ⟨-, -, e⟩ := v.ctrlWrite_cases b0 b1 <;> simp [e]

@[simp] theorem Vdp.dataWrite_status (b0 b1 : Byte) (v : Vdp) : (v.dataWrite b0 b1).1.status = v.status := by
  obtain ⟨-, e⟩ | ⟨-, -, e⟩ | ⟨-, -, e⟩ := v.dataWrite_cases b0 b1 <;> simp [e]

@[simp] theorem Vdp.write16_status (off : Nat) (b0 b1 : Byte) (v : Vdp) : (v.write16 off b0 b1).1.status = v.status := by
  obtain ⟨-, e⟩ | ⟨-, e⟩ | ⟨-, e⟩ := v.write16_cases off b0 b1 <;> simp [e]

@[simp] theorem Vdp.write_status (offset : Addr) (bytes : List Byte) (v : Vdp) :
    (v.write offset bytes).1.status = v.status :=
  Vdp.writeFrom_keeps (fun v' => v'.status = v.status)
    (fun off b0 b1 v' h => (v'.write16_status off b0 b1).trans h) _ _ _ _ rfl

/-- Only the control ports answer to the offsets 4 and 6 (R74, R150). -/
theorem portOf_eq_control_iff {off : Nat} : portOf off = some .control ↔ off = 4 ∨ off = 6 := by
  unfold portOf
  split
  · simp only [Option.some.injEq, reduceCtorEq, false_iff]
    omega
  · split <;> simp [*]

theorem portOf_eq_none_iff {off : Nat} : portOf off = none ↔ off ∉ [0, 2, 4, 6] := by
  unfold portOf
  split
  · simp only [reduceCtorEq, List.mem_cons, false_iff]
    omega
  · split <;> simp_all

/-- A control-port write leaves pending exactly the first word of a pair (R170, R174). -/
theorem Vdp.ctrlWrite_writePending (b0 b1 : Byte) (v : Vdp) :
    (v.ctrlWrite b0 b1).writePending = (!v.writePending && b0.extractLsb' 6 2 != 0b10#2) := by
  obtain ⟨hp, e⟩ | ⟨hp, hr, e⟩ | ⟨hp, hr, e⟩ := v.ctrlWrite_cases b0 b1 <;> simp_all [isRegisterSelect]

theorem writeSelected_eq (code : Half) : writeSelected code = (code.toNat % 2 == 1) := by
  rw [Bool.eq_iff_iff]
  simp [writeSelected, ← BitVec.toNat_inj, BitVec.extractLsb'_toNat]

/-- A data-port write clears the phase unless its mode is refused (R174, R191; D16). -/
theorem Vdp.dataWrite_writePending (b0 b1 : Byte) (v : Vdp) :
    (v.dataWrite b0 b1).1.writePending = (v.writePending && v.codeReg.toNat % 2 == 0) := by
  obtain ⟨hw, e⟩ | ⟨hw, -, e⟩ | ⟨hw, -, e⟩ := v.dataWrite_cases b0 b1 <;> simp_all [writeSelected_eq]

/-- A read that is not the 2-byte read of a control port changes nothing in the VDP (R152, R174). -/
theorem Vdp.read_of_no_status {offset : Addr} {n : Nat} (h : n ≠ 2 ∨ offset ∉ [0x04#32, 0x06#32]) (v : Vdp) :
    (v.read offset n).1 = v := by
  unfold Vdp.read
  split
  · rfl
  next hport =>
    have hoff : offset ∈ [0x04#32, 0x06#32] := by
      simpa [← BitVec.toNat_inj] using portOf_eq_control_iff.mp hport
    rw [if_neg (h.resolve_right (not_not_intro hoff))]
  · rfl

/-- A logical write at no port changes nothing in the VDP (R157, R174). -/
theorem Vdp.write16_of_no_port {offset : Addr} (h : offset ∉ [0x00#32, 0x02#32, 0x04#32, 0x06#32]) (b0 b1 : Byte)
    (v : Vdp) : (v.write16 offset.toNat b0 b1).1 = v := by
  have hport : portOf offset.toNat = none := portOf_eq_none_iff.mpr (by simpa [← BitVec.toNat_inj] using h)
  simp [Vdp.write16, hport]

/-! ## What an operation keeps that is no set-up -/

theorem DevicesOk.congr {s t : State} (h : DevicesOk s) (hcfg : t.cfg = s.cfg) (hram : t.ram = s.ram)
    (hrom : t.rom = s.rom) (hvdp : t.vdp = s.vdp) : DevicesOk t :=
  ⟨hram ▸ h.ramWf, hram ▸ hcfg ▸ h.ramSize, hrom ▸ h.romWf, hvdp ▸ hcfg ▸ h.vdpOk⟩

/-- What every operation but MAP, SYS.CONSTRUCT and SYS.LOAD keeps of the state it is served in. -/
structure Serves (s t : State) : Prop where
  parameters : t.toParameters = s.toParameters
  boot       : t.boot = s.boot
  inbox      : t.inbox = s.inbox
  status     : t.vdp.status = s.vdp.status
  devicesOk  : DevicesOk s → DevicesOk t

/-- What SYS.RUN does not keep and every other such operation does: whether SYS.RUN is in progress. -/
structure ServesAtOnce (s t : State) : Prop extends Serves s t where
  running : t.running = s.running

theorem ServesAtOnce.refl (s : State) : ServesAtOnce s s := ⟨⟨rfl, rfl, rfl, rfl, id⟩, rfl⟩

theorem Serves.trans {s s' t : State} (h : Serves s s') (h' : Serves s' t) : Serves s t :=
  ⟨h'.parameters.trans h.parameters, h'.boot.trans h.boot, h'.inbox.trans h.inbox, h'.status.trans h.status,
    h'.devicesOk ∘ h.devicesOk⟩

theorem ServesAtOnce.trans {s s' t : State} (h : ServesAtOnce s s') (h' : ServesAtOnce s' t) : ServesAtOnce s t :=
  ⟨h.toServes.trans h'.toServes, h'.running.trans h.running⟩

theorem ServesAtOnce.respond (s : State) (r : Response) : ServesAtOnce s (s.respond r) :=
  ⟨⟨rfl, rfl, rfl, rfl, fun h => h.congr rfl rfl rfl rfl⟩, rfl⟩

theorem ServesAtOnce.of_leaves {s s' : State} (h : ReadLeaves s s') : ServesAtOnce s s' := by
  have hd : DevicesOk s → DevicesOk s' := fun hs => hs.leaves h
  obtain ⟨p, rs, rfl, -⟩ := h
  exact ⟨⟨rfl, rfl, rfl, rfl, hd⟩, rfl⟩

theorem ServesAtOnce.of_frame {s s' : State} (h : ∃ ram rom vdp rs, s' = writeFrame s ram rom vdp rs)
    (hst : s'.vdp.status = s.vdp.status) (hd : DevicesOk s → DevicesOk s') : ServesAtOnce s s' := by
  obtain ⟨ram, rom, vdp, rs, rfl⟩ := h
  exact ⟨⟨rfl, rfl, rfl, hst, hd⟩, rfl⟩

theorem devWrite_status (d : Device) (offset : Addr) (v : List Byte) (s : State) :
    (devWrite d offset v s).1.vdp.status = s.vdp.status := by
  induction d generalizing offset s with
  | ram | rom | stub => rfl
  | vdp => exact s.vdp.write_status offset v
  | mirror period inner ih => exact ih _ s
  | tracer label sink inner ih => exact (ih offset _).trans (by cases sink <;> rfl)

theorem devWrite_serves (d : Device) (offset : Addr) (v : List Byte) (s : State) :
    ServesAtOnce s (devWrite d offset v s).1 :=
  .of_frame (devWrite_frame d offset v s) (devWrite_status d offset v s) fun h => h.devWrite d offset v

theorem busWrite_serves (addr : Addr) (v : List Byte) (s : State) : ServesAtOnce s (busWrite addr v s).1 := by
  unfold busWrite
  cases lookup s.table addr with
  | none => exact .refl s
  | some m => exact devWrite_serves m.device _ v s

theorem transaction_serves {s t : State} {n : Nat} {r : State × Xfer} (hr : ServesAtOnce s r.1)
    (h : transaction s n r = .next t) : ServesAtOnce s t := by
  obtain ⟨-, -, rfl⟩ := transaction_next h
  exact hr.trans (.respond _ _)

theorem command_serves {s t : State} {r : Vdp × Option Err} (hst : r.1.status = s.vdp.status)
    (hok : ∀ {sr vi}, s.vdp.Ok sr vi → r.1.Ok sr vi) (h : command s r = .next t) : ServesAtOnce s t := by
  obtain ⟨-, rfl⟩ := command_next h
  exact ⟨⟨rfl, rfl, rfl, hst, fun hs => ⟨hs.ramWf, hs.ramSize, hs.romWf, hok hs.vdpOk⟩⟩, rfl⟩

/-- An operation that is neither set-up nor SYS.RUN only accesses the devices and answers. -/
theorem exec_serves {i : Instr} {s t : State} (hi : isSetup i = false) (hrun : i ≠ .sysRun) (h : exec i s = .next t) :
    ServesAtOnce s t := by
  by_cases hread : isRead i = true
  · obtain ⟨s', x, hl, rfl⟩ := read_next hread h
    exact (ServesAtOnce.of_leaves hl).trans (.respond _ _)
  by_cases hsoft : isSoftware i = true
  · obtain ⟨r, rfl⟩ := software_next hsoft h
    exact .respond s r
  cases i <;> simp only [isSetup, isRead, isSoftware, not_true_eq_false, reduceCtorEq] at hi hread hsoft
  case sysRun => exact absurd rfl hrun
  case busWr addr bytes => exact transaction_serves (busWrite_serves addr bytes s) h
  case ramWr offset bytes => exact transaction_serves (devWrite_serves .ram offset bytes s) h
  case romWr offset bytes => exact transaction_serves (devWrite_serves .rom offset bytes s) h
  case stubWr kind offset bytes => exact transaction_serves (devWrite_serves (.stub kind) offset bytes s) h
  case vdpWr offset bytes => exact transaction_serves (devWrite_serves .vdp offset bytes s) h
  case mirWr => exact transaction_serves (devWrite_serves _ _ _ s) (onDevice_next h).2
  case trcWr => exact transaction_serves (devWrite_serves _ _ _ s) (onDevice_next h).2
  case vdpWr16 => exact command_serves (s.vdp.write16_status _ _ _) (fun hv => hv.write16 _ _ _) h
  case ctrlWr => exact command_serves (s.vdp.ctrlWrite_status _ _) (fun hv => hv.ctrlWrite _ _) h
  case ctrlRegset => exact command_serves (s.vdp.regset_status _ _) (fun hv => hv.regset _ _) h
  case ctrlAddr1Cd00 => exact command_serves rfl (fun hv => hv.addr1 _ _ (by decide)) h
  case ctrlAddr1Cd01 => exact command_serves rfl (fun hv => hv.addr1 _ _ (by decide)) h
  case ctrlAddr1Cd11 => exact command_serves rfl (fun hv => hv.addr1 _ _ (by decide)) h
  case ctrlAddr2 => exact command_serves rfl (fun hv => hv.addr2 _ _) h
  case dataWr => exact command_serves (s.vdp.dataWrite_status _ _) (fun hv => hv.dataWrite _ _) h
  case vramWr16 => exact command_serves rfl (fun hv => hv.vramWrite16 _ _ _) h

/-! ### SYS.RUN -/

theorem Serves.withExecutor (s : State) (e : List ExecutorMove) : Serves s (s.withExecutor e) :=
  ⟨rfl, rfl, rfl, rfl, fun h => h.congr rfl rfl rfl rfl⟩

theorem Serves.withRunning (s : State) (b : Bool) : Serves s (s.withRunning b) :=
  ⟨rfl, rfl, rfl, rfl, fun h => h.congr rfl rfl rfl rfl⟩

theorem Serves.withHalted (s : State) (b : Bool) : Serves s (s.withHalted b) :=
  ⟨rfl, rfl, rfl, rfl, fun h => h.congr rfl rfl rfl rfl⟩

theorem runAccess_serves {s : State} {r : State × Xfer} (h : Serves s r.1) :
    Serves s (runAccess r) ∧ ((runAccess r).running = true → (runAccess r).halted = false) := by
  refine ⟨((h.trans (ServesAtOnce.respond _ _).toServes).trans (.withHalted _ _)).trans (.withRunning _ _), ?_⟩
  cases r.2.err <;> simp [runAccess]

/-- One turn of SYS.RUN's loop: whatever the executor does, Run goes on only on a System that is not halted (R238, R262). -/
theorem execSysRun_serves {s t : State} (h : execSysRun s = .next t) :
    Serves s t ∧ (t.running = true → t.halted = false) := by
  obtain ⟨⟨hhalt, -⟩, -, h⟩ := execSysRun_next h
  have took (e) : Serves s (s.withExecutor e) := .withExecutor s e
  unfold runTurn at h
  split at h
  case h_1 =>
    cases h
    exact ⟨.withRunning s true, fun _ => hhalt⟩
  case h_2 rest _ =>
    cases h
    exact ⟨((took rest).trans (.withRunning _ _)).trans (ServesAtOnce.respond _ _).toServes, by simp⟩
  case h_3 rest _ =>
    cases h
    exact ⟨(((took rest).trans (.withHalted _ _)).trans (.withRunning _ _)).trans (ServesAtOnce.respond _ _).toServes,
      by simp⟩
  case h_4 addr n rest _ =>
    split at h <;> cases h
    exact runAccess_serves ((took rest).trans (ServesAtOnce.of_leaves (busRead_leaves addr n _)).toServes)
  case h_5 addr v rest _ =>
    split at h <;> cases h
    exact runAccess_serves ((took rest).trans (busWrite_serves addr v _).toServes)

/-- What every operation that is no set-up keeps, SYS.RUN among them. -/
theorem exec_serves_of_not_setup {i : Instr} {s t : State} (hi : isSetup i = false) (h : exec i s = .next t) :
    Serves s t := by
  by_cases hrun : i = .sysRun
  · subst hrun
    exact (execSysRun_serves h).1
  · exact (exec_serves hi hrun h).toServes

/-! ## The set-up -/

theorem guard_eq_none_iff {α : Type} {p : Prop} [Decidable p] {e : α} {rest : Option α} :
    (if p then some e else rest) = none ↔ ¬p ∧ rest = none := by
  split <;> simp [*]

/-- What a configuration that passes its check satisfies (R231, R232). -/
theorem Config.check_eq_none {c : Config} (h : c.check = none) :
    c.ramSize ≠ 0#32 ∧ (9 ≤ c.vdpWindow ∧ c.vdpWindow ≤ 16) ∧ c.vdpBase.toNat + c.vdpWindow ≤ 2 ^ 32 ∧
    (c.ramFirst ≤ c.ramLast ∧ romLast < c.ramFirst) ∧ romLast < c.vdpBase ∧
    ∀ m ∈ c.stubs, m.first ≤ m.last ∧ m.device.isStub = true ∧ romLast < m.first := by
  simp only [Config.check, guard_eq_none_iff, not_or, List.any_eq_true, decide_eq_true_eq, not_exists, not_and,
    Mapping.meetsRomWindow, Bool.not_eq_true', Bool.not_eq_false, BitVec.not_lt, BitVec.not_le, Nat.not_lt] at h
  obtain ⟨hram, hwin, hend, ⟨hord, hstubOrd⟩, hstub, ⟨hramRom, hvdpRom, hstubRom⟩, -⟩ := h
  exact ⟨hram, hwin, hend, ⟨hord, hramRom⟩, hvdpRom, fun m hm => ⟨hstubOrd m hm, hstub m hm, hstubRom m hm⟩⟩

theorem Device.wf_of_isStub {d : Device} (h : d.isStub = true) : d.wf = true := by
  induction d with
  | stub => rfl
  | tracer label sink inner ih => exact ih h
  | ram | rom | vdp | mirror => simp [Device.isStub] at h

@[simp] theorem tracedDevice_wf (label : Option String) (sink : Bool) (d : Device) :
    (tracedDevice label sink d).wf = d.wf := by
  cases label <;> rfl

theorem Mapping.wf_iff {m : Mapping} : m.wf = true ↔ m.first ≤ m.last ∧ m.device.wf = true := by
  simp [Mapping.wf]

theorem romMapping_wf (c : Config) : (romMapping c).wf = true :=
  Mapping.wf_iff.mpr ⟨show romFirst ≤ romLast by decide, tracedDevice_wf _ _ _⟩

/-- The VDP's window does not wrap around the end of the addresses (R5, R231). -/
theorem vdpBase_le_windowEnd {c : Config} (hpos : 9 ≤ c.vdpWindow) (hend : c.vdpBase.toNat + c.vdpWindow ≤ 2 ^ 32) :
    c.vdpBase ≤ c.vdpBase + BitVec.ofNat 32 (c.vdpWindow - 1) := by
  rw [BitVec.le_def, BitVec.toNat_add, BitVec.toNat_ofNat]
  omega

/-- Every mapping of a configuration that passes its check is well-formed and lies above ROM_WINDOW (R101, R232). -/
theorem systemMap_ok {c : Config} (h : c.check = none) :
    ∀ m ∈ systemMap c, m.wf = true ∧ romLast < m.first := by
  obtain ⟨hram, ⟨hpos, -⟩, hend, ⟨hord, hramRom⟩, hvdpRom, hstubs⟩ := Config.check_eq_none h
  intro m hm
  rw [systemMap, List.mem_cons, List.mem_cons] at hm
  obtain rfl | rfl | hm := hm
  · exact ⟨Mapping.wf_iff.mpr ⟨hord, by simp [Device.wf, hram]⟩, hramRom⟩
  · exact ⟨Mapping.wf_iff.mpr ⟨vdpBase_le_windowEnd hpos hend, tracedDevice_wf _ _ _⟩, hvdpRom⟩
  · obtain ⟨hm1, hm2, hm3⟩ := hstubs m hm
    exact ⟨Mapping.wf_iff.mpr ⟨hm1, Device.wf_of_isStub hm2⟩, hm3⟩

theorem resetDevices_ok (c : Config) (table : List Mapping) (rom : Buffer) (hrom : rom.wf) (s : State) :
    DevicesOk (((resetDevices c s).withRom rom).under ⟨c, table⟩) :=
  ⟨initialCells_wf _ _, rfl, hrom, Vdp.reset_ok _ _⟩

theorem constructed_ok (c : Config) (table : List Mapping) (s : State) : DevicesOk (constructed c table s) :=
  (resetDevices_ok c table _ (Buffer.ofBytes_wf []) s).congr rfl rfl rfl rfl

theorem loadPrepared_ok (data : List Byte) (s : State) : DevicesOk (loadPrepared data s) :=
  (resetDevices_ok s.cfg _ _ (Buffer.ofBytes_wf data) s).congr rfl rfl rfl rfl

/-- What SYS.LOAD leaves: the System with its devices reset and the old cartridge removed, and then a fatal collision, or the new
cartridge mapped and a reset vector read that left its phase idle (R236, R237). -/
theorem loadRom_next (data : List Byte) (s : State) :
    ((loadRom data s).boot = .fatal ∧ (loadRom data s).table = (loadPrepared data s).table ∨
      (loadRom data s).boot ≠ .building ∧
        mapRange (loadPrepared data s).table (romMapping s.cfg) = some (loadRom data s).table) ∧
    (loadRom data s).cfg = s.cfg ∧ (loadRom data s).running = false ∧ (loadRom data s).vdp.writePending = false ∧
    DevicesOk (loadRom data s) := by
  obtain ⟨-, e⟩ | ⟨table, s2, boot, rs, r, hm, hl, hb, -, e⟩ := loadRom_cases data s <;> rw [e]
  · exact ⟨.inl ⟨rfl, rfl⟩, rfl, rfl, rfl, (loadPrepared_ok data s).congr rfl rfl rfl rfl⟩
  · have hmapped : DevicesOk (((loadPrepared data s).under ⟨s.cfg, table⟩).withHalted false) :=
      (loadPrepared_ok data s).congr rfl rfl rfl rfl
    have hd : DevicesOk s2 := hmapped.leaves hl
    obtain ⟨p, rs', rfl, hp⟩ := hl
    have hidle : p = false := by
      cases p
      · rfl
      · exact absurd (hp rfl) Bool.false_ne_true
    exact ⟨.inr ⟨hb, hm⟩, rfl, rfl, hidle, hd.congr rfl rfl rfl rfl⟩

/-! ## The invariant -/

/-- The invariant without the model's own queue: what every operation keeps, wherever it was presented. -/
structure SystemOk (s : State) : Prop where
  devicesOk     : DevicesOk s
  tableOk       : TableOk s.table
  romWindowFree : s.boot ≠ .building → s.boot ≠ .fatal → RomWindowFree s.table

theorem State.inv_iff {s : State} :
    s.Inv ↔ SystemOk s ∧ (s.running = true → s.inbox.head? = some .run ∧ s.halted = false) := by
  constructor
  · intro h
    exact ⟨⟨⟨h.ramWf, h.ramSize, h.romWf, h.vramWf, h.vramSize, h.vramUpper, h.statusFixed, h.codeTop, h.codeLow⟩,
      h.tableOk, h.romWindowFree⟩, h.runAtHead⟩
  · rintro ⟨⟨⟨hram, hsize, hrom, hvdp⟩, htable, hfree⟩, hrun⟩
    exact ⟨hram, hrom, hvdp.vramWf, hvdp.size, hvdp.upper, hsize, hvdp.status, hvdp.codeTop, hvdp.codeLow, htable, hfree,
      hrun⟩

theorem SystemOk.withInbox {s : State} (h : SystemOk s) (q : List Request) : SystemOk (s.withInbox q) :=
  ⟨h.devicesOk.congr rfl rfl rfl rfl, h.tableOk, h.romWindowFree⟩

theorem SystemOk.serves {s t : State} (h : SystemOk s) (hst : Serves s t) : SystemOk t := by
  have htable : t.table = s.table := congrArg Parameters.table hst.parameters
  refine ⟨hst.devicesOk h.devicesOk, htable ▸ h.tableOk, ?_⟩
  rw [hst.boot, htable]
  exact h.romWindowFree

/-- MAP keeps it: under construction the window is not yet promised, and a collision is fatal. -/
theorem SystemOk.map {d : Device} {first last : Addr} {s t : State} (hs : SystemOk s)
    (h : exec (.map d first last) s = .next t) : SystemOk t := by
  obtain ⟨hb, hord, hd, ⟨-, rfl⟩ | ⟨table, hm, rfl⟩⟩ := execMap_next h
  · exact ⟨hs.devicesOk.congr rfl rfl rfl rfl, hs.tableOk, fun _ hf => absurd rfl hf⟩
  · exact ⟨hs.devicesOk.congr rfl rfl rfl rfl, hs.tableOk.mapRange (Mapping.wf_iff.mpr ⟨hord, hd⟩) hm,
      fun hnb _ => absurd hb hnb⟩

/-- SYS.CONSTRUCT makes it, whatever stood before. -/
theorem SystemOk.sysConstruct {c : Config} {s t : State} (h : exec (.sysConstruct c) s = .next t) : SystemOk t := by
  obtain ⟨hc, boot, r, rfl, hcase⟩ := execSysConstruct_next h
  have hmap := systemMap_ok hc
  refine ⟨(constructed_ok c _ s).congr rfl rfl rfl rfl,
    TableOk.mapAll ⟨.nil, by simp⟩ _ fun m hm => (hmap m hm).1, fun _ hf => ?_⟩
  obtain ⟨hall, -, -⟩ | ⟨-, hb, -⟩ := hcase
  · show RomWindowFree (mapAll [] (systemMap c)).1
    rw [mapAll_of_ok hall]
    exact fun m hm => .inr (hmap m hm).2
  · exact absurd hb hf

theorem SystemOk.sysLoad {data : List Byte} {s t : State} (hs : SystemOk s) (h : exec (.sysLoad data) s = .next t) :
    SystemOk t := by
  obtain ⟨-, rfl⟩ := execSysLoad_next h
  have hkept : TableOk (loadPrepared data s).table := hs.tableOk.filter _
  obtain ⟨⟨hb, ht⟩ | ⟨-, hm⟩, -, -, -, hd⟩ := loadRom_next data s
  · exact ⟨hd, ht ▸ hkept, fun _ hf => absurd hb hf⟩
  · exact ⟨hd, hkept.mapRange (romMapping_wf s.cfg) hm, fun _ _ => RomWindowFree.of_mapRange hkept hm⟩

theorem exec_keeps_systemOk {i : Instr} {s t : State} (hs : SystemOk s) (h : exec i s = .next t) : SystemOk t := by
  by_cases hi : isSetup i = true
  · cases i <;> simp only [isSetup, Bool.false_eq_true] at hi
    case map => exact hs.map h
    case sysConstruct => exact .sysConstruct h
    case sysLoad => exact hs.sysLoad h
  · exact hs.serves (exec_serves_of_not_setup (by simpa using hi) h)

/-- Nothing but SYS.RUN starts a Run. -/
theorem running_of_exec {i : Instr} {s t : State} (hrun : i ≠ .sysRun) (h : exec i s = .next t)
    (ht : t.running = true) : s.running = true := by
  by_cases hi : isSetup i = true
  · cases i <;> simp only [isSetup, Bool.false_eq_true] at hi
    case map =>
      obtain ⟨-, -, -, ⟨-, rfl⟩ | ⟨table, -, rfl⟩⟩ := execMap_next h <;> exact ht
    case sysConstruct =>
      obtain ⟨-, boot, r, rfl, -⟩ := execSysConstruct_next h
      exact absurd ht Bool.false_ne_true
    case sysLoad data =>
      obtain ⟨-, rfl⟩ := execSysLoad_next h
      obtain ⟨-, -, hidle, -⟩ := loadRom_next data s
      exact absurd (hidle.symm.trans ht) Bool.false_ne_true
  · exact (exec_serves (by simpa using hi) hrun h).running ▸ ht

theorem decode_run (p : Bool) : decode p .run = .ok .sysRun := rfl

theorem rawInstr_of_decode {p : Bool} {r : Request} {i : Instr} (h : decode p r = .ok i) : rawInstr p r = .ok i := by
  unfold decode at h
  cases hraw : rawInstr p r with
  | error e => simp [hraw] at h
  | ok j =>
    simp only [hraw] at h
    split at h <;> cases h
    rfl

theorem decodeCtrlWord_ne_sysRun (p : Bool) (w : Half) : decodeCtrlWord p w ≠ .sysRun := by
  unfold decodeCtrlWord
  repeat' split
  all_goals exact Instr.noConfusion

theorem devInstr_ne_sysRun (d : Device) (dir : Dir) (offset : Addr) (n : Nat) (bytes : List Byte) :
    devInstr d dir offset n bytes ≠ .sysRun := by
  cases d <;> cases dir <;> exact Instr.noConfusion

theorem headerInstr_ne_sysRun (f : HeaderField) : headerInstr f ≠ .sysRun := by
  cases f <;> exact Instr.noConfusion

/-- Only the host's call `run` is SYS.RUN (R238). -/
theorem eq_run_of_decode {p : Bool} {r : Request} (h : decode p r = .ok .sysRun) : r = .run := by
  have hraw := rawInstr_of_decode h
  cases r <;> simp only [rawInstr] at hraw
  case run => rfl
  case txn dir _ _ _ => cases dir <;> split at hraw <;> cases hraw
  case dev =>
    split at hraw
    · exact absurd (Except.ok.inj hraw) (devInstr_ne_sysRun _ _ _ _ _)
    · cases hraw
  case portRead | ctrlPort => split at hraw <;> cases hraw
  case ctrlWord w => exact absurd (Except.ok.inj hraw) (decodeCtrlWord_ne_sysRun p w)
  case header f => exact absurd (Except.ok.inj hraw) (headerInstr_ne_sysRun f)
  all_goals cases hraw

/-- A step that goes on has served nothing, or one operation that went on and was retired. -/
theorem step_next {s t : State} (h : step s = .next t) :
    (s.inbox = [] ∧ t = s) ∨
    ∃ r rest i t', s.inbox = r :: rest ∧ decode s.vdp.writePending r = .ok i ∧ exec i s = .next t' ∧
      t = State.retire i t' := by
  obtain ⟨hq, e⟩ | ⟨r, rest, hq, ⟨why, -, e⟩ | ⟨i, hd, ⟨t', he, e⟩ | ⟨f, -, e⟩ | ⟨why, -, e⟩⟩⟩ := step_cases s <;>
    cases e.symm.trans h
  · exact .inl ⟨hq, rfl⟩
  · exact .inr ⟨r, rest, i, t', hq, hd, he, rfl⟩

/-- Settles O10: an operation keeps the System well-formed; a SYS.RUN in progress stays at the head of the queue, so no other
operation is served before it has returned. -/
theorem stepKeepsInvariant : Obligations.StepKeepsInvariant := by
  unfold Obligations.StepKeepsInvariant
  intro s t hinv hstep
  obtain ⟨hs, hhead⟩ := State.inv_iff.mp hinv
  obtain ⟨-, rfl⟩ | ⟨r, rest, i, t', hq, hd, he, rfl⟩ := step_next hstep
  · exact hinv
  · have ht := exec_keeps_systemOk hs he
    rw [State.retire_eq]
    split
    next hgo =>
      obtain ⟨rfl, hgoing⟩ := hgo
      obtain ⟨hserves, hnothalted⟩ := execSysRun_serves he
      refine State.inv_iff.mpr ⟨ht, fun _ => ⟨?_, hnothalted hgoing⟩⟩
      rw [hserves.inbox, hq, eq_run_of_decode hd]
      rfl
    next hdone =>
      refine State.inv_iff.mpr ⟨ht.withInbox _, fun hgoing => ?_⟩
      have hrun : i ≠ .sysRun := fun hi => hdone ⟨hi, hgoing⟩
      obtain ⟨hr, -⟩ := hhead (running_of_exec hrun he hgoing)
      obtain rfl : r = .run := by simpa [hq] using hr
      exact absurd (Except.ok.inj (hd.symm.trans (decode_run _))) hrun

/-! ## The reset state -/

/-- SYS.CONSTRUCT with a configuration that passes its check and whose ranges all fit (R233). -/
theorem exec_sysConstruct_of_disjoint {c : Config} {table : List Mapping} (s : State) (hc : c.check = none)
    (hm : mapAll [] (systemMap c) = (table, true)) : exec (.sysConstruct c) s = .next (constructed c table s) := by
  show execSysConstruct c s = _
  simp only [execSysConstruct, hc, hm]

/-- Settles O8: the default configuration passes its check and its ranges make up the table of the reset state. -/
theorem constructReachesReset : Obligations.ConstructReachesReset := by
  unfold Obligations.ConstructReachesReset
  intro s
  have hcheck : Config.default.check = none := rfl
  have hmap : mapAll [] (systemMap Config.default) = (State.reset.table, true) := rfl
  exact exec_sysConstruct_of_disjoint s hcheck hmap

theorem systemOk_reset : SystemOk State.reset :=
  (SystemOk.sysConstruct (constructReachesReset State.reset)).serves (ServesAtOnce.respond _ .silent).toServes

/-- Settles O9: the reset state is one SYS.CONSTRUCT leaves, and no SYS.RUN is in progress in it. -/
theorem resetMeetsInvariant : Obligations.ResetMeetsInvariant :=
  State.inv_iff.mpr ⟨systemOk_reset, fun h => absurd h Bool.false_ne_true⟩

/-! ## The mapping table -/

theorem mem_loadPrepared_table {data : List Byte} {s : State} {m : Mapping}
    (hm : ¬(m.first = romFirst ∧ m.last = romLast)) : m ∈ (loadPrepared data s).table ↔ m ∈ s.table := by
  have hat : atRomWindow m = false := by simpa [atRomWindow] using hm
  show m ∈ s.table.filter _ ↔ _
  simp [List.mem_filter, hat]

/-- SYS.LOAD keeps every mapping but the one at ROM_WINDOW (R236, R283). -/
theorem mem_loadRom_table {data : List Byte} {s : State} {m : Mapping}
    (hm : ¬(m.first = romFirst ∧ m.last = romLast)) : m ∈ (loadRom data s).table ↔ m ∈ s.table := by
  rw [← mem_loadPrepared_table (data := data) (s := s) hm]
  obtain ⟨⟨-, ht⟩ | ⟨-, hmap⟩, -⟩ := loadRom_next data s
  · rw [ht]
  · have hne : m ≠ romMapping s.cfg := fun h => hm (h ▸ ⟨rfl, rfl⟩)
    obtain ⟨hnone, -⟩ | ⟨hsome, -⟩ := mapRange_cases (loadPrepared data s).table (romMapping s.cfg)
    · exact absurd (hnone.symm.trans hmap) (by simp)
    · rw [← Option.some.inj (hsome.symm.trans hmap)]
      simp [hne]

theorem stepUnder_keeps_parameters {p : Parameters} {b : Block} {t : State}
    (hsetup : ∀ r ∈ b.inbox.head?, ∀ i, decode b.vdp.writePending r = .ok i → isSetup i = false)
    (h : stepUnder p b = .next t) : t.toParameters = p := by
  obtain ⟨-, rfl⟩ | ⟨r, rest, i, t', hq, hd, he, rfl⟩ := step_next (s := ⟨p, b⟩) h
  · rfl
  · have hi : isSetup i = false := hsetup r (by rw [show b.inbox = r :: rest from hq]; rfl) i hd
    rw [State.retire_eq]
    split <;> exact (exec_serves_of_not_setup hi he).parameters

/-- Settles O14: every operation that is no set-up keeps the parameters and the phase of the System; the three set-ups by their
own inversions. -/
theorem onlySetupChangesTable : Obligations.OnlySetupChangesTable := by
  unfold Obligations.OnlySetupChangesTable
  refine ⟨fun _ => rfl, fun p b t => stepUnder_keeps_parameters, fun i s t h => ?_⟩
  by_cases hi : isSetup i = true
  · refine ⟨fun hno => absurd (hi.symm.trans hno) (by simp), ?_⟩
    cases i <;> simp only [isSetup, Bool.false_eq_true] at hi
    case map =>
      obtain ⟨hb, -⟩ := execMap_next h
      exact ⟨fun hnb => absurd hb hnb, nofun⟩
    case sysConstruct c =>
      obtain ⟨-, boot, r, rfl, hcase⟩ := execSysConstruct_next h
      refine ⟨fun _ => ⟨?_, fun hc => absurd rfl (hc c)⟩, nofun⟩
      obtain ⟨-, rfl, -⟩ | ⟨-, rfl, -⟩ := hcase <;> exact Boot.noConfusion
    case sysLoad data =>
      obtain ⟨-, rfl⟩ := execSysLoad_next h
      obtain ⟨hcase, hcfg, -⟩ := loadRom_next data s
      refine ⟨fun _ => ⟨?_, fun _ => ⟨hcfg, .inr ⟨data, rfl⟩⟩⟩, fun _ _ => ⟨hcfg, fun m hm => mem_loadRom_table hm⟩⟩
      obtain ⟨hb, -⟩ | ⟨hb, -⟩ := hcase
      · rw [hb]
        exact Boot.noConfusion
      · exact hb
  · rw [Bool.not_eq_true] at hi
    have hst := exec_serves_of_not_setup hi h
    have htable : t.table = s.table := congrArg Parameters.table hst.parameters
    have hcfg : t.cfg = s.cfg := congrArg Parameters.cfg hst.parameters
    refine ⟨fun _ => ⟨htable, hcfg⟩, fun hnb => ⟨hst.boot ▸ hnb, fun _ => ⟨hcfg, .inl htable⟩⟩, ?_⟩
    rintro data rfl
    exact absurd hi (by simp [isSetup])

/-! ## The VDP -/

/-- Settles O33: the command runs, and a register that exists takes the value while an index out of range stores nothing. -/
theorem registerSetStoresOneRegister : Obligations.RegisterSetStoresOneRegister := by
  unfold Obligations.RegisterSetStoresOneRegister
  intro index value s hs
  have hexec : exec (.ctrlRegset index value) s = .next ((s.withVdp (s.vdp.regset index value)).respond .ok) :=
    command_of_accepted _ hs
  obtain ⟨hin, e⟩ | ⟨hout, e⟩ := s.vdp.regset_cases index value <;> rw [hexec, e]
  · exact ⟨_, rfl, fun j hj => by simp [Vector.getElem_set, eq_comm]⟩
  · exact ⟨s.vdp.registers, rfl, fun j hj => by rw [if_neg (by omega)]⟩

/-- Settles O43: what is no set-up keeps `status`, MAP touches no device, and the two reset events write the parameter. -/
theorem statusNeverWritten : Obligations.StatusNeverWritten := by
  unfold Obligations.StatusNeverWritten
  intro i s t h
  by_cases hi : isSetup i = true
  · cases i <;> simp only [isSetup, Bool.false_eq_true] at hi
    case map =>
      obtain ⟨-, -, -, ⟨-, rfl⟩ | ⟨table, -, rfl⟩⟩ := execMap_next h <;> exact .inl rfl
    case sysConstruct c =>
      obtain ⟨-, boot, r, rfl, -⟩ := execSysConstruct_next h
      exact .inr (.inl ⟨c, rfl, rfl⟩)
    case sysLoad data =>
      obtain ⟨-, rfl⟩ := execSysLoad_next h
      obtain ⟨-, hcfg, -, -, hd⟩ := loadRom_next data s
      exact .inr (.inr ⟨data, rfl, hcfg ▸ hd.vdpOk.status⟩)
  · exact .inl (exec_serves_of_not_setup (by simpa using hi) h).status

/-- A bus access to an address at which no VDP is reached leaves the VDP as it was (R103, R174). -/
theorem bus_access_keeps_vdp {s : State} {addr : Addr}
    (h : ∀ m ∈ s.table, m.first ≤ addr → addr ≤ m.last → reachesVdp m.device = false) :
    (∀ n, (busRead addr n s).1.vdp = s.vdp) ∧ ∀ v, (busWrite addr v s).1.vdp = s.vdp := by
  unfold busRead busWrite
  cases hl : lookup s.table addr with
  | none => exact ⟨fun _ => rfl, fun _ => rfl⟩
  | some m =>
    obtain ⟨hm, hfirst, hlast⟩ := lookup_mem hl
    exact device_access_keeps_vdp (h m hm hfirst hlast) _ s

theorem transaction_keeps_vdp {s t : State} {n : Nat} {r : State × Xfer} (hr : r.1.vdp = s.vdp)
    (h : transaction s n r = .next t) : t.vdp = s.vdp := by
  obtain ⟨-, -, rfl⟩ := transaction_next h
  exact hr

/-- Settles O39: the events of the VDP by its port operations, and what reaches no VDP by the frame of its accesses. -/
theorem phaseFollowsTransitionTable : Obligations.PhaseFollowsTransitionTable := by
  unfold Obligations.PhaseFollowsTransitionTable
  intro s t
  refine ⟨?ctrlWr, ?vdpStatus, ?dataWr, ?vdpRd, ?vdpWr16, ?sysLoad, ?others⟩
  case ctrlWr =>
    intro p b0 b1 h
    obtain ⟨-, rfl⟩ := command_next h
    exact s.vdp.ctrlWrite_writePending b0 b1
  case vdpStatus =>
    intro p h
    obtain ⟨-, -, rfl⟩ := transaction_next h
    rfl
  case dataWr =>
    intro b0 b1 h
    obtain ⟨-, rfl⟩ := command_next h
    exact s.vdp.dataWrite_writePending b0 b1
  case vdpRd =>
    intro offset n h hoff
    obtain ⟨-, -, rfl⟩ := transaction_next h
    exact congrArg Vdp.writePending (s.vdp.read_of_no_status hoff)
  case vdpWr16 =>
    intro offset b0 b1 h hoff
    obtain ⟨-, rfl⟩ := command_next h
    exact congrArg Vdp.writePending (s.vdp.write16_of_no_port hoff b0 b1)
  case sysLoad =>
    intro data h
    obtain ⟨-, rfl⟩ := execSysLoad_next h
    obtain ⟨-, -, -, hidle, -⟩ := loadRom_next data s
    exact hidle
  case others =>
    rintro i (hsoft | ⟨o, n, rfl | rfl⟩ | ⟨o, v, rfl | rfl⟩ | ⟨k, o, n, rfl⟩ | ⟨k, o, v, rfl⟩ | ⟨d, a, b, rfl⟩ |
      ⟨p, d, o, hd, ⟨n, rfl⟩ | ⟨v, rfl⟩⟩ | ⟨l, k, d, o, hd, ⟨n, rfl⟩ | ⟨v, rfl⟩⟩ | ⟨a, ha, ⟨n, rfl⟩ | ⟨v, rfl⟩⟩) h
    · obtain ⟨r, rfl⟩ := software_next hsoft h
      rfl
    iterate 6 · exact transaction_keeps_vdp rfl h
    · obtain ⟨-, -, -, ⟨-, rfl⟩ | ⟨table, -, rfl⟩⟩ := execMap_next h <;> rfl
    · exact transaction_keeps_vdp ((device_access_keeps_vdp (d := .mirror p d) hd o s).1 n) (onDevice_next h).2
    · exact transaction_keeps_vdp ((device_access_keeps_vdp (d := .mirror p d) hd o s).2 v) (onDevice_next h).2
    · exact transaction_keeps_vdp ((device_access_keeps_vdp (d := .tracer l k d) hd o s).1 n) (onDevice_next h).2
    · exact transaction_keeps_vdp ((device_access_keeps_vdp (d := .tracer l k d) hd o s).2 v) (onDevice_next h).2
    · exact transaction_keeps_vdp ((bus_access_keeps_vdp ha).1 n) h
    · exact transaction_keeps_vdp ((bus_access_keeps_vdp ha).2 v) h

end Sys2Proof.Machine
end

section
/-! PROOFS, family 20_memory: what the decoder refuses and what it gives back, empty accesses, mapped accesses, the storage
devices, the Mirror, reads, CHECKSUM. -/

namespace Sys2Proof.Machine

/-! ## The decoder -/

theorem decode_of_raw_error {p : Bool} {r : Request} {e : DecodeError} (hraw : rawInstr p r = .error e) :
    decode p r = .error e := by
  simp only [decode, hraw]

/-- A form of an operation that is not admitted is refused by the reason that it is not (R50; D2, D3). -/
theorem decode_of_raw_illFormed {p : Bool} {r : Request} {i : Instr} {why : IllFormed} (hraw : rawInstr p r = .ok i)
    (hc : i.check = some why) : decode p r = .error (.illFormed why) := by
  simp only [decode, hraw, hc]

@[simp] theorem wordHi_wordOf (b0 b1 : Byte) : wordHi (wordOf b0 b1) = b0 := BitVec.extractLsb'_append_eq_left

@[simp] theorem wordLo_wordOf (b0 b1 : Byte) : wordLo (wordOf b0 b1) = b1 := BitVec.extractLsb'_append_eq_right

@[simp] theorem isControlOffset_controlOffset (p : BitVec 1) : isControlOffset (controlOffset p) = true := by
  revert p
  decide

@[simp] theorem portBit_controlOffset (p : BitVec 1) : portBit (controlOffset p) = p := by
  revert p
  decide

/-- The fields of CW-REG (R76). -/
theorem decodeCtrlWord_regset (index : BitVec 6) (value : Byte) :
    decodeCtrlWord false (0b10#2 ++ index ++ value : BitVec 16) = .ctrlRegset index value := by
  have hsel : (0b10#2 ++ index ++ value : BitVec 16).extractLsb' 14 2 = 0b10#2 :=
    (BitVec.extractLsb'_append_eq_of_le (by decide)).trans BitVec.extractLsb'_append_eq_left
  have hindex : (0b10#2 ++ index ++ value : BitVec 16).extractLsb' 8 6 = index :=
    (BitVec.extractLsb'_append_eq_of_le (by decide)).trans BitVec.extractLsb'_append_eq_right
  have hvalue : (0b10#2 ++ index ++ value : BitVec 16).extractLsb' 0 8 = value := BitVec.extractLsb'_append_eq_right
  simp [decodeCtrlWord, hsel, hindex, hvalue]

/-- The fields of CW-A1 (R77): two bits of code, which select the command, and fourteen bits of address. -/
theorem decodeCtrlWord_addr1 {cd : BitVec 2} (hcd : cd ≠ 0b10#2) (lo : BitVec 14) :
    decodeCtrlWord false (cd ++ lo : BitVec 16) =
      if cd = 0b00#2 then .ctrlAddr1Cd00 lo else if cd = 0b01#2 then .ctrlAddr1Cd01 lo else .ctrlAddr1Cd11 lo := by
  have hsel : (cd ++ lo : BitVec 16).extractLsb' 14 2 = cd := BitVec.extractLsb'_append_eq_left
  have hlo : (cd ++ lo : BitVec 16).extractLsb' 0 14 = lo := BitVec.extractLsb'_append_eq_right
  simp [decodeCtrlWord, hsel, hlo, hcd]

/-- The fields of CW-A2, ignored ones included (R78). -/
theorem decodeCtrlWord_addr2 (x : Byte) (cdHi : BitVec 4) (y hi : BitVec 2) :
    decodeCtrlWord true (x ++ cdHi ++ y ++ hi : BitVec 16) = .ctrlAddr2 x cdHi y hi := by
  have hx : (x ++ cdHi ++ y ++ hi : BitVec 16).extractLsb' 8 8 = x :=
    (BitVec.extractLsb'_append_eq_of_le (by decide)).trans
      ((BitVec.extractLsb'_append_eq_of_le (by decide)).trans BitVec.extractLsb'_append_eq_left)
  have hcdHi : (x ++ cdHi ++ y ++ hi : BitVec 16).extractLsb' 4 4 = cdHi :=
    (BitVec.extractLsb'_append_eq_of_le (by decide)).trans
      ((BitVec.extractLsb'_append_eq_of_le (by decide)).trans BitVec.extractLsb'_append_eq_right)
  have hy : (x ++ cdHi ++ y ++ hi : BitVec 16).extractLsb' 2 2 = y :=
    (BitVec.extractLsb'_append_eq_of_le (by decide)).trans BitVec.extractLsb'_append_eq_right
  have hhi : (x ++ cdHi ++ y ++ hi : BitVec 16).extractLsb' 0 2 = hi := BitVec.extractLsb'_append_eq_right
  simp [decodeCtrlWord, hx, hcdHi, hy, hhi]

/-- The form an operation is encoded in stands for that operation, admitted or not, in the phase it needs (R70 to R80). -/
theorem rawInstr_encode (i : Instr) : rawInstr (phaseOf i) (encode i) = .ok i := by
  cases i
  case busWr | ramWr | romWr | mirWr | trcWr | stubWr | vdpWr =>
    simp [encode, rawInstr, checkPayload, devInstr]
  case vdpStatus | ctrlWr | vdpWr16 | dataWr | vramWr16 => simp [encode, rawInstr]
  case ctrlRegset index value => exact congrArg Except.ok (decodeCtrlWord_regset index value)
  case ctrlAddr1Cd00 lo => exact congrArg Except.ok (decodeCtrlWord_addr1 (cd := 0b00#2) (by decide) lo)
  case ctrlAddr1Cd01 lo => exact congrArg Except.ok (decodeCtrlWord_addr1 (cd := 0b01#2) (by decide) lo)
  case ctrlAddr1Cd11 lo => exact congrArg Except.ok (decodeCtrlWord_addr1 (cd := 0b11#2) (by decide) lo)
  case ctrlAddr2 x cdHi y hi => exact congrArg Except.ok (decodeCtrlWord_addr2 x cdHi y hi)
  all_goals rfl

theorem rawInstr_of_payload_mismatch {dir : Dir} {n : Nat} {bytes : List Byte} (h : checkPayload dir n bytes = false)
    (p : Bool) (a : Addr) (d : Device) :
    rawInstr p (.txn dir a n bytes) = .error .lengthMismatch ∧
      rawInstr p (.dev d dir a n bytes) = .error .lengthMismatch := by
  simp [rawInstr, h]

/-- Settles O59: a payload that does not match never becomes an operation, and what becomes one is checked. -/
theorem decoderRefusesWhatIsNotAdmitted : Obligations.DecoderRefusesWhatIsNotAdmitted := by
  unfold Obligations.DecoderRefusesWhatIsNotAdmitted
  refine ⟨fun p dir a d n bytes h => ?_, fun i why => decode_of_raw_illFormed (rawInstr_encode i), fun p r i => decode_wf⟩
  have hpayload : checkPayload dir n bytes = false := by
    obtain ⟨rfl, hb⟩ | ⟨rfl, hn⟩ := h
    · simpa [checkPayload] using hb
    · simpa [checkPayload] using hn
  obtain ⟨htxn, hdev⟩ := rawInstr_of_payload_mismatch hpayload p a d
  exact ⟨decode_of_raw_error htxn, decode_of_raw_error hdev⟩

/-! ## Accesses of no bytes -/

theorem devInstr_check_empty (d : Device) (dir : Dir) (offset : Addr) :
    (devInstr d dir offset 0 []).check = some .zeroLength := by
  cases d <;> cases dir <;> rfl

theorem eq_zero_of_checkLength {n : Nat} {why : IllFormed} (h : checkLength n = some why) : n = 0 := by
  unfold checkLength at h
  split at h
  · assumption
  · cases h

theorem checkDevice_ne_zeroLength (d : Device) : checkDevice d ≠ some .zeroLength := by
  unfold checkDevice
  split <;> simp

theorem eq_zero_of_check_onDevice {n : Nat} {d : Device}
    (h : (if n = 0 then some .zeroLength else checkDevice d) = some IllFormed.zeroLength) : n = 0 := by
  split at h
  · assumption
  · exact absurd h (checkDevice_ne_zeroLength d)

theorem Config.check_ne_zeroLength (c : Config) : c.check ≠ some .zeroLength := by
  unfold Config.check
  repeat' split
  all_goals simp

/-- Where transactions are accepted, one of no bytes is refused (R50, D2). -/
theorem transaction_of_zero {s : State} {n : Nat} (r : State × Xfer) (hs : s.accepts) (hn : n = 0) :
    transaction s n r = .refused (.illFormed .zeroLength) := by
  subst hn
  exact transaction_empty r hs

theorem exec_of_zeroLength {i : Instr} {s : State} (hs : s.accepts) (hc : i.check = some .zeroLength) :
    exec i s = .refused (.illFormed .zeroLength) := by
  cases i <;> simp only [Instr.check, reduceCtorEq] at hc
  case map =>
    split at hc
    · cases hc
    · exact absurd hc (checkDevice_ne_zeroLength _)
  case sysConstruct c => exact absurd hc (Config.check_ne_zeroLength c)
  case mirRd | mirWr | trcRd | trcWr => 
    exact congrArg (onDevice _) (transaction_of_zero _ hs (eq_zero_of_check_onDevice hc))
  all_goals exact transaction_of_zero _ hs (eq_zero_of_checkLength hc)

theorem accepts_of_runnable {s : State} (hh : s.halted = false) (hr : runnable s.boot = true) : s.accepts :=
  ⟨hh, fun hb => by simp [hb, runnable] at hr⟩

theorem execSysRun_of_runnable {s : State} (hh : s.halted = false) (hr : runnable s.boot = true) :
    execSysRun s = runTurn s := by
  rw [execSysRun, accepted_of (accepts_of_runnable hh hr), if_pos hr]

/-- Settles O5: in every form the operation decoded is one of no bytes, which its check refuses; a meaning whose check finds no
bytes is a transaction of none, and SYS.RUN tests the length of each access itself. -/
theorem emptyTransactionRefused : Obligations.EmptyTransactionRefused := by
  unfold Obligations.EmptyTransactionRefused
  refine ⟨fun p dir addr d => ⟨?_, ?_, ?_⟩, fun i s => exec_of_zeroLength, fun s addr rest hh hr hmove => ?_⟩
  · cases dir <;> rfl
  · exact decode_of_raw_illFormed (by cases dir <;> rfl) (devInstr_check_empty d dir addr)
  · exact decode_of_raw_illFormed (i := .vdpRd addr 0) (by simp [rawInstr]) rfl
  · refine (execSysRun_of_runnable hh hr).trans ?_
    obtain he | he := hmove <;> simp [runTurn, he]

/-! ## Mapped accesses -/

/-- The offset of an address in its mapping (R58), as a number. -/
theorem offsetIn_eq {m : Mapping} {addr offset : Addr} (h : m.first.toNat + offset.toNat = addr.toNat) :
    offsetIn m addr = offset := by
  unfold offsetIn
  bv_omega

section
variable {s : State} {m : Mapping} {addr offset : Addr} (htable : TableOk s.table) (hm : m ∈ s.table)
  (hfirst : m.first ≤ addr) (hlast : addr ≤ m.last) (hoffset : m.first.toNat + offset.toNat = addr.toNat)
include htable hm hfirst hlast hoffset

theorem busRead_of_mapped (n : Nat) : busRead addr n s = devRead m.device offset n s := by
  have hl : lookup s.table addr = some m := lookup_eq htable hm (by simp [mappingContains, hfirst, hlast])
  simp only [busRead, hl, offsetIn_eq hoffset]

theorem busWrite_of_mapped (v : List Byte) : busWrite addr v s = devWrite m.device offset v s := by
  have hl : lookup s.table addr = some m := lookup_eq htable hm (by simp [mappingContains, hfirst, hlast])
  simp only [busWrite, hl, offsetIn_eq hoffset]

end

/-- In every state the operation of an admitted device's own kind is a transaction of the device (R120). -/
theorem exec_devInstr_read {d : Device} (hd : d.wf = true) (offset : Addr) (n : Nat) (s : State) :
    exec (devInstr d .read offset n []) s = transaction s n (devRead d offset n s) := by
  cases d
  case mirror => exact onDevice_wf _ hd
  case tracer inner => exact onDevice_wf (d := inner) _ hd
  all_goals rfl

theorem exec_devInstr_write {d : Device} (hd : d.wf = true) (offset : Addr) (v : List Byte) (s : State) :
    exec (devInstr d .write offset v.length v) s = transaction s v.length (devWrite d offset v s) := by
  cases d
  case mirror => exact onDevice_wf _ hd
  case tracer inner => exact onDevice_wf (d := inner) _ hd
  all_goals rfl

/-- Settles O12: the lookup finds the mapping, so the access is a transaction of its device, and so is the operation of the
device's own kind. -/
theorem mappedAccessIsDeviceAccess : Obligations.MappedAccessIsDeviceAccess := by
  unfold Obligations.MappedAccessIsDeviceAccess
  intro s m addr offset htable hm hfirst hlast hoffset
  have hwf : m.device.wf = true := (Mapping.wf_iff.mp (htable.2 m hm)).2
  have hread (n : Nat) : exec (.busRd addr n) s = transaction s n (devRead m.device offset n s) :=
    congrArg (transaction s n) (busRead_of_mapped htable hm hfirst hlast hoffset n)
  have hwrite (v : List Byte) : exec (.busWr addr v) s = transaction s v.length (devWrite m.device offset v s) :=
    congrArg (transaction s v.length) (busWrite_of_mapped htable hm hfirst hlast hoffset v)
  have hreadKind (n : Nat) (d : Device) (h : m.device = d) :
      exec (.busRd addr n) s = exec (devInstr d .read offset n []) s :=
    h ▸ (hread n).trans (exec_devInstr_read hwf offset n s).symm
  have hwriteKind (v : List Byte) (d : Device) (h : m.device = d) :
      exec (.busWr addr v) s = exec (devInstr d .write offset v.length v) s :=
    h ▸ (hwrite v).trans (exec_devInstr_write hwf offset v s).symm
  refine ⟨fun hs n hn => ?_, fun hs v hv => ?_, fun n => ?_, fun v => ?_⟩
  · exact (hread n).trans (transaction_of_accepted _ hs hn)
  · exact (hwrite v).trans (transaction_of_accepted _ hs (mt List.length_eq_zero_iff.mp hv))
  · exact ⟨hreadKind n .ram, hreadKind n .rom, hreadKind n .vdp, fun k => hreadKind n (.stub k),
      fun p d => hreadKind n (.mirror p d), fun l k d => hreadKind n (.tracer l k d)⟩
  · exact ⟨hwriteKind v .ram, hwriteKind v .rom, hwriteKind v .vdp, fun k => hwriteKind v (.stub k),
      fun p d => hwriteKind v (.mirror p d), fun l k d => hwriteKind v (.tracer l k d)⟩

/-! ## Bounds-checked buffers -/

/-- A transaction that reads a buffer and changes nothing: RAM.RD and ROM.RD (R60, R121, R125). -/
theorem transaction_load {s : State} {n : Nat} (hs : s.accepts) (hn : n ≠ 0) (b : Buffer) (outside : Err) (off : Nat) :
    (off < b.size → ∃ bytes : List Byte,
      transaction s n (s, b.load outside off n) = .next { s with response := .transfer ⟨bytes.length, bytes, none⟩ } ∧
      bytes.length = min n (b.size - off) ∧ ∀ i, i < bytes.length → bytes[i]? = some (b.byte (off + i))) ∧
    (b.size ≤ off →
      transaction s n (s, b.load outside off n) = .next { s with response := .transfer ⟨0, [], some outside⟩ }) := by
  rw [transaction_of_accepted _ hs hn]
  obtain ⟨hout, e⟩ | ⟨hin, bytes, e, hlen, hbytes⟩ := b.load_cases outside off n <;> rw [e]
  · exact ⟨fun hin => absurd hin (Nat.not_lt.mpr hout), fun _ => rfl⟩
  · rw [← hlen] at hbytes ⊢
    exact ⟨fun _ => ⟨bytes, rfl, rfl, hbytes⟩, fun hout => absurd hin (Nat.not_lt.mpr hout)⟩

/-- Settles O15: RAM.RD is a bounds-checked read of RAM. -/
theorem ramReadReturnsBytes : Obligations.RamReadReturnsBytes := by
  unfold Obligations.RamReadReturnsBytes
  exact fun offset n s hs hn => transaction_load hs hn s.ram (.accessViolation offset) offset.toNat

/-- Settles O17: ROM.RD is a bounds-checked read of the ROM's data. -/
theorem romReadReturnsBytes : Obligations.RomReadReturnsBytes := by
  unfold Obligations.RomReadReturnsBytes
  exact fun offset n s hs hn => transaction_load hs hn s.rom .endOfData offset.toNat

theorem Buffer.load_one {b : Buffer} {off : Nat} (h : off < b.size) (outside : Err) :
    b.load outside off 1 = ⟨1, [b.byte off], none⟩ := by
  have hone : min 1 (b.size - off) = 1 := by omega
  simp [Buffer.load, Nat.not_le.mpr h, hone, Memory.slice, Xfer.got, Buffer.byte]

/-- A write that starts outside the buffer changes nothing (R60). -/
theorem Buffer.store_outside {b : Buffer} {offset : Addr} (h : b.size ≤ offset.toNat) (v : List Byte) :
    b.store offset.toNat v = (b, ⟨0, [], some (.accessViolation offset)⟩) := by
  simp [Buffer.store, h, Xfer.raise]

/-- A write that starts inside the buffer stores the bytes that fit and leaves every other byte (R60, R122; D6). -/
theorem Buffer.store_inside {b : Buffer} (hb : b.wf) {off : Nat} (h : off < b.size) (v : List Byte) :
    ∃ b' : Buffer, b.store off v = (b', ⟨min v.length (b.size - off), [],
        if b.size - off < v.length then some .shortWrite else none⟩) ∧
      b'.size = b.size ∧
      (∀ i, i < v.length → off + i < b.size → v[i]? = some (b'.byte (off + i))) ∧
      (∀ a, a < off ∨ off + v.length ≤ a ∨ b.size ≤ a → b'.byte a = b.byte a) := by
  obtain ⟨hout, -⟩ | ⟨-, b', -, hsize, hstore, hbyte⟩ := Buffer.store_cases hb off v
  · exact absurd h (Nat.not_lt.mpr hout)
  refine ⟨b', hstore, hsize, fun i hi hin => ?_, fun a ha => ?_⟩
  · rw [hbyte, if_pos ⟨Nat.le_add_right off i, hin⟩, Nat.add_sub_cancel_left, List.getElem?_eq_getElem hi]
    rfl
  · rw [hbyte]
    split
    · rw [List.getElem?_eq_none (by omega)]
      rfl
    · rfl

/-- Settles O16: RAM.WR is a bounds-checked write of RAM, and the frame of the buffer is RAM's. -/
theorem ramWriteStoresBytes : Obligations.RamWriteStoresBytes := by
  unfold Obligations.RamWriteStoresBytes
  intro offset v s hs hv hwf
  have hexec : exec (.ramWr offset v) s = .next (deliver (ramWrite offset v s)) :=
    transaction_of_accepted _ hs (mt List.length_eq_zero_iff.mp hv)
  rw [hexec, ramWrite]
  refine ⟨fun hin => ?_, fun hout => ?_⟩
  · obtain ⟨ram, hstore, hsize, hstored, hkept⟩ := Buffer.store_inside hwf hin v
    exact ⟨ram, by rw [hstore]; rfl, hsize, hstored, hkept⟩
  · rw [Buffer.store_outside hout]
    rfl

/-- Settles O19: the byte stored at its own offset is what a one-byte read there returns. -/
theorem ramReadAfterWrite : Obligations.RamReadAfterWrite := by
  unfold Obligations.RamReadAfterWrite
  intro offset v s t i b hwf hwrite hin haddr hb
  obtain ⟨hs, -, rfl⟩ := transaction_next hwrite
  obtain ⟨ram, hstore, hsize, hstored, -⟩ := Buffer.store_inside hwf (Nat.lt_of_le_of_lt (Nat.le_add_right _ i) hin) v
  obtain ⟨hi, -⟩ := List.getElem?_eq_some_iff.mp hb
  have hbyte : ram.byte (offset.toNat + i) = b := Option.some.inj ((hstored i hi hin).symm.trans hb)
  have hoff : (offset + BitVec.ofNat 32 i).toNat = offset.toNat + i := by
    rw [BitVec.toNat_add, BitVec.toNat_ofNat]
    omega
  rw [ramWrite, hstore]
  refine (transaction_of_accepted _ hs one_ne_zero).trans ?_
  have hload := Buffer.load_one (hsize.symm ▸ hin) (.accessViolation (offset + BitVec.ofNat 32 i))
  rw [hbyte, ← hoff] at hload
  exact congrArg (fun x => Host.Outcome.next (deliver (_, x))) hload

/-! ## The Mirror -/

theorem foldOffset_eq {offset period folded : Addr} (h : folded.toNat = offset.toNat % period.toNat) :
    foldOffset offset period = folded :=
  BitVec.eq_of_toNat_eq ((BitVec.toNat_umod ..).trans h.symm)

/-- Settles O21: `devRead` and `devWrite` of a Mirror are the inner device's at the reduced offset. -/
theorem mirrorFoldsOffset : Obligations.MirrorFoldsOffset := by
  unfold Obligations.MirrorFoldsOffset
  intro period offset folded inner s hs hp hd hfold
  obtain rfl := foldOffset_eq hfold
  have hwf := mirror_wf hp hd
  exact ⟨fun n hn => onDevice_transaction _ hwf hs hn,
    fun v hv => onDevice_transaction _ hwf hs (mt List.length_eq_zero_iff.mp hv)⟩

/-! ## Reads -/

/-- Settles O42: what a read leaves, and its answer. -/
theorem readsChangeOnlyPhaseAndLog : Obligations.ReadsChangeOnlyPhaseAndLog := by
  unfold Obligations.ReadsChangeOnlyPhaseAndLog
  intro i s t hi h
  obtain ⟨s', x, ⟨p, rs, rfl, hp⟩, rfl⟩ := read_next hi h
  exact ⟨p, rs, x, rfl, hp⟩

/-! ## CHECKSUM -/

/-- The big-endian word of two bytes, as a number (R7). -/
theorem be16_toNat (b0 b1 : Byte) : (be16 b0 b1).toNat = b0.toNat * 256 + b1.toNat := toNat_append_8_8 b0 b1

/-- The sum of the words of a run of memory, modulo 0x10000 (R62, R219). -/
theorem wordSum_slice_toNat (m : Memory) (a n : Nat) :
    (wordSum (Memory.slice m a n)).toNat = ((List.range (n / 2)).map fun k =>
      (Memory.byte m (a + 2 * k)).toNat * 256 + (Memory.byte m (a + 2 * k + 1)).toNat).sum % 0x10000 := by
  induction n using Nat.twoStepInduction generalizing a with
  | zero => rfl
  | one => rfl
  | more n ih _ =>
    have hshift (k : Nat) : a + 2 * (k + 1) = a + 1 + 1 + 2 * k := by omega
    rw [Memory.slice, Memory.slice, wordSum, BitVec.toNat_add, be16_toNat, ih (a + 1 + 1), Nat.add_mod_mod,
      Nat.add_div_right n two_pos, List.range_succ_eq_map, List.map_cons, List.sum_cons, List.map_map]
    simp only [Function.comp_def, Nat.succ_eq_add_one, hshift, Nat.mul_zero, Nat.add_zero]

theorem storedChecksum_of_size {s : State} (h : 0x190 ≤ s.rom.size) :
    storedChecksum s = some (be16 (s.rom.byte 0x18E) (s.rom.byte 0x18F)) := by
  simp [storedChecksum, headerBytes, h, Memory.slice, be16Of, Buffer.byte]

/-- Settles O54: the model's sum of words is the sum of the numbers they write, and words are equal when their numbers are. -/
theorem checksumComparesWordSum : Obligations.ChecksumComparesWordSum := by
  unfold Obligations.ChecksumComparesWordSum
  intro s h
  have hexec : exec .checksum s = .next (s.respond
      (checksumResponse (be16 (s.rom.byte 0x18E) (s.rom.byte 0x18F)) s.rom)) :=
    answer_eq_next_iff.mpr ⟨_, by rw [storedChecksum_of_size h]; rfl, rfl⟩
  rw [hexec]
  simp only [checksumResponse, summedBytes, ← BitVec.toNat_inj, wordSum_slice_toNat, be16_toNat]
  rfl

end Sys2Proof.Machine
end

section
/-! PROOFS, family 30_encoding: the decoder on what the encoder gives and on every control word, a two-byte write as one
logical write, and the pseudo-operations of R86 through the bus. -/

namespace Sys2Proof.Machine

/-! ## Decoding what was encoded -/

/-- A form of an admitted operation decodes to it. -/
theorem decode_of_raw_wf {p : Bool} {r : Request} {i : Instr} (hraw : rawInstr p r = .ok i) (hi : i.wf = true) :
    decode p r = .ok i := by
  have hc : i.check = none := by simpa [Instr.wf] using hi
  simp only [decode, hraw, hc]

/-- Settles O2: the encoded form stands for the operation, and the decoder adds only the check, which an admitted one passes. -/
theorem decodeOfEncode : Obligations.DecodeOfEncode := by
  unfold Obligations.DecodeOfEncode
  exact fun i hi => decode_of_raw_wf (rawInstr_encode i) hi

/-- Settles O1: the words are those the encoder gives to the operations. -/
theorem sampleWordsDecode : Obligations.SampleWordsDecode := by
  unfold Obligations.SampleWordsDecode
  exact ⟨decodeOfEncode (.ctrlRegset 0#6 0xAB#8) rfl, decodeOfEncode (.ctrlRegset 23#6 0xFF#8) rfl,
    decodeOfEncode (.ctrlAddr1Cd00 0x1234#14) rfl, decodeOfEncode (.ctrlAddr1Cd01 0x3FFF#14) rfl,
    decodeOfEncode (.ctrlAddr1Cd11 0#14) rfl, decodeOfEncode (.ctrlAddr2 0x80#8 0b1010#4 0b10#2 0b11#2) rfl,
    decodeOfEncode (.vdpStatus 1#1) rfl, decodeOfEncode (.ctrlWr 0#1 0x40#8 0x00#8) rfl,
    decodeOfEncode (.busWr 0xC00004#32 [0x80#8, 0xAB#8]) rfl⟩

/-! ## Control words -/

/-- Two neighbouring fields of a bit vector are one field. -/
theorem extractLsb'_append_extractLsb' {w : Nat} (x : BitVec w) (start n m : Nat) :
    x.extractLsb' (start + n) m ++ x.extractLsb' start n = x.extractLsb' start (m + n) := by
  rw [BitVec.extractLsb'_append_extractLsb'_eq_extractLsb' rfl]

/-- A word is its two fields of R77. -/
theorem word_eq_addr1_fields (w : Half) : (w.extractLsb' 14 2 ++ w.extractLsb' 0 14 : BitVec 16) = w :=
  (extractLsb'_append_extractLsb' w 0 14 2).trans BitVec.extractLsb'_eq_self

theorem word_eq_regset_fields (w : Half) :
    (w.extractLsb' 14 2 ++ w.extractLsb' 8 6 ++ w.extractLsb' 0 8 : BitVec 16) = w := by
  rw [extractLsb'_append_extractLsb' w 8 6 2]
  exact (extractLsb'_append_extractLsb' w 0 8 8).trans BitVec.extractLsb'_eq_self

theorem word_eq_addr2_fields (w : Half) :
    (w.extractLsb' 8 8 ++ w.extractLsb' 4 4 ++ w.extractLsb' 2 2 ++ w.extractLsb' 0 2 : BitVec 16) = w := by
  rw [extractLsb'_append_extractLsb' w 4 4 8, extractLsb'_append_extractLsb' w 2 2 12]
  exact (extractLsb'_append_extractLsb' w 0 2 14).trans BitVec.extractLsb'_eq_self

/-- In pending every word is CW-A2 (R78). -/
theorem decodeCtrlWord_pending (w : Half) :
    decodeCtrlWord true w =
      .ctrlAddr2 (w.extractLsb' 8 8) (w.extractLsb' 4 4) (w.extractLsb' 2 2) (w.extractLsb' 0 2) := rfl

/-- In idle the pattern 10 selects CW-REG (R76). -/
theorem decodeCtrlWord_idle_regset {w : Half} (h : w.extractLsb' 14 2 = 0b10#2) :
    decodeCtrlWord false w = .ctrlRegset (w.extractLsb' 8 6) (w.extractLsb' 0 8) := by
  simp [decodeCtrlWord, h]

/-- In idle the other three values of the top bits select CW-A1, one command each (R77). -/
theorem decodeCtrlWord_idle_addr1 {w : Half} (h : w.extractLsb' 14 2 ≠ 0b10#2) :
    (w.extractLsb' 14 2 = 0b00#2 ∧ decodeCtrlWord false w = .ctrlAddr1Cd00 (w.extractLsb' 0 14)) ∨
    (w.extractLsb' 14 2 = 0b01#2 ∧ decodeCtrlWord false w = .ctrlAddr1Cd01 (w.extractLsb' 0 14)) ∨
    (w.extractLsb' 14 2 = 0b11#2 ∧ decodeCtrlWord false w = .ctrlAddr1Cd11 (w.extractLsb' 0 14)) := by
  have hcases : ∀ cd : BitVec 2, cd ≠ 0b10#2 → cd = 0b00#2 ∨ cd = 0b01#2 ∨ cd = 0b11#2 := by decide
  obtain h0 | h0 | h0 := hcases _ h <;> simp [decodeCtrlWord, h0]

/-- A control word always decodes (R170): no command of the control port has anything to check. -/
theorem decode_ctrlWord (p : Bool) (w : Half) : decode p (.ctrlWord w) = .ok (decodeCtrlWord p w) := by
  refine decode_of_raw_wf rfl ?_
  unfold decodeCtrlWord
  repeat' split
  all_goals rfl

/-- No bit of a control word is lost in decoding, and the phase is remembered by the command (R76 to R78). -/
theorem encode_decodeCtrlWord (p : Bool) (w : Half) :
    encode (decodeCtrlWord p w) = .ctrlWord w ∧ phaseOf (decodeCtrlWord p w) = p := by
  cases p with
  | true => exact ⟨congrArg Request.ctrlWord (word_eq_addr2_fields w), rfl⟩
  | false =>
    by_cases hreg : w.extractLsb' 14 2 = 0b10#2
    · rw [decodeCtrlWord_idle_regset hreg]
      exact ⟨congrArg Request.ctrlWord (hreg ▸ word_eq_regset_fields w), rfl⟩
    · obtain ⟨hcd, e⟩ | ⟨hcd, e⟩ | ⟨hcd, e⟩ := decodeCtrlWord_idle_addr1 hreg <;> rw [e] <;>
        exact ⟨congrArg Request.ctrlWord (hcd ▸ word_eq_addr1_fields w), rfl⟩

/-- Settles O3: a control word always decodes, and its fields put together again are the word. -/
theorem encodeOfDecodedControlWord : Obligations.EncodeOfDecodedControlWord := by
  unfold Obligations.EncodeOfDecodedControlWord
  intro pending w i h
  obtain rfl : decodeCtrlWord pending w = i := Except.ok.inj ((decode_ctrlWord pending w).symm.trans h)
  exact encode_decodeCtrlWord pending w

/-- In idle a word with other top bits than 10 runs phase 1 on its two fields (R77, R172). -/
theorem exec_decodeCtrlWord_addr1 {w : Half} (h : w.extractLsb' 14 2 ≠ 0b10#2) (s : State) :
    exec (decodeCtrlWord false w) s = command s (s.vdp.addr1 (w.extractLsb' 14 2) (w.extractLsb' 0 14), none) := by
  obtain ⟨hcd, e⟩ | ⟨hcd, e⟩ | ⟨hcd, e⟩ := decodeCtrlWord_idle_addr1 h <;> rw [e, hcd] <;> rfl

/-- A field of a bit vector as a number. -/
theorem toNat_extractLsb' {w : Nat} (x : BitVec w) (start len : Nat) :
    (x.extractLsb' start len).toNat = x.toNat / 2 ^ start % 2 ^ len := by
  rw [BitVec.extractLsb'_toNat, Nat.shiftRight_eq_div_pow]

/-! ### The field writes as numbers -/

theorem codePhase1_toNat_mod (code : Half) (cd : BitVec 2) : (codePhase1 code cd).toNat % 2 ^ 2 = cd.toNat := by
  simpa [toNat_extractLsb'] using congrArg BitVec.toNat (codePhase1_low code cd)

theorem addressPhase1_toNat_mod (address : Half) (lo : BitVec 14) :
    (addressPhase1 address lo).toNat % 2 ^ 14 = lo.toNat := by
  simpa [toNat_extractLsb'] using congrArg BitVec.toNat (addressPhase1_low address lo)

/-- Settles O4: the decoder selects by the top two bits; phase 1 then stores the two fields of the word in the low bits of the
registers. -/
theorem idleControlWordFormats : Obligations.IdleControlWordFormats := by
  unfold Obligations.IdleControlWordFormats
  intro w s hs hidle
  rw [hidle, decode_ctrlWord]
  refine ⟨fun hreg => ?_, fun haddr => ?_⟩
  · exact ⟨_, _, congrArg Except.ok (decodeCtrlWord_idle_regset hreg), toNat_extractLsb' w 8 6, by simp⟩
  · refine ⟨_, _, rfl, (exec_decodeCtrlWord_addr1 haddr s).trans (command_of_accepted _ hs), ?_, ?_⟩
    · have htop : w.toNat / 2 ^ 14 < 2 ^ 2 := by omega
      exact (codePhase1_toNat_mod _ _).trans ((toNat_extractLsb' w 14 2).trans (Nat.mod_eq_of_lt htop))
    · exact (addressPhase1_toNat_mod _ _).trans (by simp)

/-! ## A two-byte write -/

/-- A two-byte write is its one logical write; the count is 2 unless that fails (R154, R155). -/
theorem Vdp.write_pair (offset : Addr) (b0 b1 : Byte) (v : Vdp) :
    v.write offset [b0, b1] =
      ((v.write16 offset.toNat b0 b1).1,
        ⟨if (v.write16 offset.toNat b0 b1).2 = none then 2 else 0, [], (v.write16 offset.toNat b0 b1).2⟩) := by
  simp only [Vdp.write, Vdp.writeFrom, Nat.add_zero]
  obtain ⟨v', _ | e⟩ := v.write16 offset.toNat b0 b1 <;> rfl

/-- Settles O30: both operations leave the VDP and the error of the one logical write. -/
theorem twoByteWriteIsLogicalWrite : Obligations.TwoByteWriteIsLogicalWrite := by
  unfold Obligations.TwoByteWriteIsLogicalWrite
  intro offset b0 b1 s hs
  refine ⟨(s.vdp.write16 offset.toNat b0 b1).1, (s.vdp.write16 offset.toNat b0 b1).2, ?word, ?pair⟩
  case word =>
    refine (command_of_accepted (s.vdp.write16 offset.toNat b0 b1) hs).trans ?_
    cases (s.vdp.write16 offset.toNat b0 b1).2 <;> rfl
  case pair =>
    refine (transaction_of_accepted (vdpWrite offset [b0, b1] s) hs (Nat.succ_ne_zero 1)).trans ?_
    rw [vdpWrite, Vdp.write_pair]
    rfl

/-! ## The VDP on the bus -/

section
variable {base last offset : Addr} {s : State} (hs : s.accepts) (htable : TableOk s.table)
  (hm : (⟨base, last, .vdp⟩ : Mapping) ∈ s.table) (hin : base.toNat + offset.toNat ≤ last.toNat)
include hs htable hm hin

/-- A bus read inside the VDP's range is the VDP's own read at the offset from its base (R104). -/
theorem exec_busRd_of_vdp {n : Nat} (hn : n ≠ 0) :
    exec (.busRd (base + offset) n) s = .next (deliver (vdpRead offset n s)) := by
  have hoffset : base.toNat + offset.toNat = (base + offset).toNat := by bv_omega
  refine (transaction_of_accepted _ hs hn).trans ?_
  rw [busRead_of_mapped htable hm (by bv_omega) (by bv_omega) hoffset]
  rfl

/-- A bus write inside the VDP's range is the VDP's own write at the offset from its base (R105). -/
theorem exec_busWr_of_vdp {v : List Byte} (hv : v ≠ []) :
    exec (.busWr (base + offset) v) s = .next (deliver (vdpWrite offset v s)) := by
  have hoffset : base.toNat + offset.toNat = (base + offset).toNat := by bv_omega
  refine (transaction_of_accepted _ hs (mt List.length_eq_zero_iff.mp hv)).trans ?_
  rw [busWrite_of_mapped htable hm (by bv_omega) (by bv_omega) hoffset]
  rfl

end

/-! ### Writes at the control port -/

/-- A two-byte write at the control port is one control write, which never fails (R155, R170). -/
theorem Vdp.write_control_pair (b0 b1 : Byte) (v : Vdp) : v.write 4#32 [b0, b1] = (v.ctrlWrite b0 b1, Xfer.done 2) := rfl

/-- A four-byte write at the control port is two control writes, at the offsets 4 and 6 (R158). -/
theorem Vdp.write_control_quad (b0 b1 b2 b3 : Byte) (v : Vdp) :
    v.write 4#32 [b0, b1, b2, b3] = ((v.ctrlWrite b0 b1).ctrlWrite b2 b3, Xfer.done 4) := rfl

theorem isRegisterSelect_append (cd : BitVec 2) (x : BitVec 6) :
    isRegisterSelect (cd ++ x : BitVec 8) = (cd == 0b10#2) := by
  rw [isRegisterSelect, show (cd ++ x : BitVec 8).extractLsb' 6 2 = cd from BitVec.extractLsb'_append_eq_left]

/-- A control write of the register-select pattern, from idle (R76, R170). -/
theorem Vdp.ctrlWrite_regset {v : Vdp} (hidle : v.writePending = false) (index : BitVec 6) (value : Byte) :
    v.ctrlWrite (0b10#2 ++ index : BitVec 8) value = v.regset index value := by
  have hindex : (0b10#2 ++ index : BitVec 8).extractLsb' 0 6 = index := BitVec.extractLsb'_append_eq_right
  simp [Vdp.ctrlWrite, hidle, isRegisterSelect_append, hindex]

/-- A control write of another pattern, from idle (R77, R170). -/
theorem Vdp.ctrlWrite_addr1 {v : Vdp} (hidle : v.writePending = false) {cd : BitVec 2} (hcd : cd ≠ 0b10#2)
    (x : BitVec 6) (b1 : Byte) : v.ctrlWrite (cd ++ x : BitVec 8) b1 = v.addr1 cd (x ++ b1) := by
  have hcd' : (cd ++ x : BitVec 8).extractLsb' 6 2 = cd := BitVec.extractLsb'_append_eq_left
  have hx : (cd ++ x : BitVec 8).extractLsb' 0 6 = x := BitVec.extractLsb'_append_eq_right
  simp [Vdp.ctrlWrite, hidle, isRegisterSelect_append, hcd, hcd', hx]

/-- A control write in pending takes two fields of its second byte (R78, R170). -/
theorem Vdp.ctrlWrite_addr2 {v : Vdp} (hpending : v.writePending = true) (b0 : Byte) (cdHi : BitVec 4)
    (y hi : BitVec 2) : v.ctrlWrite b0 (cdHi ++ y ++ hi : BitVec 8) = v.addr2 cdHi hi := by
  have hcdHi : (cdHi ++ y ++ hi : BitVec 8).extractLsb' 4 4 = cdHi :=
    (BitVec.extractLsb'_append_eq_of_le (by decide)).trans BitVec.extractLsb'_append_eq_left
  have hhi : (cdHi ++ y ++ hi : BitVec 8).extractLsb' 0 2 = hi := BitVec.extractLsb'_append_eq_right
  simp [Vdp.ctrlWrite, hpending, hcdHi, hhi]

/-! ### A complete address set -/

/-- `code_reg` after both phases: its low six bits are the code, the others are kept (R79; D14, D15). -/
theorem codePhases_toNat (code : Half) (c : BitVec 6) :
    (codePhase2 (codePhase1 code (c.extractLsb' 0 2)) (c.extractLsb' 2 4)).toNat =
      code.toNat / 2 ^ 6 * 2 ^ 6 + c.toNat := by
  have hlow := codePhase1_toNat_mod code (c.extractLsb' 0 2)
  have htop := congrArg BitVec.toNat (codePhase1_top code (c.extractLsb' 0 2))
  rw [codePhase2, toNat_append_10_4_2, htop]
  simp only [toNat_extractLsb'] at hlow ⊢
  omega

/-- `address_reg` after both phases is the address (R79; D14, D15). -/
theorem addressPhases_eq (address a : Half) :
    addressPhase2 (addressPhase1 address (a.extractLsb' 0 14)) (a.extractLsb' 14 2) = a := by
  rw [addressPhase2, addressPhase1_low]
  exact word_eq_addr1_fields a

/-- The four bytes of a complete address set, from idle (R79, R86). -/
theorem Vdp.write_setAddr {v : Vdp} (hidle : v.writePending = false) {c : BitVec 6} (hc : c.extractLsb' 0 2 ≠ 0b10#2)
    (a : Half) :
    v.write 4#32 [(c.extractLsb' 0 2 ++ a.extractLsb' 8 6 : BitVec 8), a.extractLsb' 0 8, 0x00#8,
        (c.extractLsb' 2 4 ++ 0b00#2 ++ a.extractLsb' 14 2 : BitVec 8)] =
      ({ v with
          codeReg := codePhase2 (codePhase1 v.codeReg (c.extractLsb' 0 2)) (c.extractLsb' 2 4)
          addressReg := a },
        ⟨4, [], none⟩) := by
  have hlo : (a.extractLsb' 8 6 ++ a.extractLsb' 0 8 : BitVec 14) = a.extractLsb' 0 14 :=
    extractLsb'_append_extractLsb' a 0 8 6
  rw [Vdp.write_control_quad, Vdp.ctrlWrite_addr1 hidle hc, hlo, Vdp.ctrlWrite_addr2 rfl]
  simp only [Vdp.addr1, Vdp.addr2, addressPhases_eq, hidle, Xfer.done]

/-- Settles O36: the bus hands the four bytes to the control port, which goes through both phases. -/
theorem addressSetSelectsCodeAndAddress : Obligations.AddressSetSelectsCodeAndAddress := by
  unfold Obligations.AddressSetSelectsCodeAndAddress
  intro base c a s last hs htable hin hm hidle hc
  have hcode := codePhases_toNat s.vdp.codeReg c
  have hlt : c.toNat < 2 ^ 6 := c.isLt
  refine ⟨codePhase2 (codePhase1 s.vdp.codeReg (c.extractLsb' 0 2)) (c.extractLsb' 2 4), ?_, by omega, by omega⟩
  refine (exec_busWr_of_vdp (offset := 4#32) hs htable hm hin (List.cons_ne_nil _ _)).trans ?_
  rw [vdpWrite, Vdp.write_setAddr hidle hc]
  rfl

/-! ### A word at the data port -/

/-- A two-byte write at the data port is one data write (R155, R156). -/
theorem Vdp.write_data_pair (b0 b1 : Byte) (v : Vdp) :
    v.write 0#32 [b0, b1] =
      ((v.dataWrite b0 b1).1, ⟨if (v.dataWrite b0 b1).2 = none then 2 else 0, [], (v.dataWrite b0 b1).2⟩) :=
  Vdp.write_pair 0#32 b0 b1 v

/-- `code_reg AND 0x000E` picks the bits 3 to 1 (R81). -/
theorem vramSelected_eq (code : Half) : vramSelected code = (code.toNat / 2 % 8 == 0) := by
  have hhalf : (code.toNat &&& 14) / 2 = code.toNat / 2 % 8 := by
    rw [Nat.and_div_two]
    exact Nat.and_two_pow_sub_one_eq_mod _ 3
  have heven : (code.toNat &&& 14) % 2 = 0 := by
    rw [Nat.and_mod_two_pow (n := 1)]
    exact Nat.and_zero _
  rw [Bool.eq_iff_iff]
  simp only [vramSelected, beq_iff_eq, ← BitVec.toNat_inj, BitVec.toNat_and]
  change code.toNat &&& 14 = 0 ↔ _
  omega

/-- In a VRAM of its full size the word store never fails: the two bytes stand at the address and the next, the others are
kept (R194, D17). -/
theorem Vdp.vramWrite16_stores {v : Vdp} (hwf : v.vram.wf) (hsize : v.vram.size = vramSize) (a : Half) (b0 b1 : Byte) :
    ∃ vram : Buffer, v.vramWrite16 a b0 b1 = ({ v with vram := vram }, none) ∧
      vram.byte a.toNat = b0 ∧ vram.byte (a.toNat + 1) = b1 ∧
      ∀ k, k ≠ a.toNat → k ≠ a.toNat + 1 → vram.byte k = v.vram.byte k := by
  have hbyte (k : Nat) := Memory.byte_putAll hwf.1 a.toNat [b0, b1] k
  refine ⟨_, Vdp.vramWrite16_ok a b0 b1 v hsize, ?_, ?_, fun k h0 h1 => ?_⟩
  · exact (hbyte _).trans (by simp)
  · exact (hbyte _).trans (by simp)
  · refine (hbyte k).trans ?_
    split
    · rw [List.getElem?_eq_none (show 2 ≤ k - a.toNat by omega)]
      rfl
    · rfl

/-- A data write in a mode that stores to VRAM (R191, R192). -/
theorem Vdp.dataWrite_stores {v : Vdp} (hwf : v.vram.wf) (hsize : v.vram.size = vramSize)
    (hw : v.codeReg.toNat % 2 = 1) (hv : v.codeReg.toNat / 2 % 8 = 0) (b0 b1 : Byte) :
    ∃ vram : Buffer, v.dataWrite b0 b1 = ({ v with writePending := false, vram := vram }, none) ∧
      vram.byte v.addressReg.toNat = b0 ∧ vram.byte (v.addressReg.toNat + 1) = b1 ∧
      ∀ k, k ≠ v.addressReg.toNat → k ≠ v.addressReg.toNat + 1 → vram.byte k = v.vram.byte k := by
  obtain ⟨vram, hstore, hbytes⟩ :=
    Vdp.vramWrite16_stores (v := { v with writePending := false }) hwf hsize v.addressReg b0 b1
  refine ⟨vram, ?_, hbytes⟩
  simp only [Vdp.dataWrite, writeSelected_eq, vramSelected_eq, hw, hv, beq_self_eq_true, if_true, hstore]

/-! ### The pseudo-operations -/

/-- Settles O37: each expansion is one access of the VDP at its base or at its control port. -/
theorem pseudoOperationsExpand : Obligations.PseudoOperationsExpand := by
  unfold Obligations.PseudoOperationsExpand
  intro base last s hs htable hin hm
  refine ⟨fun i v hi hidle => ?setReg, fun a hidle => ?vramWrite, ?abort, fun w hwf hsize hcode => ?put⟩
  case setReg =>
    refine (exec_busWr_of_vdp (offset := 4#32) hs htable hm hin (List.cons_ne_nil _ _)).trans ?_
    rw [vdpWrite, Vdp.write_control_pair, Vdp.ctrlWrite_regset hidle, Vdp.regset, dif_pos hi]
    rfl
  case vramWrite =>
    exact addressSetSelectsCodeAndAddress base 0x01#6 a s last hs htable hin hm hidle (by decide)
  case abort => exact exec_busRd_of_vdp (offset := 4#32) hs htable hm hin (by decide)
  case put =>
    obtain ⟨vram, hstore, hhi, hlo, hkept⟩ :=
      Vdp.dataWrite_stores hwf hsize (by omega) (by omega) (w.extractLsb' 8 8) (w.extractLsb' 0 8)
    have hbase : base.toNat + (0#32).toNat ≤ last.toNat := Nat.le_of_add_right_le hin
    have hexec := exec_busWr_of_vdp hs htable hm hbase (v := bytes16 w) (List.cons_ne_nil _ _)
    refine ⟨vram, ?_, ?_, ?_, hkept⟩
    · rw [BitVec.add_zero] at hexec
      refine hexec.trans ?_
      rw [vdpWrite, bytes16, Vdp.write_data_pair, hstore]
      rfl
    · rw [hhi, toNat_extractLsb']
      omega
    · rw [hlo]
      simp

end Sys2Proof.Machine
end

section
/-! PROOFS, family 40_bus_mapper: the frame of the operations that serve the devices, the lookup, MAP's disjointness test, and what
a RangeOverlap stops. -/

namespace Sys2Proof.Machine

/-! ## The frame of an operation that is no set-up -/

theorem writeFrame_of_leaves {s s' : State} (h : ReadLeaves s s') :
    ∃ ram rom vdp rs, s' = writeFrame s ram rom vdp rs := by
  obtain ⟨p, rs, rfl, -⟩ := h
  exact ⟨s.ram, s.rom, { s.vdp with writePending := p }, rs, rfl⟩

/-- `t` is `s` but for the contents of the devices, the trace log and the answer. -/
def OnlyServed (s t : State) : Prop :=
  ∃ ram rom vdp rs r, t = (writeFrame s ram rom vdp rs).respond r

theorem OnlyServed.respond (s : State) (r : Response) : OnlyServed s (s.respond r) :=
  ⟨s.ram, s.rom, s.vdp, [], r, by rw [writeFrame_self]⟩

theorem OnlyServed.of_frame {s s' : State} (h : ∃ ram rom vdp rs, s' = writeFrame s ram rom vdp rs) (r : Response) :
    OnlyServed s (s'.respond r) := by
  obtain ⟨ram, rom, vdp, rs, rfl⟩ := h
  exact ⟨ram, rom, vdp, rs, r, rfl⟩

theorem OnlyServed.transaction {s t : State} {n : Nat} {r : State × Xfer}
    (hr : ∃ ram rom vdp rs, r.1 = writeFrame s ram rom vdp rs) (h : transaction s n r = .next t) : OnlyServed s t := by
  obtain ⟨-, -, rfl⟩ := transaction_next h
  exact .of_frame hr _

theorem OnlyServed.command {s t : State} {r : Vdp × Option Err} (h : command s r = .next t) : OnlyServed s t := by
  obtain ⟨-, rfl⟩ := command_next h
  exact .of_frame ⟨s.ram, s.rom, r.1, [], by simp [writeFrame, State.withVdp]⟩ _

/-- An operation that is neither set-up nor SYS.RUN changes nothing but the devices, the trace log and the answer. -/
theorem exec_onlyServed {i : Instr} {s t : State} (hi : isSetup i = false) (hrun : i ≠ .sysRun)
    (h : exec i s = .next t) : OnlyServed s t := by
  by_cases hread : isRead i = true
  · obtain ⟨s', x, hl, rfl⟩ := read_next hread h
    exact .of_frame (writeFrame_of_leaves hl) _
  by_cases hsoft : isSoftware i = true
  · obtain ⟨r, rfl⟩ := software_next hsoft h
    exact .respond s r
  cases i <;> simp only [isSetup, isRead, isSoftware, not_true_eq_false, reduceCtorEq] at hi hread hsoft
  case sysRun => exact absurd rfl hrun
  case busWr addr bytes => exact .transaction (busWrite_frame addr bytes s) h
  case ramWr offset bytes => exact .transaction (devWrite_frame .ram offset bytes s) h
  case romWr offset bytes => exact .transaction (devWrite_frame .rom offset bytes s) h
  case stubWr kind offset bytes => exact .transaction (devWrite_frame (.stub kind) offset bytes s) h
  case vdpWr offset bytes => exact .transaction (devWrite_frame .vdp offset bytes s) h
  case mirWr | trcWr => exact .transaction (devWrite_frame _ _ _ s) (onDevice_next h).2
  all_goals exact .command h

theorem OnlyServed.inputs {s t : State} (h : OnlyServed s t) : t.inbox = s.inbox ∧ t.executor = s.executor := by
  obtain ⟨ram, rom, vdp, rs, r, rfl⟩ := h
  exact ⟨rfl, rfl⟩

theorem loadRom_inputs (data : List Byte) (s : State) :
    (loadRom data s).inbox = s.inbox ∧ (loadRom data s).executor = s.executor := by
  obtain ⟨-, e⟩ | ⟨table, s2, boot, rs, r, -, hl, -, -, e⟩ := loadRom_cases data s <;> rw [e]
  · exact ⟨rfl, rfl⟩
  · obtain ⟨p, rs', rfl, -⟩ := hl
    exact ⟨rfl, rfl⟩

/-- Settles O7: SYS.RUN serves without touching the queue, the set-ups by their own inversions, and every other operation only
serves. -/
theorem execLeavesInputs : Obligations.ExecLeavesInputs := by
  unfold Obligations.ExecLeavesInputs
  intro i s t h
  by_cases hrun : i = .sysRun
  · subst hrun
    exact ⟨(execSysRun_serves h).1.inbox, fun hne => absurd rfl hne⟩
  suffices hboth : t.inbox = s.inbox ∧ t.executor = s.executor from ⟨hboth.1, fun _ => hboth.2⟩
  by_cases hi : isSetup i = true
  · cases i <;> simp only [isSetup, Bool.false_eq_true] at hi
    case map =>
      obtain ⟨-, -, -, ⟨-, rfl⟩ | ⟨table, -, rfl⟩⟩ := execMap_next h <;> exact ⟨rfl, rfl⟩
    case sysConstruct =>
      obtain ⟨-, boot, r, rfl, -⟩ := execSysConstruct_next h
      exact ⟨rfl, rfl⟩
    case sysLoad data =>
      obtain ⟨-, rfl⟩ := execSysLoad_next h
      exact loadRom_inputs data s
  · exact (exec_onlyServed (by simpa using hi) hrun h).inputs

/-! ## The lookup -/

theorem mappingContains_iff {m : Mapping} {addr : Addr} :
    mappingContains m addr = true ↔ m.first ≤ addr ∧ addr ≤ m.last := by
  simp [mappingContains]

section
variable {s : State} {addr : Addr} (hnone : lookup s.table addr = none)
include hnone

theorem busRead_of_unmapped (n : Nat) : busRead addr n s = (s, Xfer.raise (.accessViolation addr) 0) := by
  simp only [busRead, hnone]

theorem busWrite_of_unmapped (v : List Byte) : busWrite addr v s = (s, Xfer.raise (.accessViolation addr) 0) := by
  simp only [busWrite, hnone]

end

/-- Settles O11: a well-formed table has no second mapping of the address; without one the access is the transaction that raises
AccessViolation. -/
theorem lookupDecidesAccess : Obligations.LookupDecidesAccess := by
  unfold Obligations.LookupDecidesAccess
  intro s addr hs htable
  refine ⟨fun m hm hfirst hlast => lookup_eq htable hm (mappingContains_iff.mpr ⟨hfirst, hlast⟩), fun hno => ?_⟩
  have hnone : lookup s.table addr = none :=
    lookup_none fun m hm => Bool.eq_false_iff.mpr fun hc => hno m hm (mappingContains_iff.mp hc)
  refine ⟨hnone, fun n hn => ?_, fun v hv => ?_⟩
  · show transaction s n (busRead addr n s) = _
    rw [busRead_of_unmapped hnone, transaction_of_accepted _ hs hn]
    rfl
  · show transaction s v.length (busWrite addr v s) = _
    rw [busWrite_of_unmapped hnone, transaction_of_accepted _ hs (mt List.length_eq_zero_iff.mp hv)]
    rfl

/-! ## MAP -/

theorem overlaps_eq_false_iff {m k : Mapping} : m.overlaps k = false ↔ k.last < m.first ∨ m.last < k.first := by
  simp [Mapping.overlaps, ← BitVec.not_le, Decidable.imp_iff_not_or]

/-- MAP's table step fails where the new range shares an address with one of the table (R102). -/
theorem mapRange_of_shared {table : List Mapping} {m k : Mapping} {a : Addr} (hk : k ∈ table)
    (hma : mappingContains m a = true) (hka : mappingContains k a = true) : mapRange table m = none := by
  obtain ⟨hnone, -⟩ | ⟨-, hdisjoint⟩ := mapRange_cases table m
  · exact hnone
  · exact absurd (overlaps_of_contains hma hka) (by simp [hdisjoint k hk])

/-- It appends a range that lies beside every one of the table (R102). -/
theorem mapRange_of_disjoint {table : List Mapping} {m : Mapping}
    (h : ∀ k ∈ table, k.last < m.first ∨ m.last < k.first) : mapRange table m = some (table ++ [m]) := by
  obtain ⟨-, k, hk, hmeets⟩ | ⟨hsome, -⟩ := mapRange_cases table m
  · exact absurd (overlaps_eq_false_iff.mpr (h k hk)) (by simp [hmeets])
  · exact hsome

section
variable {d : Device} {first last : Addr} {s : State} (hb : s.boot = .building)
include hb

theorem exec_map_of_building : exec (.map d first last) s = mapInto d first last s := if_pos hb

theorem exec_map_reversed (h : last < first) : exec (.map d first last) s = .refused (.illFormed .reversedRange) := by
  rw [exec_map_of_building hb, mapInto, if_pos h]

variable (hord : first ≤ last)
include hord

theorem exec_map_zeroPeriod (hd : d.wf = false) : exec (.map d first last) s = .refused (.illFormed .zeroPeriod) := by
  rw [exec_map_of_building hb, mapInto, if_neg (BitVec.not_lt.mpr hord), if_neg (by simp [hd])]

variable (hd : d.wf = true)
include hd

theorem exec_map_collides (hm : mapRange s.table ⟨first, last, d⟩ = none) :
    exec (.map d first last) s = .next ((s.withBoot .fatal).respond (.error .rangeOverlap)) := by
  rw [exec_map_of_building hb, mapInto, if_neg (BitVec.not_lt.mpr hord), if_pos hd, hm]

theorem exec_map_appends {table : List Mapping} (hm : mapRange s.table ⟨first, last, d⟩ = some table) :
    exec (.map d first last) s = .next ((s.under ⟨s.cfg, table⟩).respond .ok) := by
  rw [exec_map_of_building hb, mapInto, if_neg (BitVec.not_lt.mpr hord), if_pos hd, hm]

end

/-- Settles O13: the two checks of the range and its device, then the table step, which an address shared with a mapping decides. -/
theorem mapRegistersDisjointRange : Obligations.MapRegistersDisjointRange := by
  unfold Obligations.MapRegistersDisjointRange
  intro d first last s
  refine ⟨fun hb => ⟨exec_map_reversed hb, exec_map_zeroPeriod hb, fun hord hd => ⟨?meets, ?disjoint⟩⟩,
    fun hbuilt hfatal => ?built⟩
  case meets =>
    rintro ⟨m, hm, a, hfirst, hlast, hmfirst, hmlast⟩
    exact exec_map_collides hb hord hd
      (mapRange_of_shared hm (mappingContains_iff.mpr ⟨hfirst, hlast⟩) (mappingContains_iff.mpr ⟨hmfirst, hmlast⟩))
  case disjoint => exact fun hdisjoint => exec_map_appends hb hord hd (mapRange_of_disjoint hdisjoint)
  case built => exact (if_neg hbuilt).trans (if_neg hfatal)

/-! ## What stops an operation -/

/-- Where the gate of the transactions answers a fault, so does every operation behind it: all but the software and the set-up. -/
theorem exec_of_stopped {i : Instr} {s : State} {f : Fault} (hstop : ∀ r, accepted s r = .fault f)
    (hsoft : isSoftware i = false) (hsetup : isSetup i = false) : exec i s = .fault f := by
  cases i <;> simp only [isSoftware, isSetup, reduceCtorEq] at hsoft hsetup
  case mirRd | mirWr | trcRd | trcWr => exact congrArg (onDevice _) (hstop _)
  all_goals exact hstop _

theorem exec_of_fatal {i : Instr} {s : State} (hb : s.boot = .fatal) (hh : s.halted = false)
    (hsoft : isSoftware i = false) (hconstruct : ∀ c, i ≠ .sysConstruct c) : exec i s = .fault .startupFailed := by
  by_cases hsetup : isSetup i = true
  · cases i <;> simp only [isSetup, Bool.false_eq_true] at hsetup
    case map d first last =>
      show execMap d first last s = _
      rw [execMap, hb]
      rfl
    case sysConstruct c => exact absurd rfl (hconstruct c)
    case sysLoad data => exact if_pos hb
  · exact exec_of_stopped (accepted_fatal hh hb) hsoft (by simpa using hsetup)

/-! ## The reset vector raises no RangeOverlap -/

theorem Buffer.load_err (b : Buffer) (outside : Err) (off n : Nat) :
    (b.load outside off n).err = none ∨ (b.load outside off n).err = some outside := by
  obtain ⟨-, e⟩ | ⟨-, bytes, e, -⟩ := b.load_cases outside off n <;> simp [e]

theorem Vdp.read_err_ne_rangeOverlap (offset : Addr) (n : Nat) (v : Vdp) :
    (v.read offset n).2.err ≠ some .rangeOverlap := by
  unfold Vdp.read
  split
  · simp [Xfer.raise]
  · split <;> simp [Xfer.raise, Vdp.statusRead, Xfer.got]
  · simp [Xfer.raise]

theorem devRead_err_ne_rangeOverlap (d : Device) (offset : Addr) (n : Nat) (s : State) :
    (devRead d offset n s).2.err ≠ some .rangeOverlap := by
  induction d generalizing offset s with
  | ram => obtain e | e := s.ram.load_err (.accessViolation offset) offset.toNat n <;> simp [devRead, ramRead, e]
  | rom => obtain e | e := s.rom.load_err .endOfData offset.toNat n <;> simp [devRead, romRead, e]
  | vdp => exact s.vdp.read_err_ne_rangeOverlap offset n
  | stub kind => cases kind <;> simp [devRead, stubRead, Xfer.got]
  | mirror period inner ih => exact ih _ s
  | tracer label sink inner ih => exact ih offset _

/-- No access of the bus raises RangeOverlap (R255). -/
theorem busRead_err_ne_rangeOverlap (addr : Addr) (n : Nat) (s : State) :
    (busRead addr n s).2.err ≠ some .rangeOverlap := by
  unfold busRead
  cases lookup s.table addr with
  | none => simp [Xfer.raise]
  | some m => exact devRead_err_ne_rangeOverlap _ _ _ _

theorem vectorWord_ne_rangeOverlap {x : Xfer} (hx : x.err ≠ some .rangeOverlap) {r : Response}
    (h : vectorWord x = .error r) : r ≠ .error .rangeOverlap := by
  rintro rfl
  unfold vectorWord at h
  split at h
  next he => exact hx (by simpa [he] using h)
  next => split at h <;> simp at h

theorem resetVector_ne_rangeOverlap (s : State) : (resetVector s).2 ≠ .error (.error .rangeOverlap) := by
  have hword (addr : Addr) (s : State) {r : Response} (h : vectorWord (busRead addr 4 s).2 = .error r) :
      r ≠ .error .rangeOverlap :=
    vectorWord_ne_rangeOverlap (busRead_err_ne_rangeOverlap addr 4 s) h
  simp only [resetVector]
  split
  next he => exact fun h => hword _ _ he (Except.error.inj h)
  next =>
    split
    next he => exact fun h => hword _ _ he (Except.error.inj h)
    next => simp

/-! ## SYS.LOAD and ROM_WINDOW -/

/-- The state in which SYS.LOAD reads the reset vector: prepared, the new cartridge mapped, the halt ended (R236, R237). -/
def loadMapped (data : List Byte) (s : State) : State :=
  ((loadPrepared data s).under ⟨s.cfg, (loadPrepared data s).table ++ [romMapping s.cfg]⟩).withHalted false

/-- A window that is free but for an earlier cartridge takes the new one, once that is taken away (R236). -/
theorem mapRange_romMapping_of_free {data : List Byte} {s : State} (hfree : RomWindowFree s.table) :
    mapRange (loadPrepared data s).table (romMapping s.cfg)
      = some ((loadPrepared data s).table ++ [romMapping s.cfg]) := by
  refine mapRange_of_disjoint fun k hk => .inr ?_
  obtain ⟨hk, hnot⟩ := List.mem_filter.mp hk
  obtain ⟨hfirst, hlast⟩ | habove := hfree k hk
  · simp [atRomWindow, hfirst, hlast] at hnot
  · exact habove

/-- What SYS.LOAD leaves where ROM_WINDOW is free: the two reads of the reset vector decide (R237, D22). -/
theorem loadRom_of_free {data : List Byte} {s : State} (hfree : RomWindowFree s.table) :
    (∃ r, (resetVector (loadMapped data s)).2 = .error r ∧
      loadRom data s = ((resetVector (loadMapped data s)).1.withBoot .failed).respond r) ∨
    ∃ sp pc, (resetVector (loadMapped data s)).2 = .ok (sp, pc) ∧
      loadRom data s = (((resetVector (loadMapped data s)).1.withBoot (.loaded sp pc)).trace
        (lifecycleLines s.cfg)).respond .ok := by
  simp only [loadRom, mapRange_romMapping_of_free hfree]
  rcases hr : resetVector (loadMapped data s) with ⟨s2, r | ⟨sp, pc⟩⟩ <;> rw [loadMapped] at hr
  · exact .inl ⟨r, rfl, by rw [hr]⟩
  · exact .inr ⟨sp, pc, rfl, by rw [hr]⟩

/-- ROM_WINDOW begins at address 0, so a range that begins in it shares its own first address with it (R231, R236). -/
theorem loadRom_of_collision {data : List Byte} {s : State} {m : Mapping} (hm : m ∈ s.table) (hord : m.first ≤ m.last)
    (hother : ¬(m.first = romFirst ∧ m.last = romLast)) (hmeets : m.first ≤ romLast) :
    loadRom data s = ((loadPrepared data s).withBoot .fatal).respond (.error .rangeOverlap) := by
  have hnone : mapRange (loadPrepared data s).table (romMapping s.cfg) = none :=
    mapRange_of_shared ((mem_loadPrepared_table hother).mpr hm) (a := m.first)
      (mappingContains_iff.mpr ⟨BitVec.le_def.mpr (Nat.zero_le _), hmeets⟩) (mappingContains_iff.mpr ⟨BitVec.le_refl _, hord⟩)
  simp only [loadRom, hnone]

theorem exec_sysLoad_of_not_fatal {data : List Byte} {s : State} (hb : s.boot ≠ .fatal) :
    exec (.sysLoad data) s = .next (loadRom data s) := if_neg hb

/-- Settles O60: a range that begins in ROM_WINDOW collides with the cartridge, a fatal System stops at its gate, and where the
window is free only the reset vector can fail, which raises no RangeOverlap. -/
theorem rangeOverlapIsFatal : Obligations.RangeOverlapIsFatal := by
  unfold Obligations.RangeOverlapIsFatal
  refine ⟨fun s data m hb hm hord hother hmeets => ?_, fun i s => exec_of_fatal, fun s t data hfree h => ?_⟩
  · refine ⟨Buffer.ofBytes data, ?_, rfl, Buffer.ofBytes_byte data⟩
    rw [exec_sysLoad_of_not_fatal hb, loadRom_of_collision hm hord hother hmeets]
    rfl
  · obtain ⟨-, rfl⟩ := execSysLoad_next h
    obtain ⟨r, hr, e⟩ | ⟨sp, pc, -, e⟩ := loadRom_of_free (data := data) hfree <;> rw [e]
    · refine ⟨?_, Boot.noConfusion⟩
      rintro rfl
      exact resetVector_ne_rangeOverlap _ hr
    · exact ⟨Response.noConfusion, Boot.noConfusion⟩

end Sys2Proof.Machine
end

section
/-! PROOFS, family 41_storage_devices: the patch of the ROM, the Mirror over RAM, the Tracer, the stubs. -/

namespace Sys2Proof.Machine

/-! ## The ROM -/

/-- Settles O18: ROM.WR is a bounds-checked write of the ROM's data, and the frame of the buffer is the ROM's. -/
theorem romWritePatchesBytes : Obligations.RomWritePatchesBytes := by
  unfold Obligations.RomWritePatchesBytes
  intro offset v s hs hv hwf
  have hexec : exec (.romWr offset v) s = .next (deliver (romWrite offset v s)) :=
    transaction_of_accepted _ hs (mt List.length_eq_zero_iff.mp hv)
  rw [hexec, romWrite]
  refine ⟨fun hin => ?_, fun hout => ?_⟩
  · obtain ⟨rom, hstore, hsize, hstored, hkept⟩ := Buffer.store_inside hwf hin v
    exact ⟨rom, by rw [hstore]; rfl, hsize, hstored, hkept⟩
  · rw [Buffer.store_outside hout]
    rfl

/-! ## The Mirror over RAM -/

/-- A read inside the buffer of as many bytes as a list has, each at its place, answers the list (R60). -/
theorem Buffer.load_of_bytes {b : Buffer} {off : Nat} {v : List Byte} (hv : v ≠ []) (hfits : off + v.length ≤ b.size)
    (hbytes : ∀ i, i < v.length → v[i]? = some (b.byte (off + i))) (outside : Err) :
    b.load outside off v.length = ⟨v.length, v, none⟩ := by
  have hpos : 0 < v.length := List.length_pos_iff.mpr hv
  have hmin : min v.length (b.size - off) = v.length := by omega
  obtain ⟨hout, -⟩ | ⟨-, bytes, hload, hlen, hread⟩ := b.load_cases outside off v.length
  · omega
  rw [hmin] at hload hlen hread
  have heq : bytes = v := List.ext_getElem? fun i => by
    by_cases hi : i < v.length
    · rw [hread i hi, hbytes i hi]
    · rw [List.getElem?_eq_none (by omega), List.getElem?_eq_none (by omega)]
  rw [hload, heq]

/-- What fits into the buffer is stored whole, and a read of the same length at the same offset answers it (R44, R46). -/
theorem Buffer.load_after_store {b : Buffer} (hb : b.wf) {off : Nat} {v : List Byte} (hv : v ≠ [])
    (hfits : off + v.length ≤ b.size) :
    ∃ b' : Buffer, b.store off v = (b', ⟨v.length, [], none⟩) ∧
      ∀ outside, b'.load outside off v.length = ⟨v.length, v, none⟩ := by
  have hpos : 0 < v.length := List.length_pos_iff.mpr hv
  obtain ⟨b', hstore, hsize, hstored, -⟩ := Buffer.store_inside hb (by omega : off < b.size) v
  have hmin : min v.length (b.size - off) = v.length := by omega
  rw [hmin, if_neg (by omega)] at hstore
  exact ⟨b', hstore, Buffer.load_of_bytes hv (hsize ▸ hfits) fun i hi => hstored i hi (by omega)⟩

/-- The window of the Mirror of R133: RAM of 64 KiB at 0xE00000..0xFFFFFF. -/
def ramWindow : Mapping := ⟨0xE00000#32, 0xFFFFFF#32, .mirror 0x10000#32 .ram⟩

theorem ramWindow_first_add_offset {addr : Addr} (h : ramWindow.first.toNat ≤ addr.toNat) :
    ramWindow.first.toNat + (addr - ramWindow.first).toNat = addr.toNat := by
  bv_omega

/-- The window begins at a multiple of the period, so the place in RAM is the address itself modulo the period (R132). -/
theorem foldOffset_sub_ramWindow_first {addr : Addr} (h : ramWindow.first.toNat ≤ addr.toNat) :
    foldOffset (addr - ramWindow.first) 0x10000#32 = foldOffset addr 0x10000#32 := by
  refine foldOffset_eq (?_ : _ = _ % 0x10000)
  have hadd : 0xE00000 + (addr - ramWindow.first).toNat = addr.toNat := ramWindow_first_add_offset h
  have hmod : (foldOffset addr 0x10000#32).toNat = addr.toNat % 0x10000 := BitVec.toNat_umod ..
  omega

section
variable {s : State} {addr : Addr} (hs : s.accepts) (htable : TableOk s.table) (hm : ramWindow ∈ s.table)
  (hfirst : ramWindow.first.toNat ≤ addr.toNat) (hlast : addr.toNat ≤ ramWindow.last.toNat)
include hs htable hm hfirst hlast

/-- A bus read in the window is RAM's own at the address modulo the period (R132, R133). -/
theorem exec_busRd_of_ramWindow {n : Nat} (hn : n ≠ 0) :
    exec (.busRd addr n) s = .next (deliver (ramRead (foldOffset addr 0x10000#32) n s)) := by
  refine (transaction_of_accepted _ hs hn).trans ?_
  rw [busRead_of_mapped htable hm (BitVec.le_def.mpr hfirst) (BitVec.le_def.mpr hlast)
    (ramWindow_first_add_offset hfirst), ← foldOffset_sub_ramWindow_first hfirst]
  rfl

/-- A bus write in the window is RAM's own at the address modulo the period (R132, R133). -/
theorem exec_busWr_of_ramWindow {v : List Byte} (hv : v ≠ []) :
    exec (.busWr addr v) s = .next (deliver (ramWrite (foldOffset addr 0x10000#32) v s)) := by
  refine (transaction_of_accepted _ hs (mt List.length_eq_zero_iff.mp hv)).trans ?_
  rw [busWrite_of_mapped htable hm (BitVec.le_def.mpr hfirst) (BitVec.le_def.mpr hlast)
    (ramWindow_first_add_offset hfirst), ← foldOffset_sub_ramWindow_first hfirst]
  rfl

end

/-- Settles O22: all images of the address are one place in RAM, where four bytes at a multiple of 4 fit and are read back. -/
theorem mirrorImagesAreOneRam : Obligations.MirrorImagesAreOneRam := by
  unfold Obligations.MirrorImagesAreOneRam
  intro s addr image b0 b1 b2 b3 hs htable hwf hsize hm hfirst hlast halign hifirst hilast himage
  have hplace (a : Addr) : (foldOffset a 0x10000#32).toNat = a.toNat % 0x10000 := BitVec.toNat_umod ..
  have hfits : (foldOffset addr 0x10000#32).toNat + 4 ≤ s.ram.size := by
    rw [hplace, hsize]
    omega
  obtain ⟨ram, hstore, hload⟩ := Buffer.load_after_store hwf (List.cons_ne_nil b0 [b1, b2, b3]) hfits
  have hwrite : exec (.busWr addr [b0, b1, b2, b3]) s = .next (deliver (s.withRam ram, ⟨4, [], none⟩)) := by
    rw [exec_busWr_of_ramWindow hs htable hm hfirst hlast (List.cons_ne_nil b0 _), ramWrite, hstore]
    rfl
  refine ⟨_, hwrite, rfl, ?_⟩
  generalize ht : deliver (s.withRam ram, ⟨4, [], none⟩) = t
  have haccepts : t.accepts := ht ▸ hs
  have htableEq : t.table = s.table := ht ▸ rfl
  have hram : t.ram = ram := ht ▸ rfl
  have hread (a : Addr) (ha : 0xE00000 ≤ a.toNat) (ha' : a.toNat ≤ 0xFFFFFF)
      (hmod : a.toNat % 0x10000 = addr.toNat % 0x10000) :
      exec (.busRd a 4) t = .next (deliver (t, ⟨4, [b0, b1, b2, b3], none⟩)) := by
    have hfold : foldOffset a 0x10000#32 = foldOffset addr 0x10000#32 :=
      foldOffset_eq ((hplace addr).trans hmod.symm)
    rw [exec_busRd_of_ramWindow haccepts (htableEq ▸ htable) (htableEq ▸ hm) ha ha' four_ne_zero, ramRead, hram, hfold]
    exact congrArg (fun x => Host.Outcome.next (deliver (t, x))) (hload _)
  have hdocument : (BitVec.ofNat 32 (0xFF0000 + (addr.toNat - 0xE00000) % 0x10000)).toNat
      = 0xFF0000 + (addr.toNat - 0xE00000) % 0x10000 := by
    rw [BitVec.toNat_ofNat]
    omega
  exact ⟨hread image hifirst hilast himage, hread _ (by omega) (by omega) (by omega)⟩

/-! ## Tracers -/

/-- Settles O23: a Tracer is its inner device on the state with the record, if it has a sink. -/
theorem tracerLogsThenForwards : Obligations.TracerLogsThenForwards := by
  unfold Obligations.TracerLogsThenForwards
  intro label inner offset s hs hd
  refine ⟨fun n hn => ?_, fun v hv => ?_⟩
  · exact ⟨onDevice_transaction _ hd hs hn, onDevice_transaction _ hd hs hn⟩
  · have hn : v.length ≠ 0 := mt List.length_eq_zero_iff.mp hv
    exact ⟨onDevice_transaction _ hd hs hn, onDevice_transaction _ hd hs hn⟩

theorem State.untraced_traceIf (sink : Bool) (r : TraceRecord) (s : State) (log : List TraceRecord) :
    (traceIf sink r s).untraced log = s.untraced log := by
  cases sink <;> rfl

/-- With its Tracers off, a device gives the same result and leaves the same state outside the trace log (R136). -/
theorem devRead_withoutTracers (d : Device) (offset : Addr) (n : Nat) (s : State) (log : List TraceRecord) :
    devRead (withoutTracers d) offset n (s.untraced log) =
      ((devRead d offset n s).1.untraced log, (devRead d offset n s).2) := by
  induction d generalizing offset s with
  | ram | rom | vdp | stub => rfl
  | mirror period inner ih => exact ih _ s
  | tracer label sink inner ih => exact State.untraced_traceIf sink _ s log ▸ ih offset (traceIf sink _ s)

theorem devWrite_withoutTracers (d : Device) (offset : Addr) (v : List Byte) (s : State) (log : List TraceRecord) :
    devWrite (withoutTracers d) offset v (s.untraced log) =
      ((devWrite d offset v s).1.untraced log, (devWrite d offset v s).2) := by
  induction d generalizing offset s with
  | ram | rom | vdp | stub => rfl
  | mirror period inner ih => exact ih _ s
  | tracer label sink inner ih => exact State.untraced_traceIf sink _ s log ▸ ih offset (traceIf sink _ s)

/-- Taking Tracers off moves no range, so the lookup finds the same mapping, its device without Tracers (R103). -/
theorem lookup_untraced (s : State) (log : List TraceRecord) (addr : Addr) :
    lookup (s.untraced log).table addr =
      (lookup s.table addr).map fun m => { m with device := withoutTracers m.device } :=
  List.find?_map ..

theorem busRead_untraced (addr : Addr) (n : Nat) (s : State) (log : List TraceRecord) :
    busRead addr n (s.untraced log) = ((busRead addr n s).1.untraced log, (busRead addr n s).2) := by
  simp only [busRead, lookup_untraced]
  cases lookup s.table addr with
  | none => rfl
  | some m => exact devRead_withoutTracers m.device (offsetIn m addr) n s log

theorem busWrite_untraced (addr : Addr) (v : List Byte) (s : State) (log : List TraceRecord) :
    busWrite addr v (s.untraced log) = ((busWrite addr v s).1.untraced log, (busWrite addr v s).2) := by
  simp only [busWrite, lookup_untraced]
  cases lookup s.table addr with
  | none => rfl
  | some m => exact devWrite_withoutTracers m.device (offsetIn m addr) v s log

/-- Settles O24: the access without Tracers is, in both components, the one with them. -/
theorem tracersAreInvisible : Obligations.TracersAreInvisible := by
  unfold Obligations.TracersAreInvisible
  refine fun s log => ⟨fun d offset => ⟨fun n => ?_, fun v => ?_⟩, fun addr => ⟨fun n => ?_, fun v => ?_⟩⟩
  · rw [devRead_withoutTracers]
    exact ⟨rfl, rfl⟩
  · rw [devWrite_withoutTracers]
    exact ⟨rfl, rfl⟩
  · rw [busRead_untraced]
    exact ⟨rfl, rfl⟩
  · rw [busWrite_untraced]
    exact ⟨rfl, rfl⟩

/-! ## The stubs -/

/-- A list of copies as the answer of a read: its count is the number of copies (R8). -/
theorem Xfer.got_replicate (n : Nat) (k : Byte) : Xfer.got (List.replicate n k) = ⟨n, List.replicate n k, none⟩ := by
  simp [Xfer.got]

/-- Settles O20: a stub's read is the copies of its byte, its write a count. -/
theorem stubsAnswerEverything : Obligations.StubsAnswerEverything := by
  unfold Obligations.StubsAnswerEverything
  refine fun k offset s hs => ⟨fun n hn => ?_, fun kind v hv => ?_⟩
  · have hread (kind : Stub) : exec (.stubRd kind offset n) s = .next (deliver (s, stubRead kind n)) :=
      transaction_of_accepted _ hs hn
    rw [hread, hread, stubRead, stubRead, Xfer.got_replicate, Xfer.got_replicate]
    exact ⟨rfl, rfl⟩
  · exact transaction_of_accepted _ hs (mt List.length_eq_zero_iff.mp hv)

end Sys2Proof.Machine
end

section
/-! PROOFS, family 42_vdp_ports: the port an offset selects, the reads, the status read, one logical write, and a
write of any length as its parts. -/

namespace Sys2Proof.Machine

/-! ## The ports -/

theorem portOf_of_data {offset : Addr} (h : offset ∈ [0x00#32, 0x02#32]) : portOf offset.toNat = some .data := by
  obtain rfl | rfl : offset = 0x00#32 ∨ offset = 0x02#32 := by simpa using h
  all_goals rfl

theorem portOf_of_control {offset : Addr} (h : offset ∈ [0x04#32, 0x06#32]) : portOf offset.toNat = some .control :=
  portOf_eq_control_iff.mpr (by simpa [← BitVec.toNat_inj] using h)

theorem portOf_of_no_port {offset : Addr} (h : offset ∉ [0x00#32, 0x02#32, 0x04#32, 0x06#32]) :
    portOf offset.toNat = none :=
  portOf_eq_none_iff.mpr (by simpa [← BitVec.toNat_inj] using h)

/-! ## Reads -/

theorem exec_vdpRd_of_accepts {s : State} (hs : s.accepts) {n : Nat} (hn : n ≠ 0) (offset : Addr) :
    exec (.vdpRd offset n) s = .next (deliver (vdpRead offset n s)) :=
  transaction_of_accepted _ hs hn

/-- The 2-byte read of a control port is the status read (R152). -/
theorem Vdp.read_eq_of_control {offset : Addr} (h : portOf offset.toNat = some .control) (v : Vdp) :
    v.read offset 2 = v.statusRead := by
  simp [Vdp.read, h]

/-- A read at no port fails with its offset, whatever its length (R151, D11). -/
theorem Vdp.read_eq_of_no_port {offset : Addr} (h : portOf offset.toNat = none) (n : Nat) (v : Vdp) :
    v.read offset n = (v, Xfer.raise (.accessViolation offset) 0) := by
  simp [Vdp.read, h]

/-- A read of a port that is not the status read is not specified (R153). -/
theorem Vdp.read_eq_of_not_specified {offset : Addr} {n : Nat}
    (h : portOf offset.toNat = some .data ∨ (portOf offset.toNat = some .control ∧ n ≠ 2)) (v : Vdp) :
    v.read offset n = (v, Xfer.raise (.unsupportedOperation .readNotSpecified) 0) := by
  obtain hport | ⟨hport, hn⟩ := h
  · simp [Vdp.read, hport]
  · simp [Vdp.read, hport, hn]

/-- Settles O26: by the port, each such read leaves the VDP as it was and returns its error. -/
theorem otherVdpReadsFail : Obligations.OtherVdpReadsFail := by
  unfold Obligations.OtherVdpReadsFail
  intro offset n s hs hn
  rw [exec_vdpRd_of_accepts hs hn, vdpRead]
  refine ⟨fun hoff => ?noPort, fun hport => ?notSpecified⟩
  case noPort =>
    rw [Vdp.read_eq_of_no_port (portOf_of_no_port hoff)]
    rfl
  case notSpecified =>
    rw [Vdp.read_eq_of_not_specified (hport.imp portOf_of_data (And.imp_left portOf_of_control))]
    rfl

/-- The bytes of a word as numbers (R7). -/
theorem bytes16_eq_ofNat (w : Half) : bytes16 w = [BitVec.ofNat 8 (w.toNat / 2 ^ 8), BitVec.ofNat 8 w.toNat] := by
  simp [bytes16, BitVec.extractLsb', Nat.shiftRight_eq_div_pow]

/-- What the status read returns and leaves (R152). -/
theorem Vdp.statusRead_eq (v : Vdp) :
    v.statusRead =
      ({ v with writePending := false },
        ⟨2, [BitVec.ofNat 8 (v.status.toNat / 2 ^ 8), BitVec.ofNat 8 v.status.toNat], none⟩) := by
  rw [Vdp.statusRead, bytes16_eq_ofNat]
  rfl

/-- The 2-byte read at a control port and the status read are one operation, whichever port the latter names (R74, R152). -/
theorem exec_vdpRd_of_control {offset : Addr} (h : offset ∈ [0x04#32, 0x06#32]) (p : BitVec 1) (s : State) :
    exec (.vdpRd offset 2) s = exec (.vdpStatus p) s :=
  congrArg (fun r : Vdp × Xfer => transaction s 2 (s.withVdp r.1, r.2))
    (Vdp.read_eq_of_control (portOf_of_control h) s.vdp)

/-- Settles O25: the own form and the two control ports run one and the same status read. -/
theorem statusReadClearsPhase : Obligations.StatusReadClearsPhase := by
  unfold Obligations.StatusReadClearsPhase
  intro s hs t
  have hstatus (p : BitVec 1) : exec (.vdpStatus p) s = .next t := by
    refine (transaction_of_accepted _ hs two_ne_zero).trans ?_
    rw [Vdp.statusRead_eq]
    rfl
  exact ⟨hstatus, (exec_vdpRd_of_control (by simp) 0#1 s).trans (hstatus _),
    (exec_vdpRd_of_control (by simp) 0#1 s).trans (hstatus _)⟩

/-! ## One logical write -/

theorem Vdp.write16_eq_of_data {off : Nat} (h : portOf off = some .data) (b0 b1 : Byte) (v : Vdp) :
    v.write16 off b0 b1 = v.dataWrite b0 b1 := by
  simp [Vdp.write16, h]

theorem Vdp.write16_eq_of_control {off : Nat} (h : portOf off = some .control) (b0 b1 : Byte) (v : Vdp) :
    v.write16 off b0 b1 = (v.ctrlWrite b0 b1, none) := by
  simp [Vdp.write16, h]

theorem Vdp.write16_eq_of_no_port {offset : Addr} (h : portOf offset.toNat = none) (b0 b1 : Byte) (v : Vdp) :
    v.write16 offset.toNat b0 b1 = (v, some (.accessViolation offset)) := by
  simp [Vdp.write16, h]

/-- Settles O31: by the port of the offset, the logical write is the data write, the control write or the error. -/
theorem logicalWriteSelectsPort : Obligations.LogicalWriteSelectsPort := by
  unfold Obligations.LogicalWriteSelectsPort
  intro offset b0 b1 s hs
  refine ⟨fun hoff => ?data, fun hoff p => ?control, fun hoff => ?noPort⟩
  case data => exact congrArg (command s) (Vdp.write16_eq_of_data (portOf_of_data hoff) b0 b1 s.vdp)
  case control =>
    have hctrl : exec (.vdpWr16 offset b0 b1) s = exec (.ctrlWr p b0 b1) s :=
      congrArg (command s) (Vdp.write16_eq_of_control (portOf_of_control hoff) b0 b1 s.vdp)
    exact ⟨hctrl, s.vdp.ctrlWrite b0 b1, hctrl.trans (command_of_accepted _ hs)⟩
  case noPort =>
    refine (command_of_accepted (s.vdp.write16 offset.toNat b0 b1) hs).trans ?_
    rw [Vdp.write16_eq_of_no_port (portOf_of_no_port hoff)]
    rfl

/-! ## Writes of any length -/

theorem exec_vdpWr_of_accepts {s : State} (hs : s.accepts) {bytes : List Byte} (hb : bytes ≠ []) (offset : Addr) :
    exec (.vdpWr offset bytes) s = .next (deliver (vdpWrite offset bytes s)) :=
  transaction_of_accepted _ hs (mt List.length_eq_zero_iff.mp hb)

/-- Settles O28: the write is accepted and delivers its count. -/
theorem vdpWriteCompletes : Obligations.VdpWriteCompletes := by
  unfold Obligations.VdpWriteCompletes
  intro offset bytes s hs hb
  obtain ⟨hbytes, hcount⟩ := Vdp.writeFrom_count offset.toNat 0 bytes s.vdp
  refine ⟨(s.vdp.write offset bytes).1, (s.vdp.write offset bytes).2, exec_vdpWr_of_accepts hs hb offset, hbytes,
    ?_⟩
  rw [Vdp.write]
  obtain ⟨herr, hall⟩ | ⟨e, herr, k, hpart, hk⟩ := hcount
  · exact ⟨fun _ => by omega, fun h => absurd herr h⟩
  · exact ⟨fun h => by simp [herr] at h, fun _ => by omega⟩

/-! ### A single byte -/

/-- A one-byte write is the logical write of the byte twice; the count is 1 unless that fails (R159). -/
theorem Vdp.write_byte (offset : Addr) (b : Byte) (v : Vdp) :
    v.write offset [b] =
      ((v.write16 offset.toNat b b).1,
        ⟨if (v.write16 offset.toNat b b).2 = none then 1 else 0, [], (v.write16 offset.toNat b b).2⟩) := by
  simp only [Vdp.write, Vdp.writeFrom, Nat.add_zero]
  obtain ⟨v', _ | e⟩ := v.write16 offset.toNat b b <;> rfl

/-- Settles O29: both writes are the one logical write of the byte twice; at the idle control port 0x80 twice is
a register set. -/
theorem byteWriteIsDuplicated : Obligations.ByteWriteIsDuplicated := by
  unfold Obligations.ByteWriteIsDuplicated
  intro offset b s hs
  have hexec (bytes : List Byte) (hb : bytes ≠ []) := exec_vdpWr_of_accepts hs hb offset
  refine ⟨⟨(s.vdp.write16 offset.toNat b b).1, (s.vdp.write16 offset.toNat b b).2, ?byte, ?pair⟩,
    fun hoff hidle => ?regset⟩
  case byte =>
    rw [hexec _ (List.cons_ne_nil _ _), vdpWrite, Vdp.write_byte]
    rfl
  case pair =>
    rw [hexec _ (List.cons_ne_nil _ _), vdpWrite, Vdp.write_pair]
    rfl
  case regset =>
    have hset : s.vdp.ctrlWrite 0x80#8 0x80#8 = s.vdp.regset 0#6 0x80#8 := Vdp.ctrlWrite_regset hidle 0#6 0x80#8
    rw [hexec _ (List.cons_ne_nil _ _), vdpWrite, Vdp.write_byte,
      Vdp.write16_eq_of_control (portOf_of_control hoff), hset]
    rfl

/-! ### The parts of a long write -/

/-- Writing on from `skipped` more bytes is writing from the offset they reach, with them added to the count. -/
theorem Vdp.writeFrom_skip (offset skipped consumed : Nat) (bytes : List Byte) (v : Vdp) :
    Vdp.writeFrom offset (skipped + consumed) bytes v =
      ((Vdp.writeFrom (offset + skipped) consumed bytes v).1,
        ⟨skipped + (Vdp.writeFrom (offset + skipped) consumed bytes v).2.count,
          (Vdp.writeFrom (offset + skipped) consumed bytes v).2.bytes,
          (Vdp.writeFrom (offset + skipped) consumed bytes v).2.err⟩) := by
  induction consumed, bytes, v using Vdp.writeFrom.induct (offset := offset + skipped) with
  | case1 => rfl
  | case2 consumed b v v' e he => simp [Vdp.writeFrom, ← Nat.add_assoc, he, Xfer.raise]
  | case3 consumed b v v' he => simp [Vdp.writeFrom, ← Nat.add_assoc, he, Xfer.done]
  | case4 consumed b0 b1 rest v v' e he => simp [Vdp.writeFrom, ← Nat.add_assoc, he, Xfer.raise]
  | case5 consumed b0 b1 rest v v' he ih => simpa only [Vdp.writeFrom, ← Nat.add_assoc, he] using ih

section
variable {offset : Addr} {xs : List Byte} {v : Vdp} (heven : xs.length % 2 = 0)
include heven

/-- A write whose even first part fails is that part (R155 (c)). -/
theorem Vdp.write_append_of_err (herr : (v.write offset xs).2.err ≠ none) (ys : List Byte) :
    v.write offset (xs ++ ys) = v.write offset xs := by
  rw [Vdp.write, Vdp.writeFrom_append _ _ _ _ _ heven]
  split
  next hxs => exact hxs.symm
  next hxs => simp [Vdp.write, hxs] at herr

/-- A write whose even first part succeeds goes on with the rest at the offset reached (R155 (b), R158). -/
theorem Vdp.write_append_of_ok (hok : (v.write offset xs).2.err = none) {rest : Addr}
    (hrest : offset.toNat + xs.length = rest.toNat) (ys : List Byte) :
    v.write offset (xs ++ ys) =
      (((v.write offset xs).1.write rest ys).1,
        ⟨xs.length + ((v.write offset xs).1.write rest ys).2.count, ((v.write offset xs).1.write rest ys).2.bytes,
          ((v.write offset xs).1.write rest ys).2.err⟩) := by
  rw [Vdp.write, Vdp.writeFrom_append _ _ _ _ _ heven]
  split
  next hxs => simp [Vdp.write, hxs] at hok
  next v' _ _ hxs =>
    simpa [Vdp.write, hxs, ← hrest] using Vdp.writeFrom_skip offset.toNat xs.length 0 ys v'

end

/-- Settles O27: the VDP's write of the whole is the failed first part, or the rest's write after it. -/
theorem vdpWriteIsItsParts : Obligations.VdpWriteIsItsParts := by
  unfold Obligations.VdpWriteIsItsParts
  intro offset rest xs ys s t x hs hxs hys heven hrest hexec hresp
  have hwhole := exec_vdpWr_of_accepts hs (List.append_ne_nil_of_left_ne_nil hxs ys) offset
  obtain rfl : deliver (vdpWrite offset xs s) = t := by
    simpa [exec_vdpWr_of_accepts hs hxs offset] using hexec
  obtain rfl : (s.vdp.write offset xs).2 = x := Response.transfer.inj hresp
  refine ⟨fun hok => ?ok, fun herr => ?err⟩
  case ok =>
    refine ⟨_, _, exec_vdpWr_of_accepts (s := deliver (vdpWrite offset xs s)) hs hys rest, rfl, ?_⟩
    rw [hwhole, vdpWrite, Vdp.write_append_of_ok heven hok hrest]
    rfl
  case err =>
    rw [hwhole, vdpWrite, Vdp.write_append_of_err heven herr]
    rfl

end Sys2Proof.Machine
end

section
/-! PROOFS, family 43_vdp_control: the fields of a control word by its bytes, the command a control write runs, the fields the two
phases write as numbers, and the source's two properties of the control port. -/

namespace Sys2Proof.Machine

/-! ## A control word by its bytes -/

section
variable (b0 b1 : Byte)

/-- A field inside the second byte of a word. -/
theorem extractLsb'_wordOf_low {start len : Nat} (h : start + len ≤ 8) :
    (wordOf b0 b1).extractLsb' start len = b1.extractLsb' start len :=
  BitVec.extractLsb'_append_eq_of_add_le h

/-- A field inside the first byte of a word. -/
theorem extractLsb'_wordOf_high {start : Nat} (h : 8 ≤ start) (len : Nat) :
    (wordOf b0 b1).extractLsb' start len = b0.extractLsb' (start - 8) len :=
  BitVec.extractLsb'_append_eq_of_le h

/-- The address field of CW-A1 lies across the two bytes (R77). -/
theorem extractLsb'_wordOf_address :
    (wordOf b0 b1).extractLsb' 0 14 = (b0.extractLsb' 0 6 ++ b1 : BitVec 14) := by
  rw [← extractLsb'_append_extractLsb' _ 0 8 6, extractLsb'_wordOf_high b0 b1 (by decide)]
  exact congrArg (fun b : Byte => (b0.extractLsb' 0 6 ++ b : BitVec 14)) (wordLo_wordOf b0 b1)

theorem toNat_append_extractLsb'_address :
    (b0.extractLsb' 0 6 ++ b1 : BitVec 14).toNat = b0.toNat % 2 ^ 6 * 2 ^ 8 + b1.toNat := by
  have hword : (wordOf b0 b1).toNat = b0.toNat * 2 ^ 8 + b1.toNat := toNat_append_8_8 b0 b1
  rw [← extractLsb'_wordOf_address, toNat_extractLsb', hword]
  omega

end

/-- The top two bits of a byte as a number. -/
theorem toNat_extractLsb'_top (b : Byte) : (b.extractLsb' 6 2).toNat = b.toNat / 2 ^ 6 := by
  rw [toNat_extractLsb']
  omega

theorem isRegisterSelect_iff {b0 : Byte} : isRegisterSelect b0 = true ↔ b0.toNat / 2 ^ 6 = 2 := by
  rw [isRegisterSelect, beq_iff_eq, ← BitVec.toNat_inj, toNat_extractLsb'_top]
  rfl

theorem isRegisterSelect_eq_false {b0 : Byte} (h : b0.toNat / 2 ^ 6 ≠ 2) : isRegisterSelect b0 = false :=
  Bool.eq_false_iff.mpr (mt isRegisterSelect_iff.mp h)

/-! ## The command of a control write -/

/-- In pending the control word is phase 2 (R78). -/
theorem decodeCtrlWord_wordOf_pending (b0 b1 : Byte) :
    ∃ x y, decodeCtrlWord true (wordOf b0 b1) = .ctrlAddr2 x (b1.extractLsb' 4 4) y (b1.extractLsb' 0 2) := by
  rw [decodeCtrlWord_pending, extractLsb'_wordOf_low b0 b1 (start := 4) (by decide),
    extractLsb'_wordOf_low b0 b1 (start := 0) (len := 2) (by decide)]
  exact ⟨_, _, rfl⟩

/-- In idle the register-select pattern of the first byte makes it a register set (R76). -/
theorem decodeCtrlWord_wordOf_regset {b0 : Byte} (h : isRegisterSelect b0 = true) (b1 : Byte) :
    decodeCtrlWord false (wordOf b0 b1) = .ctrlRegset (b0.extractLsb' 0 6) b1 := by
  have hsel : (wordOf b0 b1).extractLsb' 14 2 = 0b10#2 :=
    (extractLsb'_wordOf_high b0 b1 (by decide) 2).trans (beq_iff_eq.mp h)
  rw [decodeCtrlWord_idle_regset hsel, extractLsb'_wordOf_high b0 b1 (by decide)]
  exact congrArg (Instr.ctrlRegset _) (wordLo_wordOf b0 b1)

section
variable {b0 : Byte} (h : isRegisterSelect b0 = false) (b1 : Byte)
include h

theorem extractLsb'_wordOf_select_ne : (wordOf b0 b1).extractLsb' 14 2 ≠ 0b10#2 := by
  rw [extractLsb'_wordOf_high b0 b1 (by decide)]
  exact beq_eq_false_iff_ne.mp h

/-- In idle any other first byte makes it phase 1, on the two fields of the bytes (R77, R172). -/
theorem exec_decodeCtrlWord_wordOf_addr1 (s : State) :
    exec (decodeCtrlWord false (wordOf b0 b1)) s =
      command s (s.vdp.addr1 (b0.extractLsb' 6 2) (b0.extractLsb' 0 6 ++ b1), none) := by
  rw [exec_decodeCtrlWord_addr1 (extractLsb'_wordOf_select_ne h b1), extractLsb'_wordOf_high b0 b1 (by decide),
    extractLsb'_wordOf_address]

end

/-- A control write is the command its word decodes to in the current phase (R170). -/
theorem exec_ctrlWr_eq_decoded (p : BitVec 1) (b0 b1 : Byte) (s : State) :
    exec (.ctrlWr p b0 b1) s = exec (decodeCtrlWord s.vdp.writePending (wordOf b0 b1)) s := by
  show command s (s.vdp.ctrlWrite b0 b1, none) = _
  obtain ⟨hphase, e⟩ | ⟨hphase, hsel, e⟩ | ⟨hphase, hsel, e⟩ := s.vdp.ctrlWrite_cases b0 b1 <;> rw [hphase, e]
  · obtain ⟨x, y, hi⟩ := decodeCtrlWord_wordOf_pending b0 b1
    rw [hi]
    rfl
  · rw [decodeCtrlWord_wordOf_regset hsel]
    rfl
  · exact (exec_decodeCtrlWord_wordOf_addr1 hsel b1 s).symm

/-- Settles O32: the command is the decoded one, whose three selections are the decoder's. -/
theorem controlPortSelectsCommand : Obligations.ControlPortSelectsCommand := by
  unfold Obligations.ControlPortSelectsCommand
  intro p b0 b1 s hs
  refine ⟨⟨s.vdp.ctrlWrite b0 b1, command_of_accepted _ hs⟩,
    _, decode_ctrlWord _ _, exec_ctrlWr_eq_decoded p b0 b1 s, fun hpending => ?pending, fun hidle htop => ?regset,
    fun hidle htop => ?addr1⟩
  case pending => exact hpending ▸ ⟨_, _, _, _, decodeCtrlWord_pending _⟩
  case regset => exact hidle ▸ ⟨_, decodeCtrlWord_wordOf_regset (isRegisterSelect_iff.mpr htop) b1⟩
  case addr1 =>
    have hsel := extractLsb'_wordOf_select_ne (isRegisterSelect_eq_false htop) b1
    exact hidle ▸ ⟨_, (decodeCtrlWord_idle_addr1 hsel).imp And.right (.imp And.right And.right)⟩

/-! ## The field writes of the two phases -/

theorem codePhase1_toNat_div (code : Half) (cd : BitVec 2) :
    (codePhase1 code cd).toNat / 2 ^ 2 = code.toNat / 2 ^ 2 := by
  rw [codePhase1, toNat_append_14_2, toNat_extractLsb']
  omega

theorem addressPhase1_toNat_div (address : Half) (lo : BitVec 14) :
    (addressPhase1 address lo).toNat / 2 ^ 14 = address.toNat / 2 ^ 14 := by
  rw [addressPhase1, toNat_append_2_14, toNat_extractLsb']
  omega

/-- Phase 1 with any value of the code field (R172, D14). -/
theorem command_addr1_writes {s : State} (hs : s.accepts) (cd : BitVec 2) (lo : BitVec 14) :
    ∃ code address : Half,
      command s (s.vdp.addr1 cd lo, none) = .next { s with
        vdp := { s.vdp with codeReg := code, addressReg := address, writePending := true }
        response := .ok } ∧
      code.toNat % 2 ^ 2 = cd.toNat ∧ code.toNat / 2 ^ 2 = s.vdp.codeReg.toNat / 2 ^ 2 ∧
      address.toNat % 2 ^ 14 = lo.toNat ∧ address.toNat / 2 ^ 14 = s.vdp.addressReg.toNat / 2 ^ 14 :=
  ⟨_, _, command_of_accepted _ hs, codePhase1_toNat_mod _ cd, codePhase1_toNat_div _ cd, addressPhase1_toNat_mod _ lo,
    addressPhase1_toNat_div _ lo⟩

/-- Settles O34: the three commands are phase 1 with their own value of the code field. -/
theorem phaseOneWritesLowFields : Obligations.PhaseOneWritesLowFields := by
  unfold Obligations.PhaseOneWritesLowFields
  intro lo s hs
  exact ⟨command_addr1_writes hs 0b00#2 lo, command_addr1_writes hs 0b01#2 lo, command_addr1_writes hs 0b11#2 lo⟩

/-- `code_reg` after phase 2, with its top and its low bits as before (R173, D15). -/
theorem codePhase2_toNat (code : Half) (cdHi : BitVec 4) :
    (codePhase2 code cdHi).toNat =
      code.toNat / 2 ^ 6 * 2 ^ 6 + cdHi.toNat * 2 ^ 2 + code.toNat % 2 ^ 2 := by
  rw [codePhase2, toNat_append_10_4_2, toNat_extractLsb', toNat_extractLsb']
  omega

theorem codePhase2_toNat_mod (code : Half) (cdHi : BitVec 4) :
    (codePhase2 code cdHi).toNat % 2 ^ 2 = code.toNat % 2 ^ 2 := by
  rw [codePhase2_toNat]
  omega

/-- `address_reg` after phase 2, with its low bits as before (R173, D15). -/
theorem addressPhase2_toNat (address : Half) (hi : BitVec 2) :
    (addressPhase2 address hi).toNat = hi.toNat * 2 ^ 14 + address.toNat % 2 ^ 14 := by
  rw [addressPhase2, toNat_append_2_14, toNat_extractLsb', pow_zero, Nat.div_one]

/-- Settles O35: the two registers of phase 2 as numbers, with the fields inside their widths. -/
theorem phaseTwoWritesHighFields : Obligations.PhaseTwoWritesHighFields := by
  unfold Obligations.PhaseTwoWritesHighFields
  intro x cdHi y addrHi s hs
  have hcode := codePhase2_toNat s.vdp.codeReg cdHi
  have haddress := addressPhase2_toNat s.vdp.addressReg addrHi
  exact ⟨codePhase2 s.vdp.codeReg cdHi, addressPhase2 s.vdp.addressReg addrHi, command_of_accepted _ hs,
    codePhase2_toNat_mod _ _, by omega, by omega, by omega, by omega⟩

/-! ## The source's two properties -/

/-- A two-byte write at the control port leaves the VDP of one control write (R155, R170). -/
theorem exec_vdpWr_control_pair {s : State} (hs : s.accepts) (b0 b1 : Byte) :
    exec (.vdpWr 0x04#32 [b0, b1]) s =
      .next ((s.withVdp (s.vdp.ctrlWrite b0 b1)).respond (.transfer (Xfer.done 2))) :=
  exec_vdpWr_of_accepts hs (List.cons_ne_nil _ _) _

/-- From idle, a write whose first byte has not the register-select pattern is phase 1, with the fields of its two bytes (R170,
R172). -/
theorem Vdp.ctrlWrite_idle_fields {v : Vdp} (hidle : v.writePending = false) {b0 : Byte} (htop : b0.toNat / 2 ^ 6 ≠ 2)
    (b1 : Byte) :
    (v.ctrlWrite b0 b1).writePending = true ∧ (v.ctrlWrite b0 b1).codeReg.toNat % 2 ^ 2 = b0.toNat / 2 ^ 6 ∧
      (v.ctrlWrite b0 b1).addressReg.toNat % 2 ^ 14 = b0.toNat % 2 ^ 6 * 2 ^ 8 + b1.toNat := by
  have hwrite : v.ctrlWrite b0 b1 = v.addr1 (b0.extractLsb' 6 2) (b0.extractLsb' 0 6 ++ b1) := by
    simp [Vdp.ctrlWrite, hidle, isRegisterSelect_eq_false htop]
  rw [hwrite]
  exact ⟨rfl, (codePhase1_toNat_mod _ _).trans (toNat_extractLsb'_top b0),
    (addressPhase1_toNat_mod _ _).trans (toNat_append_extractLsb'_address b0 b1)⟩

/-- From idle, the words 0x4000 and 0x0000 are a complete address set with the code 000001 and the address 0 (R79, R177). -/
theorem Vdp.ctrlWrite_code1_address0 {v : Vdp} (hidle : v.writePending = false) :
    (v.ctrlWrite 0x40#8 0x00#8).ctrlWrite 0x00#8 0x00#8 =
      { v with codeReg := codePhase2 (codePhase1 v.codeReg 0b01#2) 0#4, addressReg := 0#16 } :=
  congrArg Prod.fst (Vdp.write_setAddr hidle (c := 0b000001#6) (by decide) 0#16)

/-- Settles O38: two control writes go through both phases, a register set touches no phase, and the status read leaves idle, from
where a control write is phase 1. -/
theorem controlPortPropertiesOfTheSource : Obligations.ControlPortPropertiesOfTheSource := by
  unfold Obligations.ControlPortPropertiesOfTheSource
  intro s hs
  refine ⟨fun hidle => ⟨?twoWrites, ?regset⟩, ?status⟩
  case twoWrites =>
    refine ⟨_, _, exec_vdpWr_control_pair hs _ _, exec_vdpWr_control_pair ?_ _ _, ?_⟩
    · exact hs
    show ((s.vdp.ctrlWrite 0x40#8 0x00#8).ctrlWrite 0x00#8 0x00#8).addressReg = 0#16 ∧
      ((s.vdp.ctrlWrite 0x40#8 0x00#8).ctrlWrite 0x00#8 0x00#8).codeReg.toNat % 2 ^ 2 = 1
    rw [Vdp.ctrlWrite_code1_address0 hidle]
    exact ⟨rfl, (codePhase2_toNat_mod _ _).trans (codePhase1_toNat_mod _ _)⟩
  case regset =>
    refine ⟨_, exec_vdpWr_control_pair hs _ _, ?_⟩
    show (s.vdp.ctrlWrite 0x80#8 0xAB#8).registers[0] = 0xAB#8 ∧
      (s.vdp.ctrlWrite 0x80#8 0xAB#8).writePending = s.vdp.writePending
    have hset : s.vdp.ctrlWrite 0x80#8 0xAB#8 = s.vdp.regset 0#6 0xAB#8 := Vdp.ctrlWrite_regset hidle 0#6 0xAB#8
    rw [hset]
    exact ⟨by simp [Vdp.regset], Vdp.regset_writePending ..⟩
  case status =>
    refine ⟨_, exec_vdpRd_of_accepts hs two_ne_zero _, rfl, fun b0 b1 htop =>
      ⟨_, exec_vdpWr_control_pair ?_ b0 b1, Vdp.ctrlWrite_idle_fields rfl htop b1⟩⟩
    exact hs

end Sys2Proof.Machine
end

section
/-! PROOFS, family 44_vdp_data_vram: the outcomes of a data-port write by the fields of its code, and the word store of VRAM. -/

namespace Sys2Proof.Machine

/-! ## The data port -/

/-- A code whose lowest bit is 0 selects no write: the mode is tested before anything is changed (R192, D16). -/
theorem Vdp.dataWrite_of_read_mode {v : Vdp} (hmode : v.codeReg.toNat % 2 = 0) (b0 b1 : Byte) :
    v.dataWrite b0 b1 = (v, some (.unsupportedOperation .operationMismatch)) :=
  if_neg (by simp [writeSelected_eq, hmode])

/-- A write code for a memory other than VRAM clears the phase and is refused (R192, D16). -/
theorem Vdp.dataWrite_of_other_target {v : Vdp} (hmode : v.codeReg.toNat % 2 = 1)
    (htarget : v.codeReg.toNat / 2 % 8 ≠ 0) (b0 b1 : Byte) :
    v.dataWrite b0 b1 = ({ v with writePending := false }, some (.unsupportedOperation .unsupportedTarget)) :=
  (if_pos (by simp [writeSelected_eq, hmode])).trans (if_neg (by simp [vramSelected_eq, htarget]))

/-- Settles O40: the mode, then the target decide the row of R192; a write that passes both tests is the word store at
`address_reg`. -/
theorem dataWriteOutcomes : Obligations.DataWriteOutcomes := by
  unfold Obligations.DataWriteOutcomes
  intro b0 b1 s hs hwf hsize
  have hexec : exec (.dataWr b0 b1) s = _ := command_of_accepted (s.vdp.dataWrite b0 b1) hs
  refine ⟨fun hmode => ?mismatch, fun hmode htarget => ?target, fun hmode htarget => ?stored⟩
  case mismatch => rw [hexec, Vdp.dataWrite_of_read_mode hmode]; rfl
  case target => rw [hexec, Vdp.dataWrite_of_other_target hmode htarget]; rfl
  case stored =>
    obtain ⟨vram, hstore, hbytes⟩ := Vdp.dataWrite_stores hwf hsize hmode htarget b0 b1
    refine ⟨vram, ?_, hbytes⟩
    rw [hexec, hstore]
    rfl

/-! ## The word store -/

/-- Settles O41: in a VRAM of its full size the command of the word store has no error. -/
theorem vramWordStore : Obligations.VramWordStore := by
  unfold Obligations.VramWordStore
  intro a b0 b1 s hs hwf hsize
  obtain ⟨vram, hstore, hbytes⟩ := Vdp.vramWrite16_stores hwf hsize a b0 b1
  refine ⟨vram, (command_of_accepted (s.vdp.vramWrite16 a b0 b1) hs).trans ?_, hbytes⟩
  rw [hstore]
  rfl

end Sys2Proof.Machine
end

section
/-! PROOFS, family 45_rom_header_software: the fields of the header and what a short ROM answers, SPACECOLLAPSE, REGIONS, and
CHECKSUM after a patch of one byte. -/

namespace Sys2Proof.Machine

/-! ## Reading a field -/

theorem headerBytes_of_size {first width : Nat} {s : State} (h : first + width ≤ s.rom.size) :
    headerBytes first width s = some (Memory.slice s.rom.cells first width) := if_pos h

theorem headerBytes_of_short {first width : Nat} {s : State} (h : s.rom.size < first + width) :
    headerBytes first width s = none := if_neg (Nat.not_le.mpr h)

/-- A function of the bytes of a field, on a ROM that holds them: the answer is its value at the `width` bytes from `first`
up (R212). -/
theorem answer_field_of_size {first width : Nat} {s : State} (h : first + width ≤ s.rom.size)
    (value : List Byte → Response) :
    ∃ b : List Byte, answer s ((headerBytes first width s).map value) = .next (s.respond (value b)) ∧ b.length = width ∧
      ∀ i, i < width → b[i]? = some (s.rom.byte (first + i)) :=
  ⟨_, by rw [headerBytes_of_size h]; rfl, Memory.slice_length .., Memory.slice_getElem? s.rom.cells first width⟩

/-- The big-endian word of four bytes, as a number (R7). -/
theorem be32_toNat (b0 b1 b2 b3 : Byte) : (be32 b0 b1 b2 b3).toNat =
    ((b0.toNat * 256 + b1.toNat) * 256 + b2.toNat) * 256 + b3.toNat := by
  have halves : (be32 b0 b1 b2 b3).toNat = (be16 b0 b1).toNat * 2 ^ 16 + (be16 b2 b3).toNat := by
    rw [← Nat.shiftLeft_eq, Nat.shiftLeft_add_eq_or_of_lt (be16 b2 b3).isLt]
    exact BitVec.toNat_append (be16 b0 b1) (be16 b2 b3)
  rw [halves, be16_toNat, be16_toNat]
  omega

/-- A field of a 32-bit word, on a ROM that holds it (R211). -/
theorem answer_word32Field_of_size {first : Nat} {s : State} (h : first + 4 ≤ s.rom.size) :
    ∃ w : BitVec 32, answer s (word32Field first s) = .next (s.respond (.word32 w)) ∧
      w.toNat = (((s.rom.byte first).toNat * 256 + (s.rom.byte (first + 1)).toNat) * 256
        + (s.rom.byte (first + 2)).toNat) * 256 + (s.rom.byte (first + 3)).toNat :=
  ⟨_, by rw [word32Field, headerBytes_of_size h]; rfl, be32_toNat ..⟩

/-- Settles O50: four collapsed fields, two plain ones, four words of 32 bits, and the checksum. -/
theorem headerFieldsAtTheirPlaces : Obligations.HeaderFieldsAtTheirPlaces := by
  unfold Obligations.HeaderFieldsAtTheirPlaces
  intro s
  have squeezed (first width : Nat) (h : first + width ≤ s.rom.size) :=
    answer_field_of_size h fun b => .text (collapse b)
  have text (first width : Nat) (h : first + width ≤ s.rom.size) := answer_field_of_size h .text
  have word (first : Nat) (h : first + 4 ≤ s.rom.size) := answer_word32Field_of_size h
  refine ⟨squeezed 0x100 16, squeezed 0x110 16, squeezed 0x120 48, squeezed 0x150 48, text 0x180 2, text 0x182 12,
    word 0x1A0, word 0x1A4, word 0x1A8, word 0x1AC, fun h => ?checksum⟩
  case checksum =>
    refine ⟨be16 (s.rom.byte 0x18E) (s.rom.byte 0x18F), ?_, be16_toNat ..⟩
    exact answer_eq_next_iff.mpr ⟨_, by rw [storedChecksum_of_size h]; rfl, rfl⟩

/-- A function of a field's bytes, on a ROM too short for the field (D25). -/
theorem answer_field_of_short {first width : Nat} {s : State} (h : s.rom.size < first + width)
    (value : List Byte → Response) : answer s ((headerBytes first width s).map value) = .refused .romTooShort := by
  rw [headerBytes_of_short h]
  rfl

/-- A function of the big-endian word in a field, on a ROM too short for the field (D25). -/
theorem answer_word_of_short {α : Type} {first width : Nat} {s : State} (h : s.rom.size < first + width)
    (word : List Byte → Option α) (value : α → Response) :
    answer s (((headerBytes first width s).bind word).map value) = .refused .romTooShort := by
  rw [headerBytes_of_short h]
  rfl

/-- Settles O56: each call of the list reads one field, as its bytes or as a word. -/
theorem shortRomIsRefused : Obligations.ShortRomIsRefused := by
  unfold Obligations.ShortRomIsRefused
  intro s
  have bytes (first width : Nat) (value) (h : s.rom.size < first + width) := answer_field_of_short h value
  have word {α : Type} (first width : Nat) (decode : _ → Option α) (value) (h : s.rom.size < first + width) :=
    answer_word_of_short h decode value
  simp only [List.forall_mem_cons, List.not_mem_nil, false_imp_iff, implies_true, and_true]
  exact ⟨bytes 0x100 16 _, bytes 0x110 16 _, bytes 0x120 48 _, bytes 0x150 48 _, bytes 0x180 2 _, bytes 0x182 12 _,
    word 0x18E 2 _ _, word 0x1A0 4 _ _, word 0x1A4 4 _ _, word 0x1A8 4 _ _, word 0x1AC 4 _ _, bytes 0x1F0 3 _,
    bytes 0x1F0 3 _, word 0x18E 2 _ _⟩

/-! ## SPACECOLLAPSE -/

theorem collapse_cons_of_dropped {b : Byte} {rest : List Byte} (h : b = 0x20#8 ∧ rest.head? = some 0x20#8) :
    collapse (b :: rest) = collapse rest := if_pos h

theorem collapse_cons_of_kept {b : Byte} {rest : List Byte} (h : ¬(b = 0x20#8 ∧ rest.head? = some 0x20#8)) :
    collapse (b :: rest) = b :: collapse rest := if_neg h

/-- What SPACECOLLAPSE puts at the place of byte `i`, if anything (R213). -/
def collapseAt (b : List Byte) (i : Nat) : Option Byte :=
  if b[i]? = some 0x20#8 ∧ b[i + 1]? = some 0x20#8 then none else b[i]?

theorem collapse_eq_filterMap (b : List Byte) : collapse b = (List.range b.length).filterMap (collapseAt b) := by
  induction b with
  | nil => rfl
  | cons b rest ih =>
    have tail : (List.range rest.length).filterMap (collapseAt (b :: rest) ∘ Nat.succ) = collapse rest := ih.symm
    rw [List.length_cons, List.range_succ_eq_map, List.filterMap_cons, List.filterMap_map, tail]
    by_cases h : b = 0x20#8 ∧ rest.head? = some 0x20#8
    · rw [collapse_cons_of_dropped h]
      simp [collapseAt, h.1, ← List.head?_eq_getElem?, h.2]
    · rw [collapse_cons_of_kept h]
      simp [collapseAt, ← List.head?_eq_getElem?, h]

/-- Settles O51: SPACECOLLAPSE byte by byte. -/
theorem spaceCollapseDropsByIndex : Obligations.SpaceCollapseDropsByIndex := by
  unfold Obligations.SpaceCollapseDropsByIndex
  exact fun b s => congrArg (fun c => Host.Outcome.next (s.respond (.text c))) (collapse_eq_filterMap b)

/-- A space is dropped only before another, so the first byte stays what it is. -/
theorem head?_collapse (b : List Byte) : (collapse b).head? = b.head? := by
  induction b with
  | nil => rfl
  | cons b rest ih =>
    by_cases h : b = 0x20#8 ∧ rest.head? = some 0x20#8
    · rw [collapse_cons_of_dropped h, ih, h.2, List.head?_cons, h.1]
    · rw [collapse_cons_of_kept h, List.head?_cons, List.head?_cons]

theorem collapse_getElem?_succ_ne_space (b : List Byte) (i : Nat) (hi : (collapse b)[i]? = some 0x20#8) :
    (collapse b)[i + 1]? ≠ some 0x20#8 := by
  induction b generalizing i with
  | nil => exact nofun
  | cons b rest ih =>
    by_cases h : b = 0x20#8 ∧ rest.head? = some 0x20#8
    · rw [collapse_cons_of_dropped h] at hi ⊢
      exact ih i hi
    · rw [collapse_cons_of_kept h] at hi ⊢
      cases i with
      | zero =>
        rw [List.getElem?_cons_succ, ← List.head?_eq_getElem?, head?_collapse]
        exact fun hnext => h ⟨Option.some.inj hi, hnext⟩
      | succ i => exact ih i hi

theorem collapse_filter_ne_space (b : List Byte) :
    (collapse b).filter (fun c => c != 0x20#8) = b.filter (fun c => c != 0x20#8) := by
  induction b with
  | nil => rfl
  | cons b rest ih =>
    by_cases h : b = 0x20#8 ∧ rest.head? = some 0x20#8
    · rw [collapse_cons_of_dropped h, ih, h.1]
      rfl
    · rw [collapse_cons_of_kept h, List.filter_cons, List.filter_cons, ih]

/-- Settles O52: no space is left before a space, and only spaces were dropped. -/
theorem spaceCollapseLeavesSingleSpaces : Obligations.SpaceCollapseLeavesSingleSpaces := by
  unfold Obligations.SpaceCollapseLeavesSingleSpaces
  exact fun b => ⟨collapse_getElem?_succ_ne_space b, collapse_filter_ne_space b⟩

/-! ## REGIONS -/

theorem regionNames_nil : regionNames [] = [] := rfl

theorem regionNames_cons (c : Byte) (b : List Byte) :
    regionNames (c :: b) = (regionOf c).toList ++ regionNames b := by
  rw [regionNames, List.filterMap_cons]
  cases regionOf c <;> rfl

theorem regionField_of_size {s : State} (h : 0x1F3 ≤ s.rom.size) :
    regionField s = some (.regions ((regionOf (s.rom.byte 0x1F0)).toList ++ (regionOf (s.rom.byte 0x1F1)).toList ++
      (regionOf (s.rom.byte 0x1F2)).toList)) := by
  rw [regionField, headerBytes_of_size h]
  simp [Memory.slice, regionNames_cons, regionNames_nil, Buffer.byte]

/-- Settles O53: the names of the three bytes one after another, and a byte outside the table has none. -/
theorem regionsInByteOrder : Obligations.RegionsInByteOrder := by
  unfold Obligations.RegionsInByteOrder
  intro s h name t
  have hname (c : Byte) : name c = (regionOf c).toList := by
    simp only [name, regionOf, apply_ite Option.toList, Option.toList_some, Option.toList_none]
  have hanswer : answer s (regionField s) = .next t := by
    rw [regionField_of_size h, ← hname, ← hname, ← hname]
    rfl
  exact ⟨hanswer, hanswer⟩

/-! ## CHECKSUM after a patch -/

theorem exec_checksum_of_size {s : State} (h : 0x190 ≤ s.rom.size) :
    exec .checksum s = .next (s.respond (checksumResponse (be16 (s.rom.byte 0x18E) (s.rom.byte 0x18F)) s.rom)) :=
  answer_eq_next_iff.mpr ⟨_, by rw [storedChecksum_of_size h]; rfl, rfl⟩

/-- Where CHECKSUM succeeds the stored checksum is the sum (R219). -/
theorem wordSum_of_checksum_ok {s t : State} (h : 0x190 ≤ s.rom.size) (hs : exec .checksum s = .next t)
    (hok : t.response = .ok) : wordSum (summedBytes s.rom) = be16 (s.rom.byte 0x18E) (s.rom.byte 0x18F) := by
  rw [exec_checksum_of_size h] at hs
  cases hs
  simpa [checksumResponse] using hok

/-- Where the stored checksum is not the sum, CHECKSUM fails (R219). -/
theorem exec_checksum_of_ne {s : State} (h : 0x190 ≤ s.rom.size)
    (hne : wordSum (summedBytes s.rom) ≠ be16 (s.rom.byte 0x18E) (s.rom.byte 0x18F)) :
    exec .checksum s = .next (s.respond (.error .invalidChecksum)) := by
  rw [exec_checksum_of_size h, checksumResponse, if_neg hne]

theorem be16_inj {b0 b1 c0 c1 : Byte} : be16 b0 b1 = be16 c0 c1 ↔ b0 = c0 ∧ b1 = c1 := by
  simp only [← BitVec.toNat_inj, be16_toNat]
  omega

/-- Another byte inside a word changes the sum: the other words stay, and a word is its two bytes (R62). -/
theorem wordSum_set_ne {bytes : List Byte} {i : Nat} {b : Byte} (hi : i < 2 * (bytes.length / 2))
    (hb : bytes[i]? ≠ some b) : wordSum (bytes.set i b) ≠ wordSum bytes := by
  induction bytes using wordSum.induct generalizing i with
  | case1 b0 b1 rest ih =>
    match i with
    | 0 => exact fun h => hb (congrArg some (be16_inj.mp ((BitVec.add_left_inj _).mp h)).1.symm)
    | 1 => exact fun h => hb (congrArg some (be16_inj.mp ((BitVec.add_left_inj _).mp h)).2.symm)
    | i + 2 =>
      have hrest : i < 2 * (rest.length / 2) := by
        simp only [List.length_cons] at hi
        omega
      exact fun h => ih hrest hb ((BitVec.add_right_inj _).mp h)
  | case2 bytes hshort =>
    match bytes with
    | [] => exact absurd hi (Nat.not_lt_zero i)
    | [_] => simp at hi
    | b0 :: b1 :: rest => exact absurd rfl (hshort b0 b1 rest)

/-- One byte stored inside the buffer: that byte is another one, and all else is as before (R60). -/
theorem Buffer.store_one {b : Buffer} (hb : b.wf) {off : Nat} (h : off < b.size) (v : Byte) :
    (b.store off [v]).1.size = b.size ∧ ∀ a, (b.store off [v]).1.byte a = if a = off then v else b.byte a := by
  obtain ⟨b', hstore, hsize, hstored, hkept⟩ := Buffer.store_inside hb h [v]
  rw [hstore]
  refine ⟨hsize, fun a => ?_⟩
  by_cases ha : a = off
  · rw [if_pos ha, ha]
    exact (Option.some.inj (hstored 0 Nat.one_pos h)).symm
  · rw [if_neg ha]
    exact hkept a (by simp only [List.length_singleton]; omega)

/-- A run of bytes in a memory with one byte exchanged. -/
theorem Memory.slice_eq_set {m m' : Memory} {off : Nat} {v : Byte}
    (hbyte : ∀ a, Memory.byte m' a = if a = off then v else Memory.byte m a) {first : Nat} (hfirst : first ≤ off)
    (n : Nat) : Memory.slice m' first n = (Memory.slice m first n).set (off - first) v := by
  refine List.ext_getElem? fun i => ?_
  rw [List.getElem?_set']
  by_cases hi : i < n
  · rw [Memory.slice_getElem? _ _ _ _ hi, Memory.slice_getElem? _ _ _ _ hi, hbyte]
    by_cases hplace : first + i = off
    · rw [if_pos hplace, if_pos (by omega)]
      rfl
    · rw [if_neg hplace, if_neg (by omega)]
  · have hout (k : Memory) : (Memory.slice k first n)[i]? = none :=
      List.getElem?_eq_none (by rw [Memory.slice_length]; omega)
    rw [hout, hout]
    split <;> rfl

/-- A byte stored among the summed ones is exchanged there, and no other of them (R60, R219). -/
theorem summedBytes_store_one {rom : Buffer} (hrom : rom.wf) {off : Nat} (h : off < rom.size) (hfirst : 0x200 ≤ off)
    (v : Byte) : summedBytes (rom.store off [v]).1 = (summedBytes rom).set (off - 0x200) v := by
  obtain ⟨hsize, hbyte⟩ := Buffer.store_one hrom h v
  rw [summedBytes, hsize]
  exact Memory.slice_eq_set hbyte hfirst _

/-- Settles O55: the patch leaves the stored checksum and changes the sum. -/
theorem checksumDetectsOneByte : Obligations.ChecksumDetectsOneByte := by
  unfold Obligations.ChecksumDetectsOneByte
  intro s t u offset b hwf hs hok hfirst hlast hb hu
  have hin : offset.toNat < s.rom.size := by omega
  have hlong : 0x190 ≤ s.rom.size := by omega
  have hsum := wordSum_of_checksum_ok hlong hs hok
  obtain ⟨hsize, hbyte⟩ := Buffer.store_one hwf hin b
  have hold : (summedBytes s.rom)[offset.toNat - 0x200]? = some (s.rom.byte offset.toNat) := by
    rw [summedBytes, Memory.slice_getElem? _ _ _ _ (by omega), Nat.add_sub_cancel' hfirst]
    rfl
  have hchanged : wordSum (summedBytes (s.rom.store offset.toNat [b]).1) ≠ wordSum (summedBytes s.rom) := by
    rw [summedBytes_store_one hwf hin hfirst]
    refine wordSum_set_ne ?_ fun h => hb (Option.some.inj (h.symm.trans hold))
    rw [summedBytes, Memory.slice_length]
    omega
  obtain ⟨-, -, rfl⟩ := transaction_next hu
  refine exec_checksum_of_ne (hsize.symm ▸ hlong) ?_
  show wordSum (summedBytes (s.rom.store offset.toNat [b]).1) ≠
    be16 ((s.rom.store offset.toNat [b]).1.byte 0x18E) ((s.rom.store offset.toNat [b]).1.byte 0x18F)
  rwa [hbyte, hbyte, if_neg (by omega), if_neg (by omega), ← hsum]

end Sys2Proof.Machine
end

section
/-! PROOFS, family 46_system: what SYS.CONSTRUCT maps and resets, the reset vector read from the cartridge by SYS.LOAD, and the turns
of SYS.RUN. -/

namespace Sys2Proof.Machine

/-! ## SYS.CONSTRUCT -/

/-- MAP of ranges in turn succeeds exactly where no two of them, nor one and an earlier range, meet (R102, R233). -/
theorem mapAll_snd_iff {table : List Mapping} (h : table.Pairwise fun m k => m.overlaps k = false) (ms : List Mapping) :
    (mapAll table ms).2 = true ↔ (table ++ ms).Pairwise fun m k => m.overlaps k = false := by
  induction ms generalizing table with
  | nil => simp [mapAll, h]
  | cons m ms ih =>
    obtain ⟨hnone, k, hk, hmeets⟩ | ⟨hsome, hdisjoint⟩ := mapRange_cases table m
    · simp only [mapAll, hnone, Bool.false_eq_true, false_iff]
      intro hall
      have hbeside : k.overlaps m = false := (List.pairwise_append.mp hall).2.2 k hk m List.mem_cons_self
      rw [overlaps_symm, hmeets] at hbeside
      exact Bool.noConfusion hbeside
    · have hadded : (table ++ [m]).Pairwise fun m k => m.overlaps k = false :=
        List.pairwise_append.mpr ⟨h, List.pairwise_singleton _ m, fun k hk m' hm' => by
          rw [List.mem_singleton.mp hm', overlaps_symm]
          exact hdisjoint k hk⟩
      simp only [mapAll, hsome]
      rw [ih hadded, List.append_assoc, List.singleton_append]

/-- From an empty table they all fit exactly where no two of them meet (R233). -/
theorem mapAll_nil_snd_iff (ms : List Mapping) :
    (mapAll [] ms).2 = true ↔ ms.Pairwise fun m k => m.last < k.first ∨ k.last < m.first :=
  (mapAll_snd_iff .nil ms).trans (List.Pairwise.iff fun _ _ => overlaps_eq_false_iff.trans or_comm)

theorem exec_sysConstruct_of_collision {c : Config} (s : State) (hc : c.check = none)
    (hm : (mapAll [] (systemMap c)).2 = false) :
    exec (.sysConstruct c) s = .next
      (((constructed c (mapAll [] (systemMap c)).1 s).withBoot .fatal).respond (.error .rangeOverlap)) := by
  show execSysConstruct c s = _
  rcases hall : mapAll [] (systemMap c) with ⟨table, ok⟩
  obtain rfl : ok = false := by simpa [hall] using hm
  simp only [execSysConstruct, hc, hall]

theorem exec_sysConstruct_of_illFormed {c : Config} (s : State) {why : IllFormed} (hc : c.check = some why) :
    exec (.sysConstruct c) s = .refused (.illFormed why) := by
  show execSysConstruct c s = _
  simp only [execSysConstruct, hc]

theorem Config.wf_iff {c : Config} : c.wf = true ↔ c.check = none := by
  simp [Config.wf]

/-- A buffer begins with the bytes its parameter lists, and reads 0x00 beyond them (R25, D19). -/
theorem initialCells_byte {size a : Nat} (h : a < size) (init : List Byte) :
    Memory.byte (initialCells size init) a = (init[a]?).getD 0#8 := by
  rw [initialCells, Memory.byte_fromBytes, if_pos (Nat.zero_le a), Nat.sub_zero, List.getElem?_take_of_lt h]
  rfl

/-- Settles O45: the configuration's check, and then whether its ranges fit one after the other, decide the three cases. -/
theorem constructBuildsMap : Obligations.ConstructBuildsMap := by
  unfold Obligations.ConstructBuildsMap
  intro c s table
  refine ⟨fun hwf hdisjoint => ?fits, fun hwf hmeet => ?collides, fun hwf => ?illFormed⟩
  case fits =>
    have hall : (mapAll [] (systemMap c)).2 = true := (mapAll_nil_snd_iff _).mpr hdisjoint
    have hmap : mapAll [] (systemMap c) = (table, true) := Prod.ext (mapAll_of_ok hall) hall
    exact ⟨constructed c table s, exec_sysConstruct_of_disjoint s (Config.wf_iff.mp hwf) hmap, rfl, rfl, rfl, rfl, rfl, rfl,
      rfl, rfl, fun j hj => Vector.getElem_replicate hj, rfl, rfl, rfl, rfl, rfl, fun a ha => initialCells_byte ha _,
      fun a ha => initialCells_byte ha _⟩
  case collides =>
    have hnot : (mapAll [] (systemMap c)).2 = false := by
      rwa [← mapAll_nil_snd_iff, Bool.not_eq_true] at hmeet
    exact ⟨_, exec_sysConstruct_of_collision s (Config.wf_iff.mp hwf) hnot, rfl, rfl, rfl⟩
  case illFormed =>
    have hcheck : c.check ≠ none := mt Config.wf_iff.mpr (by simp [hwf])
    obtain ⟨why, hwhy⟩ := Option.ne_none_iff_exists'.mp hcheck
    exact ⟨why, exec_sysConstruct_of_illFormed s hwhy⟩

/-! ## One word of the reset vector -/

theorem be32Of_eq_none {bytes : List Byte} (h : bytes.length ≠ 4) : be32Of bytes = none := by
  unfold be32Of
  split
  · exact absurd rfl h
  · rfl

section
variable {b : Buffer} {off : Nat}

/-- A word that begins beyond the data is EndOfData (R125, R237). -/
theorem vectorWord_load_outside (h : b.size ≤ off) :
    vectorWord (b.load .endOfData off 4) = .error (.error .endOfData) := by
  rw [Buffer.load, if_pos h]
  rfl

/-- A word that runs past the end of the data is the short read of the bytes there are (D22). -/
theorem vectorWord_load_short (hin : off < b.size) (hshort : b.size < off + 4) :
    vectorWord (b.load .endOfData off 4) = .error (.shortVector (b.size - off)) := by
  obtain ⟨hout, -⟩ | ⟨-, bytes, hload, hlen, -⟩ := b.load_cases .endOfData off 4
  · omega
  have hmin : min 4 (b.size - off) = b.size - off := by omega
  rw [hmin] at hload hlen
  simp only [hload, vectorWord, be32Of_eq_none (show bytes.length ≠ 4 by omega)]

/-- A word that lies in the data is its four bytes, big-endian (R237). -/
theorem vectorWord_load_whole (h : off + 4 ≤ b.size) :
    vectorWord (b.load .endOfData off 4)
      = .ok (be32 (b.byte off) (b.byte (off + 1)) (b.byte (off + 2)) (b.byte (off + 3))) := by
  rw [Buffer.load, if_neg (by omega), Nat.min_eq_left (by omega)]
  rfl

end

/-! ## The reset vector of a mapped cartridge -/

/-- The records of a 4-byte read of the cartridge: one when it is traced into a sink (R135; log entry 36). -/
def cartridgeRecords (c : Config) (offset : Addr) : List TraceRecord :=
  match c.romTracer with
  | none => []
  | some l => if c.traceSink then [.read l offset 4] else []

theorem devRead_cartridge (c : Config) (offset : Addr) (s : State) :
    devRead (romMapping c).device offset 4 s
      = (s.trace (cartridgeRecords c offset), s.rom.load .endOfData offset.toNat 4) := by
  have hsilent : s.trace [] = s := by simp [State.trace]
  unfold romMapping tracedDevice cartridgeRecords
  cases c.romTracer with
  | none => exact Prod.ext hsilent.symm rfl
  | some l => cases c.traceSink with
    | false => exact Prod.ext hsilent.symm rfl
    | true => rfl

theorem State.trace_trace (s : State) (rs rs' : List TraceRecord) : (s.trace rs).trace rs' = s.trace (rs ++ rs') := by
  simp [State.trace]

section
variable {s : State} (htable : TableOk s.table) (hm : romMapping s.cfg ∈ s.table)
include htable hm

/-- A bus read in ROM_WINDOW is the cartridge's at the address itself, since the window begins at 0 (R231). -/
theorem busRead_cartridge {addr : Addr} (haddr : addr ≤ romLast) :
    busRead addr 4 s = (s.trace (cartridgeRecords s.cfg addr), s.rom.load .endOfData addr.toNat 4) := by
  have hfirst : romFirst ≤ addr := BitVec.le_def.mpr (Nat.zero_le _)
  rw [busRead_of_mapped htable hm hfirst haddr (Nat.zero_add _), devRead_cartridge]

theorem resetVector_of_first_error {r : Response} (h : vectorWord (s.rom.load .endOfData 0 4) = .error r) :
    resetVector s = (s.trace (cartridgeRecords s.cfg 0#32), .error r) := by
  have hread := busRead_cartridge htable hm (show 0#32 ≤ romLast by decide)
  simp only [resetVector, hread, BitVec.toNat_ofNat, Nat.zero_mod, h]

/-- Once the stack pointer is read, the word at offset 4 decides (R237, D21). -/
theorem resetVector_of_first_ok {sp : BitVec 32} (h : vectorWord (s.rom.load .endOfData 0 4) = .ok sp) :
    resetVector s = (s.trace (cartridgeRecords s.cfg 0#32 ++ cartridgeRecords s.cfg 4#32),
      (vectorWord (s.rom.load .endOfData 4 4)).map (sp, ·)) := by
  have hread := busRead_cartridge htable hm (show 0#32 ≤ romLast by decide)
  have hnext := busRead_cartridge (s := s.trace (cartridgeRecords s.cfg 0#32)) htable hm (show 4#32 ≤ romLast by decide)
  simp only [State.trace_rom, State.trace_cfg, State.trace_trace] at hnext
  simp only [resetVector, hread, hnext, BitVec.toNat_ofNat, Nat.zero_mod, Nat.reducePow, Nat.reduceMod, h]
  cases vectorWord (s.rom.load .endOfData 4 4) <;> rfl

/-- On at least 8 bytes of data both words are read (R237). -/
theorem resetVector_of_words (h : 8 ≤ s.rom.size) :
    resetVector s = (s.trace (cartridgeRecords s.cfg 0#32 ++ cartridgeRecords s.cfg 4#32),
      .ok (be32 (s.rom.byte 0) (s.rom.byte 1) (s.rom.byte 2) (s.rom.byte 3),
        be32 (s.rom.byte 4) (s.rom.byte 5) (s.rom.byte 6) (s.rom.byte 7))) := by
  rw [resetVector_of_first_ok htable hm (vectorWord_load_whole (by omega)), vectorWord_load_whole h]
  rfl

/-- On fewer the first word that is not wholly there fails, beyond the data or as a short read (D22). -/
theorem resetVector_of_short (h : s.rom.size < 8) : ∃ rs, resetVector s = (s.trace rs,
    .error (if s.rom.size % 4 = 0 then .error .endOfData else .shortVector (s.rom.size % 4))) := by
  by_cases hfirst : s.rom.size < 4
  · refine ⟨_, resetVector_of_first_error htable hm ?_⟩
    by_cases hempty : s.rom.size = 0
    · rw [vectorWord_load_outside (by omega), if_pos (by omega)]
    · rw [vectorWord_load_short (by omega) (by omega), if_neg (by omega), Nat.mod_eq_of_lt hfirst, Nat.sub_zero]
  · refine ⟨cartridgeRecords s.cfg 0#32 ++ cartridgeRecords s.cfg 4#32,
      (resetVector_of_first_ok htable hm (vectorWord_load_whole (by omega))).trans ?_⟩
    have hmod : s.rom.size % 4 = s.rom.size - 4 := by omega
    by_cases hend : s.rom.size = 4
    · rw [vectorWord_load_outside (by omega), if_pos (by omega)]
      rfl
    · rw [vectorWord_load_short (by omega) (by omega), if_neg (by omega), hmod]
      rfl

end

/-! ## SYS.LOAD -/

theorem romMapping_mem_loadMapped (data : List Byte) (s : State) :
    romMapping (loadMapped data s).cfg ∈ (loadMapped data s).table :=
  List.mem_append_right _ (List.mem_singleton_self _)

section
variable {s : State} {data : List Byte} (htable : TableOk s.table) (hfree : RomWindowFree s.table)
include htable hfree

/-- The table through which SYS.LOAD reads the reset vector is well-formed (R101, R236). -/
theorem loadMapped_tableOk : TableOk (loadMapped data s).table :=
  (htable.filter _).mapRange (romMapping_wf s.cfg) (mapRange_romMapping_of_free (data := data) hfree)

/-- What SYS.LOAD of at least 8 bytes leaves (R236, R237). -/
theorem loadRom_of_words (h : 8 ≤ data.length) : loadRom data s =
    ((((loadMapped data s).trace (cartridgeRecords s.cfg 0#32 ++ cartridgeRecords s.cfg 4#32)).withBoot (.loaded
      (be32 ((Buffer.ofBytes data).byte 0) ((Buffer.ofBytes data).byte 1) ((Buffer.ofBytes data).byte 2)
        ((Buffer.ofBytes data).byte 3))
      (be32 ((Buffer.ofBytes data).byte 4) ((Buffer.ofBytes data).byte 5) ((Buffer.ofBytes data).byte 6)
        ((Buffer.ofBytes data).byte 7)))).trace (lifecycleLines s.cfg)).respond .ok := by
  have hr := resetVector_of_words (loadMapped_tableOk (data := data) htable hfree) (romMapping_mem_loadMapped data s) h
  obtain ⟨r, he, -⟩ | ⟨sp, pc, hok, e⟩ := loadRom_of_free (data := data) hfree
  · rw [hr] at he
    cases he
  · rw [hr] at hok e
    cases hok
    exact e

/-- What SYS.LOAD of fewer bytes leaves (R237, D22). -/
theorem loadRom_of_short (h : data.length < 8) : ∃ rs, loadRom data s =
    (((loadMapped data s).trace rs).withBoot .failed).respond
      (if data.length % 4 = 0 then .error .endOfData else .shortVector (data.length % 4)) := by
  obtain ⟨rs, hr⟩ :=
    resetVector_of_short (loadMapped_tableOk (data := data) htable hfree) (romMapping_mem_loadMapped data s) h
  obtain ⟨r, he, e⟩ | ⟨sp, pc, hok, -⟩ := loadRom_of_free (data := data) hfree
  · rw [hr] at he e
    cases he
    exact ⟨rs, e⟩
  · rw [hr] at hok
    cases hok

end

/-- Settles O46: the state after both words are read, and in it the values of the words and of the records. -/
theorem loadInstallsRom : Obligations.LoadInstallsRom := by
  unfold Obligations.LoadInstallsRom
  intro s d0 d1 d2 d3 d4 d5 d6 d7 rest hb htable hfree reads
  have hexec := (exec_sysLoad_of_not_fatal hb).trans (congrArg Host.Outcome.next (loadRom_of_words
    (data := d0 :: d1 :: d2 :: d3 :: d4 :: d5 :: d6 :: d7 :: rest) htable hfree (by simp)))
  have hreads : cartridgeRecords s.cfg 0#32 ++ cartridgeRecords s.cfg 4#32 = reads := by
    unfold cartridgeRecords reads
    cases s.cfg.romTracer with
    | none => rfl
    | some l => cases s.cfg.traceSink <;> rfl
  rw [hreads] at hexec
  simp only [Buffer.ofBytes_byte] at hexec
  exact ⟨be32 d0 d1 d2 d3, be32 d4 d5 d6 d7, _, hexec, be32_toNat .., be32_toNat .., rfl, rfl, rfl, rfl, rfl, rfl,
    Nat.add_comm rest.length 8, Buffer.ofBytes_byte _, rfl, rfl, rfl, rfl, rfl⟩

/-! ## SYS.RUN -/

theorem execSysRun_of_not_runnable {s : State} (hs : s.accepts) (hr : runnable s.boot = false) :
    execSysRun s = .fault .notRunnable := by
  rw [execSysRun, accepted_of hs, if_neg (by simp [hr])]

/-- Settles O47: which word fails, and how, is the length modulo 4; the System is then neither halted nor runnable. -/
theorem loadOfShortRomFails : Obligations.LoadOfShortRomFails := by
  unfold Obligations.LoadOfShortRomFails
  intro s data hb htable hfree hshort
  obtain ⟨rs, hload⟩ := loadRom_of_short htable hfree hshort
  refine ⟨_, (exec_sysLoad_of_not_fatal hb).trans (congrArg Host.Outcome.next hload), rfl, rfl, fun hwhole => ?_,
    fun hpart => ?_, execSysRun_of_not_runnable ⟨rfl, Boot.noConfusion⟩ rfl⟩
  · exact if_pos (by omega)
  · exact if_neg (by omega)

section
variable {s : State} {rest : List ExecutorMove}

theorem runTurn_of_no_move (h : s.executor = []) : runTurn s = .next (s.withRunning true) := by
  simp only [runTurn, h]

theorem runTurn_of_terminate (h : s.executor = .terminate :: rest) :
    runTurn s = .next (((s.withExecutor rest).withRunning false).respond .ok) := by
  simp only [runTurn, h]

theorem runTurn_of_fail (h : s.executor = .fail :: rest) :
    runTurn s = .next ((((s.withExecutor rest).withHalted true).withRunning false).respond .executorError) := by
  simp only [runTurn, h]

theorem runTurn_of_read {addr : Addr} {n : Nat} (h : s.executor = .read addr n :: rest) (hn : n ≠ 0) :
    runTurn s = .next (runAccess (busRead addr n (s.withExecutor rest))) := by
  simp only [runTurn, h, if_neg hn]

theorem runTurn_of_write {addr : Addr} {v : List Byte} (h : s.executor = .write addr v :: rest) (hv : v.length ≠ 0) :
    runTurn s = .next (runAccess (busWrite addr v (s.withExecutor rest))) := by
  simp only [runTurn, h, if_neg hv]

end

/-- A turn that makes the access `r` leaves what the access's own transaction leaves, but halts and ends Run at its error and goes
on without one (R238, R262). -/
theorem exec_sysRun_of_access {i : Instr} {s s' : State} {n : Nat} {r : State × Xfer} (hs : s'.accepts) (hn : n ≠ 0)
    (hi : exec i s' = transaction s' n r) (hrun : exec .sysRun s = .next (runAccess r)) :
    ∃ t x, exec i s' = .next t ∧ t.response = .transfer x ∧
      exec .sysRun s = .next { t with halted := x.err.isSome, running := x.err.isNone } :=
  ⟨deliver r, r.2, hi.trans (transaction_of_accepted r hs hn), rfl, hrun⟩

/-- Settles O48: a runnable System that is not halted takes a turn of the loop, which the executor's next move decides. -/
theorem runStopsAtFirstError : Obligations.RunStopsAtFirstError := by
  unfold Obligations.RunStopsAtFirstError
  intro s rest hhalt hboot
  have hrunnable : runnable s.boot = true := by
    obtain hb | ⟨sp, pc, hb⟩ := hboot <;> rw [hb] <;> rfl
  have hs : s.accepts := accepts_of_runnable hhalt hrunnable
  have hturn : exec .sysRun s = runTurn s := execSysRun_of_runnable hhalt hrunnable
  refine ⟨fun h => hturn.trans (runTurn_of_no_move h), fun h => hturn.trans (runTurn_of_terminate h),
    fun h => hturn.trans (runTurn_of_fail h), fun addr n h hn => ?read, fun addr v h hv => ?write⟩
  case read => exact exec_sysRun_of_access (s' := s.withExecutor rest) hs hn rfl (hturn.trans (runTurn_of_read h hn))
  case write =>
    have hlen : v.length ≠ 0 := mt List.length_eq_zero_iff.mp hv
    exact exec_sysRun_of_access (s' := s.withExecutor rest) hs hlen rfl (hturn.trans (runTurn_of_write h hlen))

end Sys2Proof.Machine
end

section
/-! PROOFS, family 60_exceptions: the errors each shared operation can raise, the errors each operation of the table can return
(R256), and the halt (R263). -/

namespace Sys2Proof.Machine

/-! ## Buffers -/

theorem Buffer.eq_of_load_err {b : Buffer} {outside e : Err} {off n : Nat} (h : (b.load outside off n).err = some e) :
    e = outside := by
  obtain hnone | hsome := b.load_err outside off n
  · exact nomatch hnone.symm.trans h
  · exact Option.some.inj (h.symm.trans hsome)

/-- A write that starts outside the buffer is an access violation, and any other failure is a short write (R60, R122, R126). -/
theorem Buffer.store_err {b : Buffer} {offset : Addr} {v : List Byte} {e : Err}
    (h : (b.store offset.toNat v).2.err = some e) : e = .accessViolation offset ∨ e = .shortWrite := by
  by_cases hout : b.size ≤ offset.toNat
  · rw [Buffer.store_outside hout] at h
    exact .inl (Option.some.inj h).symm
  · simp only [Buffer.store, if_neg hout] at h
    split at h
    · exact .inr (Option.some.inj h).symm
    · exact nomatch h

/-! ## The VDP -/

/-- The two errors of a data-port write: refused for its mode or for its target (R192, R253). -/
def DataPortError (e : Err) : Prop :=
  e = .unsupportedOperation .operationMismatch ∨ e = .unsupportedOperation .unsupportedTarget

@[simp] theorem Vdp.regset_vram (index : BitVec 6) (value : Byte) (v : Vdp) : (v.regset index value).vram = v.vram := by
  obtain ⟨hi, e⟩ | ⟨-, e⟩ := v.regset_cases index value <;> rw [e]

@[simp] theorem Vdp.ctrlWrite_vram (b0 b1 : Byte) (v : Vdp) : (v.ctrlWrite b0 b1).vram = v.vram := by
  obtain ⟨-, e⟩ | ⟨-, -, e⟩ | ⟨-, -, e⟩ := v.ctrlWrite_cases b0 b1 <;> rw [e]
  · rfl
  · exact v.regset_vram _ _
  · rfl

@[simp] theorem Vdp.dataWrite_vram_size (b0 b1 : Byte) (v : Vdp) : (v.dataWrite b0 b1).1.vram.size = v.vram.size := by
  obtain ⟨-, e⟩ | ⟨-, -, e⟩ | ⟨-, -, e⟩ := v.dataWrite_cases b0 b1 <;> rw [e]
  exact Buffer.store_size _ _ _

@[simp] theorem Vdp.write16_vram_size (off : Nat) (b0 b1 : Byte) (v : Vdp) :
    (v.write16 off b0 b1).1.vram.size = v.vram.size := by
  obtain ⟨-, e⟩ | ⟨-, e⟩ | ⟨-, e⟩ := v.write16_cases off b0 b1 <;> simp [e]

/-- At no port a read is an access violation; at a port it is not specified, unless it is the status read (R151, R153). -/
theorem Vdp.read_err {offset : Addr} {n : Nat} {v : Vdp} {e : Err} (h : (v.read offset n).2.err = some e) :
    e = .accessViolation offset ∨ e = .unsupportedOperation .readNotSpecified := by
  by_cases hnone : portOf offset.toNat = none
  · rw [Vdp.read_eq_of_no_port hnone] at h
    exact .inl (Option.some.inj h).symm
  by_cases hstatus : portOf offset.toNat = some .control ∧ n = 2
  · obtain ⟨hport, rfl⟩ := hstatus
    rw [Vdp.read_eq_of_control hport] at h
    exact nomatch h
  have hport : portOf offset.toNat = some .data ∨ (portOf offset.toNat = some .control ∧ n ≠ 2) := by
    rcases hp : portOf offset.toNat with _ | _ | _
    · exact absurd hp hnone
    · exact .inl rfl
    · exact .inr ⟨rfl, fun hn => hstatus ⟨hp, hn⟩⟩
  rw [Vdp.read_eq_of_not_specified hport] at h
  exact .inr (Option.some.inj h).symm

/-- In a VRAM of full size a data-port write fails only for its mode or its target (R192, R195). -/
theorem Vdp.dataWrite_err {b0 b1 : Byte} {v : Vdp} {e : Err} (hsize : v.vram.size = vramSize)
    (h : (v.dataWrite b0 b1).2 = some e) : DataPortError e := by
  obtain ⟨-, hw⟩ | ⟨-, -, hw⟩ | ⟨-, -, hw⟩ := v.dataWrite_cases b0 b1 <;> rw [hw] at h
  · exact .inl (Option.some.inj h).symm
  · exact .inr (Option.some.inj h).symm
  · rw [Vdp.vramWrite16_ok _ _ _ { v with writePending := false } hsize] at h
    exact nomatch h

/-- A logical write fails at no port with its offset, and at the data port as that does; the control port never fails (R157, R170). -/
theorem Vdp.write16_err {off : Nat} {b0 b1 : Byte} {v : Vdp} {e : Err} (hsize : v.vram.size = vramSize)
    (h : (v.write16 off b0 b1).2 = some e) : e = .accessViolation (BitVec.ofNat 32 off) ∨ DataPortError e := by
  obtain ⟨-, hw⟩ | ⟨-, hw⟩ | ⟨-, hw⟩ := v.write16_cases off b0 b1 <;> rw [hw] at h
  · exact .inr (Vdp.dataWrite_err hsize h)
  · exact nomatch h
  · exact .inl (Option.some.inj h).symm

/-- The error of a write of any length is that of one of its logical writes, on a VDP with every property that those keep (R154,
R155). -/
theorem Vdp.writeFrom_err (P : Vdp → Prop) (step : ∀ off b0 b1 v, P v → P (v.write16 off b0 b1).1) {e : Err}
    (offset consumed : Nat) (bytes : List Byte) (v : Vdp) (hv : P v)
    (h : (Vdp.writeFrom offset consumed bytes v).2.err = some e) :
    ∃ off b0 b1 v', P v' ∧ (v'.write16 off b0 b1).2 = some e := by
  induction consumed, bytes, v using Vdp.writeFrom.induct (offset := offset) with
  | case1 => exact nomatch h
  | case2 consumed b v v' e' he =>
    simp only [Vdp.writeFrom, he] at h
    exact ⟨_, b, b, v, hv, (congrArg Prod.snd he).trans h⟩
  | case3 consumed b v v' he =>
    simp only [Vdp.writeFrom, he] at h
    exact nomatch h
  | case4 consumed b0 b1 rest v v' e' he =>
    simp only [Vdp.writeFrom, he] at h
    exact ⟨_, b0, b1, v, hv, (congrArg Prod.snd he).trans h⟩
  | case5 consumed b0 b1 rest v v' he ih =>
    simp only [Vdp.writeFrom, he] at h
    have hv' : P v' := by simpa only [he] using step (offset + consumed) b0 b1 v hv
    exact ih hv' h

theorem Vdp.write_err {offset : Addr} {bytes : List Byte} {v : Vdp} {e : Err} (hsize : v.vram.size = vramSize)
    (h : (v.write offset bytes).2.err = some e) : (∃ a, e = .accessViolation a) ∨ DataPortError e := by
  obtain ⟨off, b0, b1, v', hsize', he⟩ := Vdp.writeFrom_err (fun v => v.vram.size = vramSize)
    (fun off b0 b1 v hv => (v.write16_vram_size off b0 b1).trans hv) _ _ _ _ hsize h
  exact (Vdp.write16_err hsize' he).imp_left fun ha => ⟨_, ha⟩

/-! ## Device and bus accesses -/

@[simp] theorem traceIf_ram (sink : Bool) (r : TraceRecord) (s : State) : (traceIf sink r s).ram = s.ram := by
  cases sink <;> rfl

@[simp] theorem traceIf_rom (sink : Bool) (r : TraceRecord) (s : State) : (traceIf sink r s).rom = s.rom := by
  cases sink <;> rfl

@[simp] theorem traceIf_vdp (sink : Bool) (r : TraceRecord) (s : State) : (traceIf sink r s).vdp = s.vdp := by
  cases sink <;> rfl

/-- A Tracer's record changes no result of the access it stands before (R135). -/
theorem device_result_traceIf (d : Device) (offset : Addr) (sink : Bool) (r : TraceRecord) (s : State) :
    (∀ n, (devRead d offset n (traceIf sink r s)).2 = (devRead d offset n s).2) ∧
      ∀ v, (devWrite d offset v (traceIf sink r s)).2 = (devWrite d offset v s).2 :=
  device_result_of_contents d offset (traceIf_ram sink r s) (traceIf_rom sink r s) (traceIf_vdp sink r s)

theorem stubRead_err (kind : Stub) (n : Nat) : (stubRead kind n).err = none := by
  cases kind <;> rfl

/-- What a read of a device can raise (R121, R125, R151, R153): a Mirror and a Tracer add nothing (R132, R135). -/
theorem devRead_err {d : Device} {offset : Addr} {n : Nat} {s : State} {e : Err}
    (h : (devRead d offset n s).2.err = some e) :
    (∃ a, e = .accessViolation a) ∨ e = .endOfData ∨ e = .unsupportedOperation .readNotSpecified := by
  induction d generalizing offset s with
  | ram => exact .inl ⟨_, Buffer.eq_of_load_err h⟩
  | rom => exact .inr (.inl (Buffer.eq_of_load_err h))
  | vdp => exact (Vdp.read_err h).imp (fun ha => ⟨_, ha⟩) .inr
  | stub kind => exact nomatch (stubRead_err kind n).symm.trans h
  | mirror period inner ih => exact ih h
  | tracer label sink inner ih => exact ih h

/-- What a write to a device can raise (R122, R126, R157, R192): a Mirror and a Tracer add nothing (R132, R135). -/
theorem devWrite_err {d : Device} {offset : Addr} {v : List Byte} {s : State} {e : Err}
    (hsize : s.vdp.vram.size = vramSize) (h : (devWrite d offset v s).2.err = some e) :
    (∃ a, e = .accessViolation a) ∨ e = .shortWrite ∨ DataPortError e := by
  induction d generalizing offset s with
  | ram => exact (Buffer.store_err h).imp (fun ha => ⟨_, ha⟩) .inl
  | rom => exact (Buffer.store_err h).imp (fun ha => ⟨_, ha⟩) .inl
  | vdp => exact (Vdp.write_err hsize h).imp_right .inr
  | stub => exact nomatch h
  | mirror period inner ih => exact ih hsize h
  | tracer label sink inner ih => exact ih (by rwa [traceIf_vdp]) h

section
variable {a : Addr} {s : State} {e : Err}

/-- A bus read fails as the device of the mapping that it finds, or with the address itself (R103, R104). -/
theorem busRead_err {n : Nat} (h : (busRead a n s).2.err = some e) :
    (lookup s.table a = none ∧ e = .accessViolation a) ∨
      ∃ m, lookup s.table a = some m ∧ (devRead m.device (offsetIn m a) n s).2.err = some e := by
  unfold busRead at h
  split at h
  next hnone => exact .inl ⟨hnone, (Option.some.inj h).symm⟩
  next m hm => exact .inr ⟨m, hm, h⟩

/-- A bus write fails as the device of the mapping that it finds, or with the address itself (R103, R105). -/
theorem busWrite_err {v : List Byte} (h : (busWrite a v s).2.err = some e) :
    (lookup s.table a = none ∧ e = .accessViolation a) ∨
      ∃ m, lookup s.table a = some m ∧ (devWrite m.device (offsetIn m a) v s).2.err = some e := by
  unfold busWrite at h
  split at h
  next hnone => exact .inl ⟨hnone, (Option.some.inj h).symm⟩
  next m hm => exact .inr ⟨m, hm, h⟩

end

/-! ## The error an operation returns -/

/-- The operation goes on and returns the error, with a count or without one (R71, R258). -/
def ReturnsError (o : Result) (e : Err) : Prop :=
  ∃ t, o = .next t ∧ (t.response = .error e ∨ ∃ x, t.response = .transfer x ∧ x.err = some e)

section
variable {s : State} {e : Err}

theorem ReturnsError.of_transaction {n : Nat} {r : State × Xfer} (h : ReturnsError (transaction s n r) e) :
    r.2.err = some e := by
  obtain ⟨t, ht, hresp⟩ := h
  obtain ⟨-, -, rfl⟩ := transaction_next ht
  obtain hresp | ⟨x, hresp, hx⟩ := hresp
  · exact nomatch hresp
  · exact (congrArg Xfer.err (Response.transfer.inj hresp)).trans hx

theorem ReturnsError.of_onDevice {d : Device} {n : Nat} {r : State × Xfer}
    (h : ReturnsError (onDevice d (transaction s n r)) e) : r.2.err = some e := by
  obtain ⟨t, ht, hresp⟩ := h
  exact ReturnsError.of_transaction ⟨t, (onDevice_next ht).2, hresp⟩

theorem ReturnsError.of_command {r : Vdp × Option Err} (h : ReturnsError (command s r) e) : r.2 = some e := by
  obtain ⟨t, ht, hresp⟩ := h
  obtain ⟨-, rfl⟩ := command_next ht
  rw [State.respond_response] at hresp
  obtain ⟨v, _ | e'⟩ := r
  · obtain hresp | ⟨x, hresp, -⟩ := hresp <;> exact nomatch hresp
  · obtain hresp | ⟨x, hresp, -⟩ := hresp
    · exact congrArg some (Response.error.inj hresp)
    · exact nomatch hresp

end

/-- Settles O44: what an operation returns is the error of its access or command, and each of those is known. -/
theorem errorsOfEachOperation : Obligations.ErrorsOfEachOperation := by
  unfold Obligations.ErrorsOfEachOperation
  intro s e hsize fails mode
  refine ⟨fun a n h => busRead_err (ReturnsError.of_transaction h),
    fun a v h => busWrite_err (ReturnsError.of_transaction h),
    fun p d o n h => ReturnsError.of_onDevice h, fun p d o v h => ReturnsError.of_onDevice h,
    fun l k d o n h => ((device_result_traceIf d o k (.read l o n) s).1 n) ▸ ReturnsError.of_onDevice h,
    fun l k d o v h => ((device_result_traceIf d o k (.write l o v) s).2 v) ▸ ReturnsError.of_onDevice h,
    fun d o n => devRead_err, fun d o v => devWrite_err hsize,
    fun o n h => Buffer.eq_of_load_err (ReturnsError.of_transaction h),
    fun o v h => Buffer.store_err (ReturnsError.of_transaction h),
    fun o n h => Buffer.eq_of_load_err (ReturnsError.of_transaction h),
    fun o v h => Buffer.store_err (ReturnsError.of_transaction h),
    fun o n h => Vdp.read_err (ReturnsError.of_transaction h),
    fun o v h => Vdp.write_err hsize (ReturnsError.of_transaction h),
    fun o b0 b1 h => ?vdpWr16, fun b0 b1 h => Vdp.dataWrite_err hsize (ReturnsError.of_command h), ?never⟩
  case vdpWr16 =>
    have herr := Vdp.write16_err hsize (ReturnsError.of_command h)
    rwa [BitVec.ofNat_toNat, BitVec.setWidth_eq] at herr
  -- The stubs and the status read are transactions without an error, the commands of the control port leave none, and the word
  -- store has none in a VRAM of full size.
  case never =>
    rintro i (⟨k, o, n, rfl⟩ | ⟨k, o, v, rfl⟩ | ⟨p, rfl⟩ | ⟨p, b0, b1, rfl⟩ | ⟨j, v, rfl⟩ | ⟨lo, rfl | rfl | rfl⟩ |
      ⟨a, b, c, d, rfl⟩ | ⟨a, b0, b1, rfl⟩) h
    · exact nomatch (stubRead_err k n).symm.trans (ReturnsError.of_transaction h)
    · exact nomatch ReturnsError.of_transaction h
    · exact nomatch ReturnsError.of_transaction h
    iterate 6 exact nomatch ReturnsError.of_command h
    · have hnone := congrArg Prod.snd (Vdp.vramWrite16_ok a b0 b1 s.vdp hsize)
      exact nomatch hnone.symm.trans (ReturnsError.of_command h)

/-! ## The halt -/

/-- Settles O49: the gate of the transactions answers `halted`, and every operation but the software and the set-up is behind it. -/
theorem haltedAcceptsNoTransaction : Obligations.HaltedAcceptsNoTransaction := by
  unfold Obligations.HaltedAcceptsNoTransaction
  intro i s hhalted _ hsoft hsetup
  exact exec_of_stopped (accepted_halted hhalted) hsoft hsetup

end Sys2Proof.Machine
end
